-- ==== Sys2Proof/Word.lean ====
section
/-! DEFINITION. The word of the wire format, the byte (00_scope.md section 4.1: "A byte is an unsigned integer 0 to 255"),
and the two logic levels of a pin (00_scope.md R8). -/

namespace Sys2Proof

/-- A byte of the stream, of a frame, of an operand register or of a chip register (R51). -/
abbrev Byte := BitVec 8

/-- A defined level of a pin: "`Low` is the number 0 and `High` is the number 1" (R8). -/
inductive Level where
  | low
  | high
deriving DecidableEq, Repr

/-- What a pin or a bit of a shift register holds: a level, or `none` for the spec's own value `Undefined`
(00_scope.md section 4.3, R11, R26; log 7). It is never read as 0. -/
abbrev Wire := Option Level

end Sys2Proof
end

