-- ==== Sys2Proof/Config.lean ====
section
/-! DEFINITION. What is fixed for a run: the constants of R5, the options of R6 and the parameters of R7 (00_scope.md). -/

namespace Sys2Proof

/-- The eight named logical signals (R9). -/
inductive Signal where
  | addrSer | dataSer | shClk | shLatch | shMrN | csN | resN | chipClk
deriving DecidableEq, Repr

/-- The two named durations, the only operands of HOLD (R65). -/
inductive Duration where
  | csMin    -- T_CS_MIN
  | resMin   -- T_RES_MIN
deriving DecidableEq, Repr

/-- What an address byte of 32 or more does: the parameter ADDR_POLICY (R7, R96, R97). -/
inductive AddrPolicy where
  | fatal
  | skip
deriving DecidableEq, Repr

/-- Whether earlier pairs of a frame are driven before a later bad pair halts: VALIDATE_MODE (R7, R98). -/
inductive ValidateMode where
  | perPair
  | wholeFrame
deriving DecidableEq, Repr

/-- The options and parameters that a run is made under, each sampled once at start-up and constant for the run
(R6, R7, R148). They stand in State, so that a statement about every state is one about every setting (log 2). -/
structure Params where
  /-- DEBUG (R6): report each raw frame. -/
  debug : Bool
  /-- DISABLE_HW (R6): use the no-op pin interface. -/
  disableHw : Bool
  /-- DEMO_MODE (R6): drive the demonstration sequence instead of the stream. -/
  demoMode : Bool
  /-- HW_AVAILABLE (R7): whether the controller can be opened. -/
  hwAvailable : Bool
  /-- PINFAIL (R7, R69): the numbers, from 1, of the pin writes that fail; none listed is "never" (log 8). -/
  pinFail : List Nat
  /-- What the host may do at any pin event (R142, R148): `some n`, the power is cut or the run is killed when pin event
  number `n` of TRACE, from 1, is due, so that the events before it stand and it does not happen; `none`, the run is not
  cut (log 22). -/
  cutAt : Option Nat
  /-- ADDR_POLICY (R7). -/
  addrPolicy : AddrPolicy
  /-- VALIDATE_MODE (R7). -/
  validateMode : ValidateMode
  /-- BUF_CAP (R7): `none` is unbounded. -/
  bufCap : Option Nat
  /-- DEMO_SEQ (R7): `none` is OPEN, the model is not given it (log 17). -/
  demoSeq : Option (List (Byte × Byte))
  /-- DEMO_REPEAT (R7): `none` is OPEN (log 17). -/
  demoRepeat : Option Bool
  /-- PROGRESS_N (R7): `none` leaves the progress counters out, the default of R107 (log 24). -/
  progressN : Option Nat
deriving DecidableEq, Repr

/-- The defaults of R7 and the option values of 95_test_vectors.md's conventions (log 2). -/
def Params.defaults : Params where
  debug := false
  disableHw := false
  demoMode := false
  hwAvailable := true
  pinFail := []
  cutAt := none
  addrPolicy := .fatal
  validateMode := .perPair
  bufCap := none
  demoSeq := none
  demoRepeat := none
  progressN := none

namespace Config

/-- SENTINEL, the reserved frame-terminator byte (R5). The literals of R5 are taken as given (D34, log 29). -/
def sentinel : Byte := 0xFF

/-- ADDR_BITS, the wired address lines of the chip (R5). -/
abbrev addrBits : Nat := 5

/-- DATA_BITS, the data lines of the chip and the width of `data` (R5). -/
abbrev dataBits : Nat := 8

/-- ADDR_LIMIT: "a register address is valid iff it is `< ADDR_LIMIT`" (R5). -/
def addrLimit : Nat := 32

/-- SHIFT_BITS, the bit slots shifted per register write on each serial line (R5). -/
def shiftBits : Nat := 8

/-- T_CS_MIN in nanoseconds: 2 microseconds (R5). -/
def tCsMin : Nat := 2000

/-- T_RES_MIN in nanoseconds: 1 millisecond (R5). -/
def tResMin : Nat := 1000000

/-- PINMAP, the physical pin of each signal: OPEN, and read by no rule (R7, D27; log 25). -/
opaque pinMap : Signal → Nat

/-- The number behind EXIT_FAIL, OPEN (R7, D16): whether it is negative, and its distance from zero less one (log 15). -/
opaque exitFailOpen : Bool × Nat

/-- EXIT_FAIL, "nonzero integer" (R7, R21): any nonzero integer, and which one is not known. -/
def exitFail : Int :=
  if exitFailOpen.1 then -(Int.ofNat exitFailOpen.2 + 1) else Int.ofNat exitFailOpen.2 + 1

end Config

/-- A valid register address, as wide as the chip has address lines (R5, R53). -/
abbrev Address := BitVec Config.addrBits

/-- A value of a chip register, as wide as the chip has data lines (R5, R53): a byte. -/
abbrev Data := BitVec Config.dataBits

/-- The length of a named duration in nanoseconds (R5). -/
def Duration.ns : Duration → Nat
  | .csMin => Config.tCsMin
  | .resMin => Config.tResMin

/-- T_SHIFT, the record of electrical minimum times of the shift registers, in nanoseconds (R7, R141). -/
structure ShiftTiming where
  clkHigh : Nat
  latchHigh : Nat
  clearLow : Nat
  serialSetup : Nat
  serialHold : Nat
deriving DecidableEq, Repr, Inhabited

namespace Config

/-- T_SHIFT: OPEN, "No rule of this spec depends on them" (R141, D28; log 25). -/
opaque tShift : ShiftTiming

end Config

end Sys2Proof
end

