-- ==== Sys2Proof/Syntax.lean ====
section
/-! DEFINITION. The tokens of the wire format (one constructor per row of the opcode table), the input events, the items of
a decoded frame, and the assembler's lines (30_encoding.md, 10_state.md R25, 43_frame_reader.md R93). -/

namespace Sys2Proof

/-- The instructions: one constructor per row of spec/opcode_table.json. An illegal token keeps its WHOLE address byte,
because "no bits are masked, shifted or sign-extended before the range check" (R56). -/
inductive Instr where
  /-- END: the sentinel at an even frame offset (R54, R88). -/
  | endFrame
  /-- WR with a valid address, its ADDR_BITS wide field, and the data byte (R53, R94). -/
  | wr (addr : Address) (data : Data)
  /-- WR.ILLEGAL.32_63: address byte 0x20 to 0x3F (R57, R96). -/
  | wrIllegal32To63 (addrByte data : Byte)
  /-- WR.ILLEGAL.64_127: address byte 0x40 to 0x7F (R57, R96). -/
  | wrIllegal64To127 (addrByte data : Byte)
  /-- WR.ILLEGAL.128_254: address byte 0x80 to 0xFE (R57, R96). The decoder of a FRAME handed to it by another path
  also gives 0xFF here, since "255 is treated like 32 to 254" (R96, log 20); such a term is not well-formed. -/
  | wrIllegal128To254 (addrByte data : Byte)
deriving DecidableEq, Repr

/-- An input event of the input port (R25). -/
inductive InputEvent where
  | byte (b : Byte)
  | endOfStream
  | ioError
deriving DecidableEq, Repr

/-- An item of a decomposed frame (R93). -/
inductive Item where
  /-- A complete pair: address byte, data byte. -/
  | pair (address data : Byte)
  /-- The trailing single byte of an odd-length frame. -/
  | dangling (b : Byte)
deriving DecidableEq, Repr

/-- A line of the notation that the spec's vectors and programs are written in (R59). -/
inductive AsmLine where
  /-- `WR addr, data`. -/
  | wr (addr data : Byte)
  /-- `END`. -/
  | endFrame
  /-- `.byte b`. -/
  | byte (b : Byte)
  /-- `EOS`. -/
  | eos
  /-- `IOERR`. -/
  | ioErr
deriving DecidableEq, Repr

end Sys2Proof
end

