-- ==== Sys2Proof/Machine/State.lean ====
section
/-! DEFINITION. The state of the block and of the devices on its pins, as plain data (10_state.md), its value at power-on
(R31), and the reasons a step can stop. -/

namespace Sys2Proof.Machine

/-! ### Pins and pin events -/

/-- PINS, the seven driven pins (R9). -/
inductive Pin where
  | addrSer | dataSer | shClk | shLatch | shMrN | csN | resN
deriving DecidableEq, Repr

/-- One value for each driven pin, so that PINMODE and PINLEVEL are plain data (R10, R11). -/
structure PerPin (α : Type) where
  addrSer : α
  dataSer : α
  shClk : α
  shLatch : α
  shMrN : α
  csN : α
  resN : α
deriving DecidableEq, Repr

/-- The values of PINMODE[p] (R10). -/
inductive PinMode where
  | unconfigured
  | output
deriving DecidableEq, Repr

/-- An element of TRACE (R23). -/
inductive PinEvent where
  /-- `Mode(p)`: the pin was configured as an output. -/
  | mode (p : Pin)
  /-- `Write(p, l)`: the level was written to the pin, whether or not it differs from the level it had. -/
  | write (p : Pin) (l : Level)
  /-- `Hold(t)`: at least the duration elapsed; there is no upper bound. -/
  | hold (t : Duration)
deriving DecidableEq, Repr

/-! ### The far side of the pins -/

/-- A shift or output stage: "a vector of 8 bits, each 0, 1 or `Undefined`" (20_memory.md section 2). -/
structure Stage where
  b7 : Wire
  b6 : Wire
  b5 : Wire
  b4 : Wire
  b3 : Wire
  b2 : Wire
  b1 : Wire
  b0 : Wire
deriving DecidableEq, Repr

/-- The chip register space (R33): the cells that hold a byte, addresses strictly rising; an unlisted cell is `Undefined`
(R29, log 7). -/
abbrev Memory := List Host.Cell

/-- Whether the chip's master clock runs (R9, R31, R144; log 14). -/
inductive ClockState where
  | running
  | stopped
deriving DecidableEq, Repr

/-- What has happened while CS_N is Low, as far as R39 asks it when CS_N goes High again. -/
structure SelectWindow where
  /-- A Hold of at least T_CS_MIN lay in the Low time. -/
  held : Bool
  /-- A latch event lay in the Low time. -/
  latched : Bool
  /-- A write of SH_LATCH, RES_N or CS_N lay in it, so that it is not a select pulse. -/
  spoiled : Bool
deriving DecidableEq, Repr

/-- The pins and the devices behind them: a function of the pin events alone (00_scope.md, "Downstream model"). -/
structure Board where
  /-- PINMODE (R10). -/
  pinMode : PerPin PinMode
  /-- PINLEVEL (R11). -/
  pinLevel : PerPin Wire
  /-- ASR, the shift stage of the address shift register (R26). -/
  asr : Stage
  /-- DSR, the shift stage of the data shift register (R26). -/
  dsr : Stage
  /-- AQ, the output stage of the address shift register (R27). -/
  aq : Stage
  /-- DQ, the output stage of the data shift register (R27). -/
  dq : Stage
  /-- CHIP, the 32 registers of the sound chip (R29). -/
  chip : Memory
  /-- CHIP_IN_RESET; `none` is the spec's `Undefined` (R29, R31, R40). -/
  chipInReset : Option Bool
  /-- Whether a Hold of at least T_RES_MIN lay since RES_N went Low (R40). -/
  resetHeld : Bool
  /-- The select pulse in progress, if CS_N is Low (R39). -/
  select : Option SelectWindow
  /-- CHIP_CLK, driven by the external generator (R9, R144). -/
  chipClk : ClockState
deriving DecidableEq, Repr

/-! ### The sequencer -/

/-- STATE, the control state (R15). -/
inductive Ctrl where
  | off
  | accum
  | emit
  | done
  | halt
deriving DecidableEq, Repr

/-- The model's own field: which part of a pass that takes several steps comes next (log 4). -/
inductive Micro where
  /-- The pass has not begun: STARTUP is to run (OFF), or DRAIN's head is to run (EMIT). -/
  | entry
  /-- DEMO is running (OFF) and its write number `k` of DEMO_SEQ comes next (R108). -/
  | demo (k : Nat)
  /-- DRAIN is walking over the items of FRAME (EMIT) (R105). -/
  | walk
deriving DecidableEq, Repr

/-- BACKEND: LIVE or NOOP, and "not yet chosen" before STARTUP (R13, R31). -/
inductive Backend where
  | notYetChosen
  | live
  | noop
deriving DecidableEq, Repr

/-- A fault with its information, as `raise` names it and DIAG records it (R24, R112). -/
inductive Raised where
  | hardwareUnavailable
  | streamIoError
  | danglingByte (b : Byte)
  | addressOutOfRange (address data : Byte) (k : Nat)
  | pinWriteFailure (p : Pin) (l : Level)
  | notInitialized
  | bufferOverflow
deriving DecidableEq, Repr

/-- The fault codes of R112, the values of FAULT (R21). -/
inductive FaultCode where
  | hardwareUnavailable   -- 1
  | streamIoError         -- 2
  | danglingByte          -- 3
  | addressOutOfRange     -- 4
  | pinWriteFailure       -- 5
  | notInitialized        -- 6
  | bufferOverflow        -- 7
deriving DecidableEq, Repr

/-- FINFO, the information recorded with a fault (R21, R112). -/
inductive FaultInfo where
  /-- "no value" (R31). -/
  | noValue
  /-- The fault's row of R112 records none. -/
  | nothing
  | byte (b : Byte)
  | address (address data : Byte) (k : Nat)
  | pin (p : Pin) (l : Level)
deriving DecidableEq, Repr

/-- EXIT: none, 0, or EXIT_FAIL (R21). -/
inductive Exit where
  | none
  | zero
  | exitFail
deriving DecidableEq, Repr

/-- An element of DIAG (R24). -/
inductive DiagEvent where
  /-- One of the seven fault reports. -/
  | fault (r : Raised)
  /-- `FrameDump(bytes)` (R106). -/
  | frameDump (bytes : List Byte)
  /-- `Progress(n)` (R107). -/
  | progress (n : Nat)
deriving DecidableEq, Repr

/-- Everything the spec gives the block and the devices on its pins, with three fields of the model's
own (`pinWrites`, `micro`, `cut`). INVENTORY.md lists each with its rule and its power-on value. -/
structure State where
  /-- The options and parameters of the run (R6, R7); no step changes them (R148). -/
  params : Params
  /-- The pins and the devices behind them. -/
  board : Board
  /-- BACKEND (R13). -/
  backend : Backend
  /-- INITIALIZED (R14). -/
  initialized : Bool
  /-- STATE (R15). -/
  ctrl : Ctrl
  /-- The model's own: which part of DEMO or DRAIN comes next (log 4). -/
  micro : Micro
  /-- BUF (R16). -/
  buf : List Byte
  /-- FRAME (R17). -/
  frame : List Byte
  /-- IDX (R17). -/
  idx : Nat
  /-- A (R18). -/
  a : Byte
  /-- D (R18). -/
  d : Byte
  /-- I (R18). -/
  i : Fin 8
  /-- POS (R19). -/
  pos : Nat
  /-- NFRAMES (R20). -/
  nframes : Nat
  /-- FAULT (R21). -/
  fault : Option FaultCode
  /-- FINFO (R21). -/
  finfo : FaultInfo
  /-- EXIT (R21). -/
  exit : Exit
  /-- TRACE (R23), oldest first. -/
  trace : List PinEvent
  /-- DIAG (R24), oldest first. -/
  diag : List DiagEvent
  /-- The input port: the events delivered and not yet taken, oldest first (R25). -/
  input : List InputEvent
  /-- The model's own: how many PIN_WRITEs were attempted under LIVE, the index PINFAIL is asked with (R69, log 8). -/
  pinWrites : Nat
  /-- The model's own: the host has cut the power or killed the run, at the pin event that `params.cutAt` names (R142, R148,
  log 22). The spec gives this no control state of its own: STATE stays as it was. -/
  cut : Bool
deriving DecidableEq, Repr

/-- How an operation of the block ends: it is complete and the next statement runs; or a fatal fault was taken in it and
"the operation in progress, its callers and the loop are abandoned" (R121), or the run was cut in it (R142). -/
inductive Flow where
  | go (s : State)
  | abandoned (s : State)
deriving DecidableEq, Repr

/-! ### Reasons to stop -/

/-- Why a step stops with a fault of the MODEL. The seven faults of the hardware (R112) are not here: taking one is a
next state (R121). -/
inductive Fault where
  /-- Raised by `step` in DONE and HALT, where "there is no step" (R111, R124). Safe: the block does nothing there (log 6). -/
  | runOver
  /-- Raised by `step` after the run was cut: "nothing more is driven" (93, U16) and "nothing is guaranteed afterwards"
  (R148). Safe: nothing is claimed of what follows (log 22). -/
  | runCut
deriving DecidableEq, Repr

/-- Why a step is refused. -/
inductive Refusal where
  /-- Raised by an arm of `exec` whose instruction has no meaning yet; no arm does. Safe. -/
  | notModelled (mnemonic : String)
  /-- Raised by STARTUP: "A model that is not given `DEMO_SEQ` and `DEMO_REPEAT` must refuse `DEMO_MODE = true`" (R108).
  Safe: no state is answered (log 17). -/
  | demoNotGiven
  /-- Raised by STARTUP when DEMO_SEQ holds an address of 32 or more: "A model should refuse such a call rather than rely
  on the aliasing" (R78, R108). Safe: no state is answered (log 18). -/
  | demoAddressOutOfRange
deriving DecidableEq, Repr

/-! ### Power-on -/

/-- The same value for every pin. -/
def PerPin.all {α : Type} (v : α) : PerPin α := ⟨v, v, v, v, v, v, v⟩

/-- A stage with every bit `Undefined`. -/
def Stage.undefined : Stage := ⟨none, none, none, none, none, none, none, none⟩

/-- The far side of the pins at power-on (R31). -/
def Board.powerOn : Board where
  pinMode := .all .unconfigured
  pinLevel := .all none
  asr := .undefined
  dsr := .undefined
  aq := .undefined
  dq := .undefined
  chip := []
  chipInReset := none
  resetHeld := false
  select := none
  chipClk := .running

/-- Power-on, before STARTUP: the table of R31 row by row. FRAME, IDX, A, D and I are "dead (no value)" there; the values
here are the model's (log 1). The parameters are at their defaults (log 2) and no input event has been delivered (log 3). -/
def State.reset : State where
  params := .defaults
  board := .powerOn
  backend := .notYetChosen
  initialized := false
  ctrl := .off
  micro := .entry
  buf := []
  frame := []
  idx := 0
  a := 0
  d := 0
  i := 0
  pos := 0
  nframes := 0
  fault := none
  finfo := .noValue
  exit := .none
  trace := []
  diag := []
  input := []
  pinWrites := 0
  cut := false

end Sys2Proof.Machine
end

