-- ==== Sys2Proof/Machine/Operands.lean ====
section
/-! DEFINITION. Operand assembly and the reading of bits: BIT and LEVEL (41_bus_driver.md R70, R71), the address operand
(30_encoding.md R56), the per-pin registers, the stages and the chip's bus (10_state.md R26 to R28). -/

namespace Sys2Proof.Machine

/-! ### Bytes -/

/-- BIT(v, i) = (v >> i) & 1, total and pure (R70). -/
def bit (v : Byte) (i : Fin 8) : Bool := v.getLsbD i.val

/-- LEVEL(b): 0 is Low, 1 is High (R8, R71). -/
def levelOf (b : Bool) : Level := if b then .high else .low

/-- A level as a bit (R8). -/
def levelBit : Level → Bool
  | .low => false
  | .high => true

/-- A valid address as it reaches the Bus Driver: zext_8(addr), bits 7:5 zero (R56). -/
def addressOperand (addr : Address) : Byte := addr.setWidth 8

/-- Whether an address byte, taken as a whole, is below ADDR_LIMIT (R56, R96). -/
def addressValid (address : Byte) : Bool := decide (address.toNat < Config.addrLimit)

/-! ### Registers indexed by pin -/

/-- PINMODE[p] and PINLEVEL[p], the read. -/
def PerPin.get {α : Type} (m : PerPin α) : Pin → α
  | .addrSer => m.addrSer
  | .dataSer => m.dataSer
  | .shClk => m.shClk
  | .shLatch => m.shLatch
  | .shMrN => m.shMrN
  | .csN => m.csN
  | .resN => m.resN

/-- PINMODE[p] <- v and PINLEVEL[p] <- v. -/
def PerPin.set {α : Type} (m : PerPin α) (p : Pin) (v : α) : PerPin α :=
  match p with
  | .addrSer => { m with addrSer := v }
  | .dataSer => { m with dataSer := v }
  | .shClk => { m with shClk := v }
  | .shLatch => { m with shLatch := v }
  | .shMrN => { m with shMrN := v }
  | .csN => { m with csN := v }
  | .resN => { m with resN := v }

/-- The signal a driven pin carries (R9). -/
def Pin.signal : Pin → Signal
  | .addrSer => .addrSer
  | .dataSer => .dataSer
  | .shClk => .shClk
  | .shLatch => .shLatch
  | .shMrN => .shMrN
  | .csN => .csN
  | .resN => .resN

/-- The physical pin a driven pin is wired to, from the OPEN parameter PINMAP (R7, R9). For an observer: no rule of the
block reads it. -/
def Pin.physical (p : Pin) : Nat := Config.pinMap p.signal

/-! ### Stages and the chip's bus -/

/-- The stage that holds a byte: bit k of the stage is bit k of the byte (R41). -/
def Stage.ofByte (v : Byte) : Stage where
  b7 := some (levelOf (bit v 7))
  b6 := some (levelOf (bit v 6))
  b5 := some (levelOf (bit v 5))
  b4 := some (levelOf (bit v 4))
  b3 := some (levelOf (bit v 3))
  b2 := some (levelOf (bit v 2))
  b1 := some (levelOf (bit v 1))
  b0 := some (levelOf (bit v 0))

/-- One shift by one place: position 0 takes the serial pin and the old bit 7 is discarded (R36). -/
def Stage.shift (st : Stage) (serial : Wire) : Stage :=
  ⟨st.b6, st.b5, st.b4, st.b3, st.b2, st.b1, st.b0, serial⟩

/-- A wire as 0 or 1, `none` where it is `Undefined`. -/
def wireNat : Wire → Option Nat
  | none => none
  | some .low => some 0
  | some .high => some 1

/-- The number on wires listed from the high bit to the low, `none` if one of them is `Undefined`; `acc` is the number on
the wires before them. -/
def wiresNat : Nat → List Wire → Option Nat
  | acc, [] => some acc
  | acc, w :: ws =>
    match wireNat w with
    | none => none
    | some n => wiresNat (2 * acc + n) ws

/-- The `n` low bits of a stage, the high one first. -/
def Stage.lowWires (st : Stage) (n : Nat) : List Wire :=
  [st.b7, st.b6, st.b5, st.b4, st.b3, st.b2, st.b1, st.b0].drop (Config.shiftBits - n)

/-- ABUS, the chip's address bus, is AQ[4:0], ADDR_BITS lines; AQ[7:5] reach nothing (R28). -/
def abus (aq : Stage) : Option Nat := wiresNat 0 (aq.lowWires Config.addrBits)

/-- DBUS, the chip's data bus, is DQ[7:0], DATA_BITS lines (R28): a value when all its bits are defined. -/
def dbus (dq : Stage) : Option Data := (wiresNat 0 (dq.lowWires Config.dataBits)).map (BitVec.ofNat Config.dataBits)

/-! ### Faults -/

/-- The code of a fault (R112). -/
def Raised.code : Raised → FaultCode
  | .hardwareUnavailable => .hardwareUnavailable
  | .streamIoError => .streamIoError
  | .danglingByte _ => .danglingByte
  | .addressOutOfRange _ _ _ => .addressOutOfRange
  | .pinWriteFailure _ _ => .pinWriteFailure
  | .notInitialized => .notInitialized
  | .bufferOverflow => .bufferOverflow

/-- The information recorded in FINFO, the "info" column of R112. -/
def Raised.info : Raised → FaultInfo
  | .hardwareUnavailable => .nothing
  | .streamIoError => .nothing
  | .danglingByte b => .byte b
  | .addressOutOfRange a d k => .address a d k
  | .pinWriteFailure p l => .pin p l
  | .notInitialized => .nothing
  | .bufferOverflow => .nothing

/-- The numeric code of R112. -/
def FaultCode.number : FaultCode → Nat
  | .hardwareUnavailable => 1
  | .streamIoError => 2
  | .danglingByte => 3
  | .addressOutOfRange => 4
  | .pinWriteFailure => 5
  | .notInitialized => 6
  | .bufferOverflow => 7

/-- The "severity" column of R112: DanglingByte is recoverable, AddressOutOfRange under `ADDR_POLICY = skip` too, every
other fault is fatal. -/
def Raised.fatal (r : Raised) (policy : AddrPolicy) : Bool :=
  match r with
  | .hardwareUnavailable => true
  | .streamIoError => true
  | .danglingByte _ => false
  | .addressOutOfRange _ _ _ => decide (policy = .fatal)
  | .pinWriteFailure _ _ => true
  | .notInitialized => true
  | .bufferOverflow => true

/-- The process's exit status as a number, for an observer (R21): EXIT_FAIL is some nonzero integer (log 15). -/
def Exit.number : Exit → Option Int
  | .none => Option.none
  | .zero => some 0
  | .exitFail => some Config.exitFail

end Sys2Proof.Machine
end

