-- ==== Sys2Proof/Machine/Board.lean ====
section
/-! DEFINITION. The chip register space, and how the devices on the pins react to one pin event (20_memory.md R33 to R40):
the downstream reference model, a function of the trace. -/

namespace Sys2Proof.Machine

/-! ### The chip register space (R33) -/

/-- The read of one cell, for an observer and for claims: the block has no MemRead (R35). An unlisted cell is
`Undefined` (R29, log 7). -/
def Memory.read : Memory → Nat → Option Byte
  | [], _ => none
  | (k, v) :: m, a => if a = k then some v else Memory.read m a

/-- `CHIP[a] <- v`. The list stays sorted. -/
def Memory.write : Memory → Nat → Byte → Memory
  | [], a, v => [(a, v)]
  | (k, w) :: m, a, v =>
    if a < k then (a, v) :: (k, w) :: m
    else if a = k then (a, v) :: m
    else (k, w) :: Memory.write m a v

/-- `CHIP[a] <- Undefined`: the cell is not listed. -/
def Memory.erase : Memory → Nat → Memory
  | [], _ => []
  | (k, w) :: m, a => if a = k then Memory.erase m a else (k, w) :: Memory.erase m a

/-- Addresses strictly rising from `lo`, all below ADDR_LIMIT (R33). -/
def Memory.sortedFrom : Nat → Memory → Bool
  | _, [] => true
  | lo, (k, _) :: m => decide (lo ≤ k ∧ k < Config.addrLimit) && Memory.sortedFrom (k + 1) m

/-- The canonical form: strictly rising addresses of the chip register space. A listed cell holds a byte and an unlisted one
is `Undefined`, so no entry equals what an unlisted address reads as. -/
def Memory.wf (m : Memory) : Bool := Memory.sortedFrom 0 m

/-! ### Reactions -/

/-- `CHIP[a] <- Undefined` for every a. -/
def Board.forgetChip (b : Board) : Board := { b with chip := [] }

/-- Both shift stages shift by one place, each taking its own serial pin (R36). -/
def Board.shiftStages (b : Board) : Board :=
  { b with asr := b.asr.shift b.pinLevel.addrSer, dsr := b.dsr.shift b.pinLevel.dataSer }

/-- Every bit of ASR and DSR becomes `Undefined` (R36). -/
def Board.forgetStages (b : Board) : Board := { b with asr := .undefined, dsr := .undefined }

/-- A write of SH_CLK (R36, R37). With SH_MR_N Low the stages do not change. A rising write while SH_MR_N is `Undefined`
may shift or not: every bit becomes `Undefined` (log 10). -/
def Board.writeShClk (b : Board) (l : Level) : Board :=
  match l, b.pinLevel.shClk with
  | .high, some .low =>
    match b.pinLevel.shMrN with
    | some .high => b.shiftStages
    | some .low => b
    | none => b.forgetStages
  | .high, none =>
    match b.pinLevel.shMrN with
    | some .low => b
    | _ => b.forgetStages
  | .high, some .high => b
  | .low, _ => b

/-- A write of SH_MR_N: Low clears both shift stages "whatever the previous level" and leaves the outputs (R37). -/
def Board.writeShMrN (b : Board) (l : Level) : Board :=
  match l with
  | .low => { b with asr := Stage.ofByte 0, dsr := Stage.ofByte 0 }
  | .high => b

/-- A write lay in the Low time of CS_N that no select pulse contains (R39). -/
def Board.spoilSelect (b : Board) : Board :=
  { b with select := b.select.map (fun w => { w with spoiled := true }) }

/-- A latch event lay in the Low time of CS_N (R39). -/
def Board.latchInSelect (b : Board) : Board :=
  { b with select := b.select.map (fun w => { w with latched := true }) }

/-- A write of SH_LATCH (R38): a rising write copies both stages at one instant; from `Undefined` to High may or may not be
an edge, and every output bit becomes `Undefined`. Any write of it keeps a Low time from being a select pulse (R39). -/
def Board.writeShLatch (b : Board) (l : Level) : Board :=
  match l, b.pinLevel.shLatch with
  | .high, some .low => { b with aq := b.asr, dq := b.dsr }.latchInSelect.spoilSelect
  | .high, none => { b with aq := .undefined, dq := .undefined }.latchInSelect.spoilSelect
  | .high, some .high => b.spoilSelect
  | .low, _ => b.spoilSelect

/-- The addressed cell is in doubt while CS_N is Low: `CHIP[AQ[4:0]]` becomes `Undefined`, every cell if a bit of AQ[4:0]
is; nothing while CHIP_IN_RESET is true or `Undefined` (R39). -/
def Board.doubtCell (b : Board) : Board :=
  if b.chipInReset = some false then
    match abus b.aq with
    | some k => { b with chip := Memory.erase b.chip k }
    | none => b.forgetChip
  else b

/-- The chip takes the bus: `CHIP[AQ[4:0]] <- DQ[7:0]`, with the corner cases of R39 for `Undefined` bits. -/
def Board.takeWrite (b : Board) : Board :=
  match abus b.aq, dbus b.dq with
  | some k, some v => { b with chip := Memory.write b.chip k v }
  | some k, none => { b with chip := Memory.erase b.chip k }
  | none, _ => b.forgetChip

/-- `Write(CS_N, High)` when CS_N was Low (R39). With the chip not in reset: a Low time with no long enough Hold, or with
a latch event, leaves every cell `Undefined`; a select pulse writes one cell; any other Low time writes nothing, and the
cell that its opening put in doubt stays `Undefined` (log 11). With CHIP_IN_RESET true or `Undefined` nothing is
written (log 13). -/
def Board.closeSelect (b : Board) : Board :=
  if b.chipInReset = some false then
    match b.select with
    | none => b.forgetChip
    | some w =>
      if w.latched || !w.held then b.forgetChip
      else if w.spoiled then b
      else b.takeWrite
  else b

/-- The downstream rules R39 and R40 hold only while the chip's clock runs; else every cell is `Undefined` (R144, U19,
log 14). -/
def Board.needClock (b : Board) : Board :=
  match b.chipClk with
  | .running => b
  | .stopped => b.forgetChip

/-- A write of CS_N (R39). Low opens a Low time unless CS_N is Low already; High closes it; from `Undefined` to High with
the chip not known to be in reset, every cell becomes `Undefined` (log 13). -/
def Board.writeCsN (b : Board) (l : Level) : Board :=
  match l, b.pinLevel.csN with
  | .low, some .low => b.spoilSelect
  | .low, _ => { b.doubtCell with select := some ⟨false, false, false⟩ }.needClock
  | .high, some .low => { b.closeSelect with select := none }.needClock
  | .high, none =>
    if b.chipInReset = some true then { b with select := none }
    else { b.forgetChip with select := none }
  | .high, some .high => b

/-- A write of RES_N (R40). Low puts the chip in reset and makes every cell `Undefined`; High ends the reset, and if no
Hold of at least T_RES_MIN lay between, "the chip's state is not guaranteed": CHIP_IN_RESET is `Undefined` (U13, log 12). -/
def Board.writeResN (b : Board) (l : Level) : Board :=
  match l, b.pinLevel.resN with
  | .low, some .low => b.spoilSelect
  | .low, _ => { b.forgetChip with chipInReset := some true, resetHeld := false }.spoilSelect
  | .high, some .high => b.spoilSelect
  | .high, some .low =>
    if b.resetHeld then { b with chipInReset := some false, resetHeld := false }.spoilSelect.needClock
    else { b.forgetChip with chipInReset := none, resetHeld := false }.spoilSelect
  | .high, none => { b.forgetChip with chipInReset := none, resetHeld := false }.spoilSelect

/-- The reaction of the devices to a write of a pin, with the previous level still in PINLEVEL (20_memory.md section 2). -/
def Board.reactWrite (b : Board) (p : Pin) (l : Level) : Board :=
  match p with
  | .addrSer => b
  | .dataSer => b
  | .shClk => b.writeShClk l
  | .shLatch => b.writeShLatch l
  | .shMrN => b.writeShMrN l
  | .csN => b.writeCsN l
  | .resN => b.writeResN l

/-- `PINLEVEL[p] <- l` (R64). -/
def Board.setLevel (b : Board) (p : Pin) (l : Level) : Board :=
  { b with pinLevel := b.pinLevel.set p (some l) }

/-- `PINMODE[p] <- Output` (R63). -/
def Board.setOutput (b : Board) (p : Pin) : Board :=
  { b with pinMode := b.pinMode.set p .output }

/-- A Hold lies in the Low time of CS_N if it is open (R39), and in the reset pulse if RES_N is Low (R40). -/
def Board.holdFor (b : Board) (t : Duration) : Board :=
  { b with
    select := b.select.map (fun w => { w with held := w.held || decide (Config.tCsMin ≤ t.ns) })
    resetHeld := b.resetHeld || (decide (b.pinLevel.resN = some .low) && decide (Config.tResMin ≤ t.ns)) }

/-- What one pin event does to the pins and to the devices behind them. -/
def Board.react (b : Board) (e : PinEvent) : Board :=
  match e with
  | .mode p => b.setOutput p
  | .write p l => (b.reactWrite p l).setLevel p l
  | .hold t => b.holdFor t

/-- The far side of the pins after a list of pin events (00_scope.md, "Downstream model"; R123: the state is "exactly the
state produced by the events already in `TRACE`"). -/
def Board.replay (b : Board) (events : List PinEvent) : Board := events.foldl Board.react b

end Sys2Proof.Machine
end

