-- ==== Sys2Proof/Machine/Flags.lean ====
section
/-! DEFINITION. The conditions of 10_state.md R22: "The block has no condition-code register. It has one derived condition and
two status flags, all functions of other state". -/

namespace Sys2Proof.Machine

/-- PARITY = len(BUF) mod 2: 0 when the next byte is at an address offset, 1 when it is at a data offset (R22). -/
def State.parity (s : State) : Nat := s.buf.length % 2

/-- halted = (STATE = HALT) (R22). -/
def State.halted (s : State) : Bool := decide (s.ctrl = .halt)

/-- done = (STATE = DONE) (R22). -/
def State.done (s : State) : Bool := decide (s.ctrl = .done)

/-- A run has ended when STATE = DONE or STATE = HALT (R135). -/
def State.ended (s : State) : Bool := s.done || s.halted

end Sys2Proof.Machine
end

