-- ==== Sys2Proof/Machine/Ops.lean ====
section
/-! DEFINITION. The shared operations: the channels, taking a fault (60_exceptions.md R121), and the three primitives of the Pin
Interface (40_pin_interface.md R63 to R65) with the sequencing of R68, and the end of a run that is cut (R142). -/

namespace Sys2Proof.Machine

/-! ### Sequencing -/

/-- `call OP(args)` then the next statement: it is not reached when OP was abandoned in a fatal fault (R121) or
the run was cut in it (R142). -/
def Flow.andThen (f : Flow) (next : State → Flow) : Flow :=
  match f with
  | .go s => next s
  | .abandoned s => .abandoned s

/-- The state an operation leaves, complete or abandoned. -/
def Flow.state : Flow → State
  | .go s => s
  | .abandoned s => s

/-- The outcome of a step that consists of an operation: a fatal fault of the hardware is a next state, STATE = HALT. -/
def Flow.outcome (f : Flow) : Host.Outcome State Fault Refusal := .next f.state

/-! ### Diagnostics and taking a fault -/

/-- `report e`: appended to DIAG and to nothing else (R24). -/
def report (e : DiagEvent) (s : State) : State := { s with diag := s.diag ++ [e] }

/-- `raise F(info)`: fault entry, the one way a fault is taken (R121). A fatal fault is reported, recorded in FAULT and
FINFO, and ends the run; no pin is written and nothing is saved. The recoverable ones are only reported, and execution goes
on with the next statement: that is all the return there is (R124, R125). -/
def raise (r : Raised) (s : State) : Flow :=
  if r.fatal s.params.addrPolicy then
    .abandoned
      { report (.fault r) s with
        fault := some r.code
        finfo := r.info
        exit := .exitFail
        ctrl := .halt }
  else .go (report (.fault r) s)

/-! ### The Pin Interface -/

/-- `emit e` with its effect on the pins and on the devices behind them (R23, R64). -/
def emit (e : PinEvent) (s : State) : State :=
  { s with trace := s.trace ++ [e], board := s.board.react e }

/-- SET_MODE(p) (R63). Under NOOP, and before a backend is chosen, there is no effect (log 9). -/
def setMode (p : Pin) (s : State) : Flow :=
  match s.backend with
  | .live => .go (emit (.mode p) s)
  | .noop => .go s
  | .notYetChosen => .go s

/-- PIN_WRITE(p, l) (R64, R69). PINFAIL is asked with the number of this write (log 8); a failed write "changes no pin level
and emits no `Write` event". Before a backend is chosen no pin is an output: NotInitialized (R118, log 9). -/
def pinWrite (p : Pin) (l : Level) (s : State) : Flow :=
  match s.backend with
  | .live =>
    if s.board.pinMode.get p = .output then
      if s.pinWrites + 1 ∈ s.params.pinFail then
        raise (.pinWriteFailure p l) { s with pinWrites := s.pinWrites + 1 }
      else .go (emit (.write p l) { s with pinWrites := s.pinWrites + 1 })
    else raise .notInitialized s
  | .noop => .go s
  | .notYetChosen => raise .notInitialized s

/-- HOLD(t): at least the duration passes, "performed, and its `Hold(t)` recorded, under both backends" (R65). Only under
LIVE is anything on the pins for it to lie in (R66, log 26). -/
def hold (t : Duration) (s : State) : Flow :=
  match s.backend with
  | .live => .go (emit (.hold t) s)
  | .noop => .go { s with trace := s.trace ++ [.hold t] }
  | .notYetChosen => .go { s with trace := s.trace ++ [.hold t] }

/-- The primitive that a pin event is the record of. -/
def primitive (e : PinEvent) (s : State) : Flow :=
  match e with
  | .mode p => setMode p s
  | .write p l => pinWrite p l s
  | .hold t => hold t s

/-- Whether a backend records a primitive in TRACE: LIVE every one, another only a HOLD (R23, R66). -/
def recordedUnder (b : Backend) (e : PinEvent) : Bool :=
  match e with
  | .mode _ => decide (b = .live)
  | .write _ _ => decide (b = .live)
  | .hold _ => true

/-- Whether the run is cut at the pin event that this primitive is about to make (R142, R148, log 22). -/
def cutDue (e : PinEvent) (s : State) : Bool :=
  recordedUnder s.backend e && decide (s.params.cutAt = some (s.trace.length + 1))

/-- The power is cut or the run is killed here: the events so far stand, nothing is written and nothing is reported
(R142, U16). -/
def cutRun (s : State) : State := { s with cut := true }

/-- One primitive, unless the run is cut at its event. -/
def perform (e : PinEvent) (s : State) : Flow := if cutDue e s then .abandoned (cutRun s) else primitive e s

/-- Primitives one after another, each complete before the next begins (R68). -/
def drive : List PinEvent → State → Flow
  | [], s => .go s
  | e :: es, s => (perform e s).andThen (drive es)

end Sys2Proof.Machine
end

