-- ==== Sys2Proof/Machine/BusDriver.lean ====
section
/-! DEFINITION. The Bus Driver: SHIFT_BIT, LATCH_PULSE, CS_PULSE and WRITE_REGISTER (41_bus_driver.md R72 to R75). -/

namespace Sys2Proof.Machine

/-- The primitives of one bit slot: both serial pins, the address first (D4), then one pulse of the shared clock (R72). -/
def slotEvents (a d : Byte) (i : Fin 8) : List PinEvent :=
  [ .write .addrSer (levelOf (bit a i)),
    .write .dataSer (levelOf (bit d i)),
    .write .shClk .high,
    .write .shClk .low ]

/-- SHIFT_BIT(a, d, i) (R72). -/
def shiftBit (a d : Byte) (i : Fin 8) (s : State) : Flow := drive (slotEvents a d i) s

/-- The bit slots for I = n - 1 downto 0, with the operands in A and D and the index in I (R75 step 1). -/
def shiftSlots : Nat → State → Flow
  | 0, s => .go s
  | n + 1, s =>
    let s' := { s with i := Fin.ofNat 8 n }
    (shiftBit s'.a s'.d s'.i s').andThen (shiftSlots n)

/-- LATCH_PULSE() (R73). -/
def latchPulse (s : State) : Flow := drive [.write .shLatch .high, .write .shLatch .low] s

/-- CS_PULSE() (R74). -/
def csPulse (s : State) : Flow :=
  drive [.write .csN .low, .hold .csMin, .write .csN .high] s

/-- WRITE_REGISTER(a, d), which MemWrite(a, 1, d) is (R34, R75): the precondition INITIALIZED (R118), then the eight bit
slots "most-significant first", the latch pulse and the select pulse. It does not check its address (R78, log 18). -/
def writeRegister (a d : Byte) (s : State) : Flow :=
  if s.initialized then
    ((shiftSlots Config.shiftBits { s with a := a, d := d }).andThen latchPulse).andThen csPulse
  else raise .notInitialized s

end Sys2Proof.Machine
end

