-- ==== Sys2Proof/Machine/Decoder.lean ====
section
/-! DEFINITION. The decoder's meanings: the WR token, its illegal forms and the dangling byte (43_frame_reader.md section 2). -/

namespace Sys2Proof.Machine

/-- `IDX <- IDX + 2`, after an item of the frame (R105). -/
def nextItem (s : State) : Flow := .go { s with idx := s.idx + 2 }

/-- The index of the pair being handled in its frame (R96). -/
def pairIndex (s : State) : Nat := s.idx / 2

/-- A pair whose address is out of range: AddressOutOfRange(a, d, k). Under `fatal` the run halts; under `skip` it is only
reported and the next item follows. WRITE_REGISTER is not called (R96, R97). -/
def illegalPair (a d : Byte) (s : State) : Flow :=
  (raise (.addressOutOfRange a d (pairIndex s)) s).andThen nextItem

/-- A dangling byte is reported, not range-checked, and the walk goes on (R95). -/
def danglingByte (b : Byte) (s : State) : Flow := (raise (.danglingByte b) s).andThen nextItem

/-- WR with a valid address: WRITE_REGISTER(zext_8(addr), data), then the next item (R94, R56). -/
def execWr (addr : Address) (data : Data) (s : State) : Host.Outcome State Fault Refusal :=
  ((writeRegister (addressOperand addr) data s).andThen nextItem).outcome

/-- WR.ILLEGAL.32_63 (R96, R97). -/
def execWrIllegal32To63 (a d : Byte) (s : State) : Host.Outcome State Fault Refusal := (illegalPair a d s).outcome

/-- WR.ILLEGAL.64_127 (R96, R97). -/
def execWrIllegal64To127 (a d : Byte) (s : State) : Host.Outcome State Fault Refusal := (illegalPair a d s).outcome

/-- WR.ILLEGAL.128_254 (R96, R97). -/
def execWrIllegal128To254 (a d : Byte) (s : State) : Host.Outcome State Fault Refusal := (illegalPair a d s).outcome

end Sys2Proof.Machine
end

