-- ==== Sys2Proof/Machine/Lifecycle.lean ====
section
/-! DEFINITION. The Chip Lifecycle: RESET and INITIALIZE (42_chip_lifecycle.md R80 to R85). -/

namespace Sys2Proof.Machine

/-- The primitives of RESET(), in order (R80). -/
def resetEvents : List PinEvent :=
  [.write .resN .low, .hold .resMin, .write .resN .high, .write .csN .high]

/-- RESET() as an operation taken by itself: while INITIALIZED is false it is NotInitialized (R82, R118). Nothing in the
stream invokes it. -/
def resetChip (s : State) : Flow :=
  if s.initialized then drive resetEvents s else raise .notInitialized s

/-- The pins INITIALIZE configures, in the listing order of the source (R81, D5). -/
def configuredPins : List Pin := [.addrSer, .dataSer, .shClk, .shLatch, .shMrN, .csN, .resN]

/-- The primitives of INITIALIZE() after the seven SET_MODEs and RESET() (R81). -/
def clearEvents : List PinEvent :=
  [.write .shMrN .low, .write .shClk .low, .write .shLatch .low, .write .shMrN .high]

/-- INITIALIZE() (R81). Repeating it runs the same primitives again (R83). -/
def initializeBlock (s : State) : Flow :=
  (((drive (configuredPins.map .mode) s).andThen (drive resetEvents)).andThen (drive clearEvents)).andThen
    (fun t => .go { t with initialized := true })

end Sys2Proof.Machine
end

