-- ==== Sys2Proof/WellFormed.lean ====
section
/-! DEFINITION. Which terms of `Instr` stand for an encoding of the opcode table (30_encoding.md R53 to R57). -/

namespace Sys2Proof

/-- The operand ranges of the table's rows. END has no operand and WR's fields admit every value (R53, R54); the address
bytes of the illegal rows begin at ADDR_LIMIT, are split at 64 and 128, and are never 0xFF, which at an even offset is END
(R57). -/
def Instr.wf : Instr → Bool
  | .endFrame => true
  | .wr _ _ => true
  | .wrIllegal32To63 a _ => decide (Config.addrLimit ≤ a.toNat ∧ a.toNat < 64)
  | .wrIllegal64To127 a _ => decide (64 ≤ a.toNat ∧ a.toNat < 128)
  | .wrIllegal128To254 a _ => decide (128 ≤ a.toNat ∧ a ≠ Config.sentinel)

end Sys2Proof
end

