-- ==== Sys2Proof/Decode.lean ====
section
/-! DEFINITION. The decoder, total on any bytes and rejecting by name, and after it the encoder and the assembler
(30_encoding.md, 43_frame_reader.md section 2). -/

namespace Sys2Proof

/-- Why bytes standing at an even frame offset are not a complete token (R51, R52). -/
inductive DecodeReject where
  /-- There is no byte. -/
  | noByte
  /-- An address byte whose data byte is not there yet: it opens a two-byte token. -/
  | dataByteMissing (address : Byte)
deriving DecidableEq, Repr

/-- What the token decoder answers: the token and the bytes after it, or a rejection by name. -/
inductive Decoded where
  | token (i : Instr) (rest : List Byte)
  | reject (why : DecodeReject)
deriving DecidableEq, Repr

/-- The token of a complete pair of bytes whose first is not an END (R52, R53, R57): "The address operand is the address
byte taken as an unsigned 8-bit number" (R56). -/
def decodePair (address data : Byte) : Instr :=
  if address.toNat < Config.addrLimit then .wr (address.setWidth Config.addrBits) data
  else if address.toNat < 64 then .wrIllegal32To63 address data
  else if address.toNat < 128 then .wrIllegal64To127 address data
  else .wrIllegal128To254 address data

/-- The token that bytes standing at an even frame offset begin with; END is tested before any pair (R52, R122). -/
def decodeToken : List Byte → Decoded
  | [] => .reject .noByte
  | b :: rest =>
    if b = Config.sentinel then .token .endFrame rest
    else
      match rest with
      | [] => .reject (.dataByteMissing b)
      | d :: rest' => .token (decodePair b d) rest'

/-- What the byte `b` arriving at frame offset `n` completes for the READER: an END, or nothing yet (R52, R87). At an odd
offset every value, 0xFF too, is data (R89). -/
def decodeArriving (n : Nat) (b : Byte) : Option Instr :=
  if n % 2 = 0 then
    match decodeToken [b] with
    | .token i _ => some i
    | .reject _ => none
  else none

/-- DECOMPOSE(FRAME): "walk the frame two bytes at a time" (R93). -/
def decompose : List Byte → List Item
  | [] => []
  | [b] => [.dangling b]
  | a :: d :: rest => .pair a d :: decompose rest

/-- The first pair whose address is out of range among items whose first pair has index `k` (R98, R105). -/
def firstIllegal : Nat → List Item → Option (Byte × Byte × Nat)
  | _, [] => none
  | k, .pair a d :: rest => if a.toNat < Config.addrLimit then firstIllegal (k + 1) rest else some (a, d, k)
  | k, .dangling _ :: rest => firstIllegal (k + 1) rest

/-- The framing of a stream's bytes as a function of the bytes alone (R52, R55): the bodies of the frames that end, and the
tail after the last END, when `buf` holds the bytes since the last END. -/
def splitFrames : List Byte → List Byte → List (List Byte) × List Byte
  | buf, [] => ([], buf)
  | buf, b :: bs =>
    if b = Config.sentinel ∧ buf.length % 2 = 0 then
      ((buf :: (splitFrames [] bs).1), (splitFrames [] bs).2)
    else splitFrames (buf ++ [b]) bs

/-- The bytes of a row of the opcode table numbered as the table numbers its bits: the row is ONE word, its first byte on
the wire in the high bits ("the 16-bit word is {byte0, byte1}, byte0 first on the wire"; log 21). Operand bytes beyond
the row's bits are 0. -/
def tableBytes (nbits w : Nat) : List Byte :=
  (List.range (nbits / 8)).map (fun k => BitVec.ofNat 8 (w / 2 ^ (8 * (nbits / 8 - 1 - k)))) ++ [0#8]

/-- The instruction the decoder reads from a word of the opcode table. -/
def decodeTableWord (nbits w : Nat) : Option Instr :=
  match decodeToken (tableBytes nbits w) with
  | .token i _ => some i
  | .reject _ => none

/-! ### The encoder -/

/-- The bytes of a token in the order of the wire (R53, R54, R56). -/
def encode : Instr → List Byte
  | .endFrame => [Config.sentinel]
  | .wr addr data => [addr.setWidth 8, data]
  | .wrIllegal32To63 a data => [a, data]
  | .wrIllegal64To127 a data => [a, data]
  | .wrIllegal128To254 a data => [a, data]

/-- The body of the frame that carries a sequence of register writes (R61). -/
def encodeBody (writes : List (Address × Data)) : List Byte :=
  writes.flatMap (fun w => encode (.wr w.1 w.2))

/-- A sequence of register writes as one frame on the wire, its END appended (R61, R100). -/
def encodeFrame (writes : List (Address × Data)) : List Byte :=
  encodeBody writes ++ encode .endFrame

/-- The assembler: the input events of one line (R59). "`WR 255, d` is refused by the assembler because its first byte
would be an `END`"; there are no pseudo-instructions (R60). -/
def assembleLine : AsmLine → Option (List InputEvent)
  | .wr addr data => if addr = Config.sentinel then none else some [.byte addr, .byte data]
  | .endFrame => some [.byte Config.sentinel]
  | .byte b => some [.byte b]
  | .eos => some [.endOfStream]
  | .ioErr => some [.ioError]

/-- The input events of a text, none where a line is refused (R59). -/
def assemble : List AsmLine → Option (List InputEvent)
  | [] => some []
  | l :: ls =>
    match assembleLine l, assemble ls with
    | some es, some rest => some (es ++ rest)
    | _, _ => none

end Sys2Proof
end

