-- ==== Sys2Proof/Machine/Reader.lean ====
section
/-! DEFINITION. The Frame Reader: ACCEPT_BYTE, the END token, END_OF_STREAM and IO_ERROR (43_frame_reader.md section 1). -/

namespace Sys2Proof.Machine

/-- The event at the input port is taken, and is offered no second time (R25). -/
def takeEvent (s : State) : State := { s with input := s.input.drop 1 }

/-- A `Byte` event is taken: `POS <- POS + 1` (R19, R87). -/
def takeByte (s : State) : State := { takeEvent s with pos := s.pos + 1 }

/-- The transition to EMIT (R87, the `if` branch): the accumulated bytes become the frame, the sentinel stripped. -/
def emitFrame (s : State) : State :=
  { s with
    frame := s.buf
    buf := []
    idx := 0
    nframes := s.nframes + 1
    ctrl := .emit
    micro := .entry }

/-- Whether BUF has no room for another byte (R102). -/
def bufFull (s : State) : Bool := decide (s.params.bufCap = some s.buf.length)

/-- A byte that does not end a frame (R87, the `else` branch). -/
def appendByte (b : Byte) (s : State) : Flow :=
  if bufFull s then raise .bufferOverflow s else .go { s with buf := s.buf ++ [b], ctrl := .accum }

/-- ACCEPT_BYTE(b) for a byte that is no END token: the byte is consumed and accumulated (R87, R89, R102). -/
def acceptByte (b : Byte) (s : State) : Flow := appendByte b (takeByte s)

/-- END_OF_STREAM: the partial frame is discarded without a report and the run ends with exit status 0 (R90, R109). -/
def endOfStream (s : State) : State :=
  { takeEvent s with buf := [], exit := .zero, ctrl := .done }

/-- IO_ERROR: the partial frame is discarded and StreamIoError is taken (R91, R114). -/
def ioError (s : State) : Flow := raise .streamIoError { takeEvent s with buf := [] }

/-- END: ACCEPT_BYTE(0xFF) at an even frame offset (R87, R88). It takes its byte and releases the frame; it writes no pin. -/
def execEndFrame (s : State) : Host.Outcome State Fault Refusal := .next (emitFrame (takeByte s))

end Sys2Proof.Machine
end

