-- ==== Sys2Proof/Machine/Orchestrator.lean ====
section
/-! DEFINITION. The Orchestrator: STARTUP, the demonstration path, and the head and the end of DRAIN (44_orchestrator.md). -/

namespace Sys2Proof.Machine

/-! ### STARTUP (R103) -/

/-- Backend selection (R67): DISABLE_HW wins, whether or not the hardware is there (C4, D22). -/
def selectBackend (s : State) : Flow :=
  if s.params.disableHw then .go { s with backend := .noop }
  else if s.params.hwAvailable then .go { s with backend := .live }
  else raise .hardwareUnavailable s

/-- What follows INITIALIZE: the demonstration path, STATE still OFF (R15, R108), or the loop. -/
def enterLoop (s : State) : Flow :=
  if s.params.demoMode then .go { s with micro := .demo 0 } else .go { s with ctrl := .accum }

/-- STARTUP's statements, in order (R103, R134). -/
def startupFlow (s : State) : Flow := ((selectBackend s).andThen initializeBlock).andThen enterLoop

/-- Whether every address of a demonstration sequence is below ADDR_LIMIT, as R108 requires. -/
def demoAddressesValid (seq : List (Byte × Byte)) : Bool := seq.all (fun w => addressValid w.1)

/-- STARTUP() (R103). `DEMO_MODE = true` is refused without DEMO_SEQ and DEMO_REPEAT, or with an address of 32 or more in
DEMO_SEQ (R108, R78; log 17, log 18). -/
def startup (s : State) : Host.Outcome State Fault Refusal :=
  if s.params.demoMode then
    match s.params.demoSeq, s.params.demoRepeat with
    | some seq, some _ =>
      if demoAddressesValid seq then (startupFlow s).outcome else .refused .demoAddressOutOfRange
    | _, _ => .refused .demoNotGiven
  else (startupFlow s).outcome

/-! ### DEMO (R108) -/

/-- The end of a run of the demonstration sequence: again from its first write, or the end of the run. -/
def demoEnd (repeats : Bool) (s : State) : Flow :=
  if repeats then .go { s with micro := .demo 0 }
  else .go { s with exit := .zero, ctrl := .done, micro := .entry }

/-- One step of DEMO(): write number `k` of DEMO_SEQ, or what follows the last one. No input event is taken. -/
def demoStep (k : Nat) (s : State) : Host.Outcome State Fault Refusal :=
  match s.params.demoSeq, s.params.demoRepeat with
  | some seq, some repeats =>
    match seq[k]? with
    | some w =>
      if addressValid w.1 then
        ((writeRegister w.1 w.2 s).andThen (fun t => .go { t with micro := .demo (k + 1) })).outcome
      else .refused .demoAddressOutOfRange
    | none => (demoEnd repeats s).outcome
  | _, _ => .refused .demoNotGiven

/-! ### DRAIN (R105) -/

/-- The frame dump, when DEBUG is set (R106). -/
def dumpFrame (s : State) : State := if s.params.debug then report (.frameDump s.frame) s else s

/-- The check of the whole frame before any pair is driven, under `fatal` and `whole_frame` (R98, R105). -/
def checkWholeFrame (s : State) : Flow :=
  if s.params.addrPolicy = .fatal ∧ s.params.validateMode = .wholeFrame then
    match firstIllegal 0 (decompose s.frame) with
    | some (a, d, k) => raise (.addressOutOfRange a d k) s
    | none => .go s
  else .go s

/-- DRAIN's statements before the walk over the items (R105). -/
def drainHead (s : State) : Flow :=
  (checkWholeFrame (dumpFrame s)).andThen (fun t => .go { t with idx := 0, micro := .walk })

/-- The progress counter, if it is included (R107). -/
def reportProgress (s : State) : State :=
  match s.params.progressN with
  | some n => if s.nframes % n = 0 then report (.progress s.nframes) s else s
  | none => s

/-- DRAIN's statements after the last item: back to ACCUM (R105). -/
def drainEnd (s : State) : State := { reportProgress s with ctrl := .accum, micro := .entry }

end Sys2Proof.Machine
end

