-- ==== Sys2Proof/Machine/Dispatch.lean ====
section
/-! DEFINITION. One arm per row of the opcode table: the meaning of each token. -/

namespace Sys2Proof.Machine

def exec (i : Instr) (s : State) : Host.Outcome State Fault Refusal :=
  match i with
  | .endFrame => Sys2Proof.Machine.execEndFrame s
  | .wr addr data => Sys2Proof.Machine.execWr addr data s
  | .wrIllegal32To63 a d => Sys2Proof.Machine.execWrIllegal32To63 a d s
  | .wrIllegal64To127 a d => Sys2Proof.Machine.execWrIllegal64To127 a d s
  | .wrIllegal128To254 a d => Sys2Proof.Machine.execWrIllegal128To254 a d s

end Sys2Proof.Machine
end

