-- ==== Sys2Proof/Machine/Fetch.lean ====
section
/-! DEFINITION. What the block does next, read from STATE, the input port, BUF, FRAME and IDX (44_orchestrator.md R104, R111),
and how a token is placed where the next step fetches it. -/

namespace Sys2Proof.Machine

/-- What the block does next where that is no token's own effect. -/
inductive Pass where
  /-- OFF: STARTUP is to run (R103). -/
  | startup
  /-- OFF in demonstration mode: write number `k` of DEMO_SEQ is next (R108). -/
  | demo (k : Nat)
  /-- ACCUM with no input event available: the block waits (R101). -/
  | wait
  /-- ACCUM: a byte that ends no frame is accumulated (R87). -/
  | accept (b : Byte)
  /-- ACCUM: the stream has closed (R90). -/
  | endOfStream
  /-- ACCUM: reading the stream fails (R91). -/
  | ioError
  /-- EMIT: the head of DRAIN (R105). -/
  | drainHead
  /-- EMIT: the walk has come to a dangling byte (R95). -/
  | dangling (b : Byte)
  /-- EMIT: the walk is over (R105). -/
  | drainEnd
  /-- DONE or HALT: there is no step (R111). -/
  | over
  /-- The run was cut: nothing more happens (R142, U16). -/
  | cut
deriving DecidableEq, Repr

/-- What the block does next. -/
inductive Action where
  /-- The effect of a token: of END when its byte is taken, of a WR when the decoder reaches its pair (log 19). -/
  | token (i : Instr)
  | pass (p : Pass)
deriving DecidableEq, Repr

/-- The next action in ACCUM: the event at the input port decides, and for a byte its value and the frame offset (R52). -/
def fetchEvent (s : State) : Action :=
  match s.input with
  | [] => .pass .wait
  | .byte b :: _ =>
    match decodeArriving s.buf.length b with
    | some i => .token i
    | none => .pass (.accept b)
  | .endOfStream :: _ => .pass .endOfStream
  | .ioError :: _ => .pass .ioError

/-- The next action of the walk over FRAME: its first item from IDX on (R93, R105). -/
def fetchItem (s : State) : Action :=
  match decompose (s.frame.drop s.idx) with
  | [] => .pass .drainEnd
  | .pair a d :: _ => .token (decodePair a d)
  | .dangling b :: _ => .pass (.dangling b)

/-- The next action of a run that is not cut (R104, R111). -/
def fetchAction (s : State) : Action :=
  match s.ctrl with
  | .off =>
    match s.micro with
    | .demo k => .pass (.demo k)
    | _ => .pass .startup
  | .accum => fetchEvent s
  | .emit =>
    match s.micro with
    | .walk => fetchItem s
    | _ => .pass .drainHead
  | .done => .pass .over
  | .halt => .pass .over

/-- The next action: none once the run was cut (R142). -/
def fetch (s : State) : Action := if s.cut then .pass .cut else fetchAction s

/-- The effect of an action that is no token's. Waiting leaves the state as it is (R131, log 5). -/
def runPass (p : Pass) (s : State) : Host.Outcome State Fault Refusal :=
  match p with
  | .startup => startup s
  | .demo k => demoStep k s
  | .wait => .next s
  | .accept b => (acceptByte b s).outcome
  | .endOfStream => .next (endOfStream s)
  | .ioError => (ioError s).outcome
  | .drainHead => (drainHead s).outcome
  | .dangling b => (danglingByte b s).outcome
  | .drainEnd => .next (drainEnd s)
  | .over => .fault .runOver
  | .cut => .fault .runCut

/-! ### Placing a token -/

/-- The boot that must have happened "before the rules for `WR` and `END` hold" (R134): a block that is still OFF has run
STARTUP (log 3). -/
def booted (s : State) : State :=
  if s.ctrl = .off then
    match startup s with
    | .next t => t
    | _ => s
  else s

/-- The byte of an END offered at the input port of a block in ACCUM, at an even frame offset (R52, R88). -/
def placeEnd (b : Byte) (s : State) : State :=
  { s with
    cut := false
    ctrl := .accum
    micro := .entry
    buf := if s.buf.length % 2 = 0 then s.buf else []
    input := .byte b :: s.input }

/-- The pair of bytes as the frame that the decoder of a block in EMIT walks over, at its first item (R93). -/
def placePair (bytes : List Byte) (s : State) : State :=
  { s with cut := false, ctrl := .emit, micro := .walk, frame := bytes, idx := 0 }

/-- The token that begins with these bytes, placed where the next step fetches it: an END at the input port, a pair in
FRAME. -/
def placeToken (bytes : List Byte) (s : State) : State :=
  match bytes with
  | [] => s
  | b :: rest => if b = Config.sentinel then placeEnd b s else placePair (b :: rest.take 1) s

end Sys2Proof.Machine
end

