-- ==== Sys2Proof/Machine/Step.lean ====
section
/-! DEFINITION. One step of the block (44_orchestrator.md R104, R111; log 4), and the state in which the next step runs a
given token. -/

namespace Sys2Proof.Machine

/-- One step: the token that is fetched, or the other work of the block. -/
def step (s : State) : Host.Outcome State Fault Refusal :=
  match fetch s with
  | .token i => exec i s
  | .pass p => runPass p s

/-- The state with a token of the opcode table, numbered as the table numbers its bits, where `step` fetches its next
token; a block that is OFF is booted first (log 3). -/
def State.withFetchWord (s : State) (nbits w : Nat) : State := placeToken (tableBytes nbits w) (booted s)

end Sys2Proof.Machine
end

