-- ==== Sys2Proof/Safety.lean ====
section
/-! DEFINITION. The vocabulary of the claims: the event sequences the spec lists, the idle state of the pins, what counts as a
safe trace, and the invariants of a run. -/

namespace Sys2Proof.Safety

open Sys2Proof.Machine

/-! ### Event sequences -/

/-- The serial word of R58: in bit slot `s` both lines carry bit `7 - s` and the shared clock is pulsed once. -/
def serialWord (a d : Byte) : List PinEvent :=
  (List.range 8).flatMap fun s =>
    [ .write .addrSer (if a.getLsbD (7 - s) then .high else .low),
      .write .dataSer (if d.getLsbD (7 - s) then .high else .low),
      .write .shClk .high,
      .write .shClk .low ]

/-- The 37 events of one register write, "exactly, and in this order" (R76, V10). -/
def registerWriteEvents (a d : Byte) : List PinEvent :=
  serialWord a d ++
    [.write .shLatch .high, .write .shLatch .low, .write .csN .low, .hold .csMin, .write .csN .high]

/-- The 15 events of INITIALIZE (R81, V20). -/
def initializeEvents : List PinEvent :=
  [ .mode .addrSer, .mode .dataSer, .mode .shClk, .mode .shLatch, .mode .shMrN, .mode .csN, .mode .resN,
    .write .resN .low, .hold .resMin, .write .resN .high, .write .csN .high,
    .write .shMrN .low, .write .shClk .low, .write .shLatch .low, .write .shMrN .high ]

/-- Whether an event is a `Write`. -/
def isWrite : PinEvent → Bool
  | .write _ _ => true
  | .mode _ => false
  | .hold _ => false

/-- Whether an event is a `Hold`. -/
def isHold : PinEvent → Bool
  | .hold _ => true
  | .mode _ => false
  | .write _ _ => false

/-- How many `Write` events a list holds. -/
def countWrites (es : List PinEvent) : Nat := (es.filter isWrite).length

/-- The levels that a list of events writes to one pin, in order. -/
def levelsOn (p : Pin) (es : List PinEvent) : List Level :=
  es.filterMap fun e =>
    match e with
    | .write q l => if q = p then some l else none
    | .mode _ => none
    | .hold _ => none

/-- The bits of a byte as levels, "most-significant-bit first" (R76, S1). -/
def bitsFromTheTop (v : Byte) : List Level := (List.range 8).map fun s => if v.getLsbD (7 - s) then .high else .low

/-- What R76 and S1 count of the events of one register write, pin by pin: 37 events, of them 36 Writes and one Hold; each
serial pin its byte's bits; 8 pulses of the one shared clock, then one latch pulse, then one select pulse with the Hold in
it; no write of SH_MR_N or RES_N and no mode setting. -/
abbrev CountsOfOneWrite (a d : Byte) (es : List PinEvent) : Prop :=
  es.length = 37 ∧ countWrites es = 36 ∧ es.filter isHold = [.hold .csMin] ∧
  levelsOn .addrSer es = bitsFromTheTop a ∧ levelsOn .dataSer es = bitsFromTheTop d ∧
  levelsOn .shClk es = (List.replicate 8 [Level.high, .low]).flatten ∧
  levelsOn .shLatch es = [.high, .low] ∧ levelsOn .csN es = [.low, .high] ∧
  levelsOn .shMrN es = [] ∧ levelsOn .resN es = [] ∧
  es.drop 32 = [.write .shLatch .high, .write .shLatch .low, .write .csN .low, .hold .csMin, .write .csN .high]

/-- The events that only a register write makes: a Hold, or a Write of one of the five pins of R85. -/
def steadyEvent : PinEvent → Bool
  | .hold _ => true
  | .mode _ => false
  | .write p _ =>
    match p with
    | .addrSer => true
    | .dataSer => true
    | .shClk => true
    | .shLatch => true
    | .csN => true
    | .shMrN => false
    | .resN => false

/-! ### The idle pins -/

/-- The pins and the chip between register writes: the precondition of R77, which INITIALIZE establishes (R84), with the
chip out of reset, no select pulse open, its clock running (R144) and its register space in canonical form (R33). -/
abbrev BoardIdle (b : Board) : Prop :=
  b.pinMode = .all .output ∧ Memory.wf b.chip = true ∧
  b.pinLevel.shClk = some .low ∧ b.pinLevel.shLatch = some .low ∧ b.pinLevel.shMrN = some .high ∧
  b.pinLevel.csN = some .high ∧ b.pinLevel.resN = some .high ∧
  b.chipInReset = some false ∧ b.select = none ∧ b.chipClk = .running

/-- LIVE, initialised, pins idle: the premises of R77 on the state. -/
abbrev ReadyLive (s : State) : Prop :=
  s.backend = .live ∧ s.initialized = true ∧ BoardIdle s.board

/-- None of the next `n` pin writes fails (R69). -/
abbrev NoPinFailure (n : Nat) (s : State) : Prop :=
  ∀ k, k < n → s.pinWrites + k + 1 ∉ s.params.pinFail

/-- The run is not cut at one of the next `n` pin events (R142, R148). -/
abbrev NoCut (n : Nat) (s : State) : Prop :=
  ∀ k, k < n → s.params.cutAt ≠ some (s.trace.length + k + 1)

/-- The premises on the host under which an operation of these events runs to its end: no pin write of it fails, and the run
is not cut in it. -/
abbrev Undisturbed (es : List PinEvent) (s : State) : Prop :=
  NoPinFailure (countWrites es) s ∧ NoCut es.length s

/-- The far side of the pins after one complete register write from idle pins (R77). -/
def boardAfterWrite (b : Board) (a d : Byte) : Board :=
  { b with
    asr := Stage.ofByte a
    dsr := Stage.ofByte d
    aq := Stage.ofByte a
    dq := Stage.ofByte d
    chip := Memory.write b.chip (a.toNat % 32) d
    pinLevel :=
      { b.pinLevel with
        addrSer := some (if a.getLsbD 0 then .high else .low)
        dataSer := some (if d.getLsbD 0 then .high else .low) } }

/-- The board at the end of INITIALIZE from power-on under LIVE (the table of R84). -/
def boardAfterInitialize : Board where
  pinMode := .all .output
  pinLevel := ⟨none, none, some .low, some .low, some .high, some .high, some .high⟩
  asr := Stage.ofByte 0
  dsr := Stage.ofByte 0
  aq := .undefined
  dq := .undefined
  chip := []
  chipInReset := some false
  resetHeld := false
  select := none
  chipClk := .running

/-- The state a fatal fault leaves, by the words of R121. -/
def halted (r : Raised) (s : State) : State :=
  { s with
    diag := s.diag ++ [.fault r]
    fault := some r.code
    finfo := r.info
    exit := .exitFail
    ctrl := .halt }

/-! ### A monitor over traces (R137, R138, R140) -/

/-- What the monitor remembers: whether CS_N and RES_N are Low, whether the Hold that the pulse needs has passed, and
whether everything so far was as R137, R138 and R140 ask. -/
structure Monitor where
  csLow : Bool
  csHeld : Bool
  resLow : Bool
  resHeld : Bool
  ok : Bool
deriving DecidableEq, Repr

/-- The monitor before the first event. -/
def Monitor.start : Monitor := ⟨false, false, false, false, true⟩

/-- While CS_N is Low nothing but CS_N is written (R74), so that the bus is stable (R140); CS_N rises only after a Hold of
at least T_CS_MIN (R137), RES_N only after one of at least T_RES_MIN (R138). -/
def Monitor.next (m : Monitor) (e : PinEvent) : Monitor :=
  match e with
  | .mode _ => { m with ok := m.ok && !m.csLow }
  | .hold t =>
    { m with
      csHeld := m.csHeld || decide (Config.tCsMin ≤ t.ns)
      resHeld := m.resHeld || decide (Config.tResMin ≤ t.ns) }
  | .write .csN .low => { m with csLow := true, csHeld := false, ok := m.ok && !m.csLow }
  | .write .csN .high => { m with csLow := false, ok := m.ok && (!m.csLow || m.csHeld) }
  | .write .resN .low => { m with resLow := true, resHeld := false, ok := m.ok && !m.csLow }
  | .write .resN .high => { m with resLow := false, ok := m.ok && !m.csLow && (!m.resLow || m.resHeld) }
  | .write .addrSer _ => { m with ok := m.ok && !m.csLow }
  | .write .dataSer _ => { m with ok := m.ok && !m.csLow }
  | .write .shClk _ => { m with ok := m.ok && !m.csLow }
  | .write .shLatch _ => { m with ok := m.ok && !m.csLow }
  | .write .shMrN _ => { m with ok := m.ok && !m.csLow }

/-- The monitor after a trace. -/
def monitor (trace : List PinEvent) : Monitor := trace.foldl Monitor.next Monitor.start

/-! ### Frames (R92) -/

/-- No byte at an even offset is the sentinel. -/
def noSentinelAtEven : List Byte → Bool
  | [] => true
  | [b] => decide (b ≠ Config.sentinel)
  | a :: _ :: rest => decide (a ≠ Config.sentinel) && noSentinelAtEven rest

/-- The pairs of a frame, all of them with valid addresses, as register writes. -/
def validPairs (frame : List Byte) : Bool :=
  (decompose frame).all fun item =>
    match item with
    | .pair a _ => addressValid a
    | .dangling _ => false

/-- The register writes a frame of valid pairs asks for, in order. -/
def pairsOf (frame : List Byte) : List (Byte × Byte) :=
  (decompose frame).filterMap fun item =>
    match item with
    | .pair a d => some (a, d)
    | .dangling _ => none

/-! ### Invariants of a run -/

/-- OFF, not in the demonstration and not cut: STARTUP is still to run. -/
def notStarted (s : State) : Bool :=
  match s.ctrl, s.micro with
  | .off, .demo _ => false
  | .off, _ => !s.cut
  | _, _ => false

/-- STARTUP is not refused (R108): the demonstration is not asked for, or both its data are given and every address of
DEMO_SEQ is below 32. -/
abbrev DemoReady (s : State) : Prop :=
  s.params.demoMode = true →
    ∃ seq again, s.params.demoSeq = some seq ∧ s.params.demoRepeat = some again ∧ ∀ w ∈ seq, w.1.toNat < 32

/-- The state in which STARTUP leaves the block once it is initialised (R103, R108): in ACCUM, or, in the demonstration mode,
still in OFF with the first write of DEMO_SEQ next (`micro` is the model's own, log 4). -/
def afterStartup (s : State) : State :=
  if s.params.demoMode then { s with initialized := true, micro := .demo 0 }
  else { s with initialized := true, ctrl := .accum }

/-- Before STARTUP nothing has happened (R31). -/
abbrev FreshBeforeStartup (s : State) : Prop :=
  notStarted s = true →
    s.board = .powerOn ∧ s.backend = .notYetChosen ∧ s.initialized = false ∧ s.trace = [] ∧ s.buf = []

/-- The far side of the pins is exactly what the trace produces, and untouched unless LIVE (R123, R135, R66). -/
abbrev BoardFollowsTrace (s : State) : Prop :=
  FreshBeforeStartup s ∧
  s.board = Board.powerOn.replay s.trace ∧
  (s.backend ≠ .live → s.board = .powerOn)

/-- The block is past STARTUP and its run has neither ended nor been cut. -/
def running (s : State) : Bool :=
  match s.ctrl, s.micro with
  | .accum, _ => !s.cut
  | .emit, _ => !s.cut
  | .off, .demo _ => !s.cut
  | .off, _ => false
  | .done, _ => false
  | .halt, _ => false

/-- Whenever the block runs it is initialised and, under LIVE, its pins are idle between steps; NotInitialized has never
been reported (R77, R101, R118). -/
abbrev IdleBetweenSteps (s : State) : Prop :=
  FreshBeforeStartup s ∧
  (running s = true → s.initialized = true ∧ ((s.backend = .live ∧ BoardIdle s.board) ∨ s.backend = .noop)) ∧
  DiagEvent.fault .notInitialized ∉ s.diag

/-- STATE, EXIT, FAULT, FINFO and DIAG agree (R21, R135). -/
def ExitAgrees (s : State) : Prop :=
  match s.ctrl with
  | .done => s.exit = .zero ∧ s.fault = none ∧ s.finfo = .noValue ∧ s.buf = []
  | .halt =>
    s.exit = .exitFail ∧
      ∃ r : Raised, s.diag.getLast? = some (.fault r) ∧ s.fault = some r.code ∧ s.finfo = r.info ∧
        r.fatal s.params.addrPolicy = true
  | .off => s.exit = .none ∧ s.fault = none ∧ s.finfo = .noValue ∧ s.buf = []
  | .accum => s.exit = .none ∧ s.fault = none ∧ s.finfo = .noValue
  | .emit => s.exit = .none ∧ s.fault = none ∧ s.finfo = .noValue

/-- What the reader guarantees (R92): BUF holds no sentinel at an even offset, the emitted frame has even length and none
either, the walk stands at an even offset in it, and no dangling byte has ever been reported (R115). -/
abbrev FramesWhole (s : State) : Prop :=
  noSentinelAtEven s.buf = true ∧
  (s.ctrl = .emit →
    s.frame.length % 2 = 0 ∧ noSentinelAtEven s.frame = true ∧ (s.micro = .walk → s.idx % 2 = 0)) ∧
  (∀ b, DiagEvent.fault (.danglingByte b) ∉ s.diag)

/-- Every pulse in the trace is long enough and the bus is stable while the chip is selected (R137, R138, R140); while the
block runs neither pulse is open. -/
abbrev PulsesSafe (s : State) : Prop :=
  (notStarted s = true → s.trace = []) ∧
  (monitor s.trace).ok = true ∧
  (running s = true → (monitor s.trace).csLow = false ∧ (monitor s.trace).resLow = false)

/-- BUF never holds more than BUF_CAP bytes (R102). -/
abbrev BufferWithinCap (s : State) : Prop :=
  ∀ n, s.params.bufCap = some n → s.buf.length ≤ n

/-! ### Views -/

/-- The state with what the diagnostic options decide taken out: DIAG, DEBUG, PROGRESS_N (R106, R107). -/
def withoutDiagnostics (s : State) : State :=
  { s with diag := [], params := { s.params with debug := false, progressN := none } }

/-- The same block with the no-op backend in place of the live one (R66): the far side of the pins as at power-on, of the
trace the Holds alone, and no pin write attempted. -/
def asNoop (s : State) : State :=
  { s with
    backend := .noop
    board := .powerOn
    trace := s.trace.filter isHold
    pinWrites := 0 }

/-- An outcome seen through a view of the state. -/
def viewed (view : State → State) : Host.Outcome State Fault Refusal → Host.Outcome State Fault Refusal
  | .next s => .next (view s)
  | .fault f => .fault f
  | .refused r => .refused r

/-- The transitions of STATE that R15 lists, and the two the model adds because a demonstration and a drain take several
steps (log 4). -/
def legalTransition : Ctrl → Ctrl → Bool
  | .off, .accum => true
  | .off, .halt => true
  | .off, .done => true
  | .off, .off => true
  | .accum, .accum => true
  | .accum, .emit => true
  | .accum, .done => true
  | .accum, .halt => true
  | .emit, .accum => true
  | .emit, .halt => true
  | .emit, .emit => true
  | _, _ => false

/-- The bytes among the input events, in order. -/
def bytesOf : List InputEvent → List Byte
  | [] => []
  | .byte b :: es => b :: bytesOf es
  | .endOfStream :: es => bytesOf es
  | .ioError :: es => bytesOf es

end Sys2Proof.Safety
end

