-- ==== Sys2Proof/Certificates/Slice0/Obligations.lean ====
section
/-! DEFINITION. The statements for the provers. Each docstring names the rules of spec/ it formalises and, where it rests on a
choice of the model, the log entry. -/

open Sys2Proof Sys2Proof.Machine Sys2Proof.Safety

/-! ### Encoding and decoding -/

/-- R51 to R57: decoding the bytes of any well-formed token, whatever follows them, gives the token back and leaves exactly
what follows. -/
def Obligations.DecodeOfEncodeIsTheToken : Prop :=
  ∀ (i : Instr) (rest : List Byte), i.wf = true → decodeToken (encode i ++ rest) = .token i rest

/-- R51 to R57: whatever the decoder reads is a well-formed token and the bytes it read are its encoding, so each byte
sequence has one meaning; END is tested before any pair. -/
def Obligations.DecodedBytesAreTheEncoding : Prop :=
  ∀ (bytes : List Byte) (i : Instr) (rest : List Byte),
    decodeToken bytes = .token i rest → i.wf = true ∧ bytes = encode i ++ rest

/-- R52, R89: what a byte is depends only on its value and the parity of its frame offset. At an even offset 0xFF is END and
anything else opens a pair whose token R57 names; at an odd offset every value is data. -/
def Obligations.ByteClassByOffsetParity : Prop :=
  ∀ (n : Nat) (b d : Byte),
    (n % 2 = 1 → decodeArriving n b = none) ∧
    (n % 2 = 0 → b = 0xFF → decodeArriving n b = some .endFrame) ∧
    (n % 2 = 0 → b ≠ 0xFF → decodeArriving n b = none) ∧
    (b.toNat < 32 → decodePair b d = .wr (b.setWidth 5) d) ∧
    (32 ≤ b.toNat → b.toNat < 64 → decodePair b d = .wrIllegal32To63 b d) ∧
    (64 ≤ b.toNat → b.toNat < 128 → decodePair b d = .wrIllegal64To127 b d) ∧
    (128 ≤ b.toNat → decodePair b d = .wrIllegal128To254 b d)

/-- R93, R42: a frame of length L decomposes into L / 2 pairs, pair k being the bytes at offsets 2k and 2k + 1, and for an
odd L a dangling byte, the last one, after them. -/
def Obligations.DecomposeTakesTwoBytesAtATime : Prop :=
  ∀ frame : List Byte,
    (decompose frame).length = frame.length / 2 + frame.length % 2 ∧
    (∀ k a d, frame[2 * k]? = some a → frame[2 * k + 1]? = some d → (decompose frame)[k]? = some (.pair a d)) ∧
    (∀ b, frame.length % 2 = 1 → frame.getLast? = some b → (decompose frame).getLast? = some (.dangling b))

/-- R100, R61: the stream made of the address and data bytes of a sequence of register writes and 0xFF is read as exactly
one frame, which decomposes into exactly those pairs in order, with no dangling byte and no illegal address. -/
def Obligations.FramedWritesReadBackExactly : Prop :=
  ∀ writes : List (Address × Data),
    splitFrames [] (encodeFrame writes) = ([encodeBody writes], []) ∧
    decompose (encodeBody writes) = writes.map (fun w => Item.pair (w.1.setWidth 8) w.2) ∧
    firstIllegal 0 (decompose (encodeBody writes)) = none

/-- R55: every byte sequence parses under the grammar in exactly one way, and the framing function finds that way: frames of
even length with no sentinel at an even offset, each ended by 0xFF, then a tail with no sentinel at an even offset. -/
def Obligations.EveryStreamParsesInOneWay : Prop :=
  ∀ (bytes : List Byte) (frames : List (List Byte)) (tail : List Byte),
    splitFrames [] bytes = (frames, tail) ↔
      bytes = frames.flatMap (fun f => f ++ [0xFF]) ++ tail ∧
      (∀ f ∈ frames, f.length % 2 = 0 ∧ noSentinelAtEven f = true) ∧
      noSentinelAtEven tail = true

/-- The opcode table, V31: words of the table, one for each row, decode to the tokens they stand for (the rows of 16 bits
are {byte0, byte1}: log 21). -/
def Obligations.TableWordsDecodeToTheirRows : Prop :=
  decodeTableWord 8 0b11111111 = some .endFrame ∧
  decodeTableWord 16 0b0000010100001001 = some (.wr 5 9) ∧
  decodeTableWord 16 0b0010000000000001 = some (.wrIllegal32To63 0x20 0x01) ∧
  decodeTableWord 16 0b0111111100000000 = some (.wrIllegal64To127 0x7F 0x00) ∧
  decodeTableWord 16 0b1111111000000000 = some (.wrIllegal128To254 0xFE 0x00)

/-! ### The primitives -/

/-- R70, R71: bit extraction is the i-th bit of the number, and the level of a bit is Low for 0 and High for 1. -/
def Obligations.LevelIsTheExtractedBit : Prop :=
  ∀ (v : Byte) (i : Fin 8),
    (if bit v i then 1 else 0) = (v.toNat >>> i.val) &&& 1 ∧
    levelOf (bit v i) = (if v.toNat / 2 ^ i.val % 2 = 1 then .high else .low)

/-- R63, R66: SET_MODE under LIVE makes the pin an output, records Mode(p) and leaves every level; under NOOP it does
nothing. -/
def Obligations.SetModeConfiguresOnlyUnderLive : Prop :=
  ∀ (p : Pin) (s : State),
    (s.backend = .live → setMode p s =
      .go { s with
        trace := s.trace ++ [.mode p]
        board := { s.board with pinMode := s.board.pinMode.set p .output } }) ∧
    (s.backend = .noop → setMode p s = .go s)

/-- R64, R66, R69, R118: PIN_WRITE under LIVE on an output pin drives the level, applies the reaction of the devices and
records Write(p, l), unless PINFAIL fails it, and then no level changes and no event is recorded; on a pin that is no output
it is NotInitialized; under NOOP it does nothing. The write's number is the model's count of attempts (log 8). That
NotInitialized is taken by fault entry and halts, where R82, R118 and U5 let a model refuse, is the model's choice (log 16). -/
def Obligations.PinWriteDrivesFailsOrHalts : Prop :=
  ∀ (p : Pin) (l : Level) (s : State),
    (s.backend = .live → s.board.pinMode.get p = .output → s.pinWrites + 1 ∉ s.params.pinFail →
      pinWrite p l s =
        .go { s with
          trace := s.trace ++ [.write p l]
          board :=
            { s.board.reactWrite p l with pinLevel := (s.board.reactWrite p l).pinLevel.set p (some l) }
          pinWrites := s.pinWrites + 1 }) ∧
    (s.backend = .live → s.board.pinMode.get p = .output → s.pinWrites + 1 ∈ s.params.pinFail →
      pinWrite p l s =
        .abandoned (halted (.pinWriteFailure p l) { s with pinWrites := s.pinWrites + 1 })) ∧
    (s.backend = .live → s.board.pinMode.get p ≠ .output →
      pinWrite p l s = .abandoned (halted .notInitialized s)) ∧
    (s.backend = .noop → pinWrite p l s = .go s)

/-- R65, R66: HOLD is performed and its Hold(t) recorded under both backends, and it can not fail; the sequencer and the
pins keep every register. -/
def Obligations.HoldIsRecordedUnderBothBackends : Prop :=
  ∀ (t : Duration) (s : State),
    (s.backend = .live →
      hold t s = .go { s with trace := s.trace ++ [.hold t], board := s.board.react (.hold t) }) ∧
    (s.backend = .noop → hold t s = .go { s with trace := s.trace ++ [.hold t] }) ∧
    ((s.board.react (.hold t)).pinLevel = s.board.pinLevel ∧
      (s.board.react (.hold t)).pinMode = s.board.pinMode ∧
      (s.board.react (.hold t)).chip = s.board.chip)

/-- R112, R121: fault entry. A fatal fault is appended to DIAG, recorded in FAULT and FINFO, sets EXIT to EXIT_FAIL and STATE
to HALT, abandons what is in progress and changes nothing else: no pin is written. DanglingByte, and AddressOutOfRange under
`skip`, are only reported and execution continues. The code and the recorded information of each of the seven faults are
those of the table of R112. -/
def Obligations.FaultEntryReportsAndHalts : Prop :=
  (∀ (r : Raised) (s : State),
    ((∃ b, r = .danglingByte b) ∨ ((∃ a d k, r = .addressOutOfRange a d k) ∧ s.params.addrPolicy = .skip) →
      raise r s = .go { s with diag := s.diag ++ [.fault r] }) ∧
    (¬ ((∃ b, r = .danglingByte b) ∨ ((∃ a d k, r = .addressOutOfRange a d k) ∧ s.params.addrPolicy = .skip)) →
      raise r s =
        .abandoned
          { s with
            diag := s.diag ++ [.fault r]
            fault := some r.code
            finfo := r.info
            exit := .exitFail
            ctrl := .halt })) ∧
  (Raised.hardwareUnavailable.code.number = 1 ∧ Raised.hardwareUnavailable.info = .nothing) ∧
  (Raised.streamIoError.code.number = 2 ∧ Raised.streamIoError.info = .nothing) ∧
  (∀ b, (Raised.danglingByte b).code.number = 3 ∧ (Raised.danglingByte b).info = .byte b) ∧
  (∀ a d k, (Raised.addressOutOfRange a d k).code.number = 4 ∧ (Raised.addressOutOfRange a d k).info = .address a d k) ∧
  (∀ p l, (Raised.pinWriteFailure p l).code.number = 5 ∧ (Raised.pinWriteFailure p l).info = .pin p l) ∧
  (Raised.notInitialized.code.number = 6 ∧ Raised.notInitialized.info = .nothing) ∧
  (Raised.bufferOverflow.code.number = 7 ∧ Raised.bufferOverflow.info = .nothing)

/-! ### The devices on the pins -/

/-- R41: after the eight bit slots, started with SH_MR_N High and SH_CLK Low, each shift stage holds its byte whatever it
held before, bit k at position k, and nothing else behind the pins has changed; after the latch pulse the chip's buses carry
the low five bits of the address and the data. -/
def Obligations.EightSlotsThenLatchPresentBothBytes : Prop :=
  ∀ (b : Board) (a d : Byte),
    b.pinLevel.shMrN = some .high → b.pinLevel.shClk = some .low →
      ((b.replay (serialWord a d)).asr = Stage.ofByte a ∧
       (b.replay (serialWord a d)).dsr = Stage.ofByte d ∧
       (b.replay (serialWord a d)).aq = b.aq ∧ (b.replay (serialWord a d)).dq = b.dq ∧
       (b.replay (serialWord a d)).chip = b.chip ∧
       (b.replay (serialWord a d)).chipInReset = b.chipInReset) ∧
      (b.pinLevel.shLatch = some .low →
        abus (b.replay (serialWord a d ++ [.write .shLatch .high, .write .shLatch .low])).aq = some (a.toNat % 32) ∧
        dbus (b.replay (serialWord a d ++ [.write .shLatch .high, .write .shLatch .low])).dq = some d)

/-- R39, R137: with CS_N High, the chip out of reset, its clock running and both buses defined, a select pulse with its Hold
writes exactly the addressed cell; while it is open that cell is Undefined and every other cell is as before; closed with no
Hold in it, every cell is Undefined. -/
def Obligations.SelectPulseWritesOneCell : Prop :=
  ∀ (b : Board) (k : Nat) (v : Byte),
    b.pinLevel.csN = some .high → b.chipInReset = some false → b.chipClk = .running →
    abus b.aq = some k → dbus b.dq = some v →
      (∀ x, Memory.read (b.replay [.write .csN .low, .hold .csMin, .write .csN .high]).chip x =
        if x = k then some v else Memory.read b.chip x) ∧
      (∀ x, Memory.read (b.replay [.write .csN .low, .hold .csMin]).chip x =
        if x = k then none else Memory.read b.chip x) ∧
      (∀ x, Memory.read (b.replay [.write .csN .low, .write .csN .high]).chip x = none)

/-- R37, R38: driving SH_MR_N Low clears both shift stages and leaves both outputs; a rising latch copies both stages to the
outputs at one event and leaves the stages; a falling write of SH_LATCH and one that leaves its level High change neither
outputs nor stages; High from an Undefined level makes every bit of both outputs Undefined. -/
def Obligations.ClearReachesStagesLatchReachesOutputs : Prop :=
  ∀ b : Board,
    ((b.react (.write .shMrN .low)).asr = Stage.ofByte 0 ∧ (b.react (.write .shMrN .low)).dsr = Stage.ofByte 0 ∧
      (b.react (.write .shMrN .low)).aq = b.aq ∧ (b.react (.write .shMrN .low)).dq = b.dq) ∧
    (b.pinLevel.shLatch = some .low →
      (b.react (.write .shLatch .high)).aq = b.asr ∧ (b.react (.write .shLatch .high)).dq = b.dsr ∧
      (b.react (.write .shLatch .high)).asr = b.asr ∧ (b.react (.write .shLatch .high)).dsr = b.dsr) ∧
    (∀ l, l = .low ∨ b.pinLevel.shLatch = some .high →
      (b.react (.write .shLatch l)).aq = b.aq ∧ (b.react (.write .shLatch l)).dq = b.dq ∧
      (b.react (.write .shLatch l)).asr = b.asr ∧ (b.react (.write .shLatch l)).dsr = b.dsr) ∧
    (b.pinLevel.shLatch = none →
      (b.react (.write .shLatch .high)).aq = .undefined ∧ (b.react (.write .shLatch .high)).dq = .undefined)

/-- R36, R37: a rising SH_CLK with SH_MR_N High shifts both stages by one place, each taking its own serial pin at position 0;
with SH_MR_N Low, on a falling write and on a write that leaves the level, no stage changes; High from an Undefined level with
SH_MR_N not Low makes every bit of both stages Undefined. -/
def Obligations.ClockEdgesShiftBothStages : Prop :=
  ∀ b : Board,
    (b.pinLevel.shClk = some .low → b.pinLevel.shMrN = some .high →
      (b.react (.write .shClk .high)).asr =
        ⟨b.asr.b6, b.asr.b5, b.asr.b4, b.asr.b3, b.asr.b2, b.asr.b1, b.asr.b0, b.pinLevel.addrSer⟩ ∧
      (b.react (.write .shClk .high)).dsr =
        ⟨b.dsr.b6, b.dsr.b5, b.dsr.b4, b.dsr.b3, b.dsr.b2, b.dsr.b1, b.dsr.b0, b.pinLevel.dataSer⟩) ∧
    (∀ l, l = .low ∨ b.pinLevel.shClk = some .high ∨ b.pinLevel.shMrN = some .low →
      (b.react (.write .shClk l)).asr = b.asr ∧ (b.react (.write .shClk l)).dsr = b.dsr) ∧
    (b.pinLevel.shClk = none → b.pinLevel.shMrN ≠ some .low →
      (b.react (.write .shClk .high)).asr = .undefined ∧ (b.react (.write .shClk .high)).dsr = .undefined)

/-- R39, the corner cases. With the chip out of reset: a select pulse over an address bus with an Undefined bit makes every
register Undefined, and one over an Undefined data bit makes the addressed register Undefined and leaves the others; a Low
time of CS_N with a latch event in it makes every register Undefined at its close; Write(CS_N, High) from an Undefined level
makes every register Undefined. While the chip is in reset, or not known to be out of it, a select pulse writes nothing. -/
def Obligations.SelectCornerCasesForgetRegisters : Prop :=
  (∀ b : Board, b.pinLevel.csN = some .high → b.chipClk = .running →
    (b.chipInReset = some false → abus b.aq = none →
      ∀ x, Memory.read (b.replay [.write .csN .low, .hold .csMin, .write .csN .high]).chip x = none) ∧
    (∀ k, b.chipInReset = some false → abus b.aq = some k → dbus b.dq = none →
      ∀ x, Memory.read (b.replay [.write .csN .low, .hold .csMin, .write .csN .high]).chip x =
        if x = k then none else Memory.read b.chip x) ∧
    (b.chipInReset = some false → b.pinLevel.shLatch = some .low →
      ∀ latch, latch = [PinEvent.write .shLatch .high] ∨ latch = [.write .shLatch .high, .write .shLatch .low] →
        ∀ x, Memory.read (b.replay (.write .csN .low :: .hold .csMin :: latch ++ [.write .csN .high])).chip x = none) ∧
    (b.chipInReset ≠ some false →
      ∀ x, Memory.read (b.replay [.write .csN .low, .hold .csMin, .write .csN .high]).chip x = Memory.read b.chip x)) ∧
  (∀ b : Board, b.pinLevel.csN = none → b.chipInReset = some false →
    ∀ x, Memory.read (b.react (.write .csN .high)).chip x = none)

/-- R40, R138: driving RES_N Low puts the chip in reset and makes every register Undefined; driving it High again after a Hold
of at least T_RES_MIN ends the reset, with every register Undefined still. After a shorter pulse nothing about the registers is
known either, and the model does not know the chip to be out of reset (log 12). -/
def Obligations.ResetPulseNeedsItsHold : Prop :=
  ∀ b : Board, b.pinLevel.resN = some .high → b.chipClk = .running →
    ((b.react (.write .resN .low)).chipInReset = some true ∧
      ∀ x, Memory.read (b.react (.write .resN .low)).chip x = none) ∧
    ((b.replay [.write .resN .low, .hold .resMin, .write .resN .high]).chipInReset = some false ∧
      ∀ x, Memory.read (b.replay [.write .resN .low, .hold .resMin, .write .resN .high]).chip x = none) ∧
    (∀ pause, pause = [] ∨ pause = [PinEvent.hold .csMin] →
      (b.replay (.write .resN .low :: pause ++ [.write .resN .high])).chipInReset = none ∧
        ∀ x, Memory.read (b.replay (.write .resN .low :: pause ++ [.write .resN .high])).chip x = none)

/-- R40, R80, V21: RESET taken by itself after INITIALIZE, pins idle, no pin failure and no cut: its four events; every chip
register Undefined and the chip out of reset again; both shift registers and every pin level as they were. -/
def Obligations.ResetForgetsTheChipOnly : Prop :=
  ∀ s : State, ReadyLive s → NoPinFailure 3 s → NoCut 4 s →
    resetChip s =
      .go { s with
        trace := s.trace ++ [.write .resN .low, .hold .resMin, .write .resN .high, .write .csN .high]
        board := { s.board with chip := [], resetHeld := false }
        pinWrites := s.pinWrites + 3 }

/-! ### INITIALIZE and STARTUP -/

/-- R81, R84, V20: INITIALIZE under LIVE from the power-on board with no pin failure and no cut makes exactly the 15 events and
ends in the table of R84. -/
def Obligations.InitializeEndsInTheIdleBoard : Prop :=
  ∀ s : State, s.backend = .live → s.board = .powerOn → NoPinFailure 7 s → NoCut 15 s →
    initializeBlock s =
      .go { s with
        trace := s.trace ++ initializeEvents
        board := boardAfterInitialize
        pinWrites := s.pinWrites + 7
        initialized := true }

/-- R83, V22: a second INITIALIZE from idle pins runs the same 15 events; every pin keeps its level, the shift stages are
cleared, the outputs keep the last latched values, and every chip register becomes Undefined. -/
def Obligations.RepeatedInitializeClearsStagesAndChip : Prop :=
  ∀ s : State, ReadyLive s → NoPinFailure 7 s → NoCut 15 s →
    initializeBlock s =
      .go { s with
        trace := s.trace ++ initializeEvents
        board := { s.board with asr := Stage.ofByte 0, dsr := Stage.ofByte 0, chip := [], resetHeld := false }
        pinWrites := s.pinWrites + 7 }

/-- R67, R103, R108, R113, V05, S5: STARTUP, for every setting under which it is not refused. DISABLE_HW set: NOOP whether or
not the hardware is there, and one Hold. Clear and the controller absent: HardwareUnavailable with no pin event. Clear and
the controller present, no pin failing: LIVE and the 15 events. Where no fault is taken INITIALIZED is set, and what
follows is `afterStartup`: ACCUM, or, in the demonstration mode, STATE still OFF with write 0 of DEMO_SEQ next (that DEMO
begins in a step of its own, and `micro`, are the model's: log 4). -/
def Obligations.StartupSelectsTheBackendOnce : Prop :=
  ∀ s : State, notStarted s = true → DemoReady s →
    (s.params.disableHw = true → NoCut 1 s →
      step s = .next (afterStartup { s with backend := .noop, trace := s.trace ++ [.hold .resMin] })) ∧
    (s.params.disableHw = false → s.params.hwAvailable = false →
      step s = .next (halted .hardwareUnavailable s)) ∧
    (s.params.disableHw = false → s.params.hwAvailable = true → s.board = .powerOn → NoPinFailure 7 s → NoCut 15 s →
      step s =
        .next (afterStartup
          { s with
            backend := .live
            trace := s.trace ++ initializeEvents
            board := boardAfterInitialize
            pinWrites := s.pinWrites + 7 }))

/-- R69, R117, R142, R148, V07: where STARTUP, of a block that is not refused, stops. Under LIVE, at the first of the 15 events
at which a pin write fails or the run is cut: the events before it stand, it leaves no event and no level, INITIALIZED stays
as it was and nothing later runs; a failed write halts, a cut run is marked and nothing is reported (log 22). Under NOOP the
one event at which the run can be cut is the Hold. -/
def Obligations.StartupStopsWhereAWriteFailsOrTheRunIsCut : Prop :=
  ∀ s : State, notStarted s = true → DemoReady s →
    (∀ (before after : List PinEvent) (e : PinEvent),
      s.params.disableHw = false → s.params.hwAvailable = true → initializeEvents = before ++ e :: after →
      NoPinFailure (countWrites before) s → NoCut before.length s →
        (∀ p l, e = .write p l → s.params.cutAt ≠ some (s.trace.length + before.length + 1) →
          s.pinWrites + countWrites before + 1 ∈ s.params.pinFail →
            step s =
              .next (halted (.pinWriteFailure p l)
                { s with
                  backend := .live
                  trace := s.trace ++ before
                  board := s.board.replay before
                  pinWrites := s.pinWrites + countWrites before + 1 })) ∧
        (s.params.cutAt = some (s.trace.length + before.length + 1) →
          step s =
            .next { s with
              backend := .live
              trace := s.trace ++ before
              board := s.board.replay before
              pinWrites := s.pinWrites + countWrites before
              cut := true })) ∧
    (s.params.disableHw = true → s.params.cutAt = some (s.trace.length + 1) →
      step s = .next { s with backend := .noop, cut := true })

/-- R79, R108, R142, V62: the demonstration path. Not given its sequence or whether it repeats, or given an address of 32 or
more, STARTUP is refused (log 17, log 18); else each write is a full register write, in order, no input is taken, and after the
last one the run ends with exit status 0 or begins the sequence again. A pin write that fails in such a write halts there, and
a run that is cut in it stops there, with exactly the events before. One write a step, and `micro`, are the model's (log 4);
so are the values of A, D and I after the write and after the stop, where R18 calls them dead (log 27). -/
def Obligations.DemonstrationDrivesItsSequence : Prop :=
  (∀ s : State, notStarted s = true → s.params.demoMode = true →
    (s.params.demoSeq = none ∨ s.params.demoRepeat = none → step s = .refused .demoNotGiven) ∧
    (∀ seq again, s.params.demoSeq = some seq → s.params.demoRepeat = some again →
      (∃ w ∈ seq, 32 ≤ w.1.toNat) → step s = .refused .demoAddressOutOfRange)) ∧
  (∀ (s : State) (seq : List (Byte × Byte)) (again : Bool) (k : Nat),
    s.cut = false → s.ctrl = .off → s.micro = .demo k → s.params.demoSeq = some seq → s.params.demoRepeat = some again →
      (∀ a d, seq[k]? = some (a, d) → a.toNat < 32 → ReadyLive s →
        (NoPinFailure 36 s → NoCut 37 s →
          step s =
            .next { s with
              micro := .demo (k + 1)
              a := a
              d := d
              i := 0
              trace := s.trace ++ registerWriteEvents a d
              board := boardAfterWrite s.board a d
              pinWrites := s.pinWrites + 36 }) ∧
        (∀ (before after : List PinEvent) (e : PinEvent), registerWriteEvents a d = before ++ e :: after →
          NoPinFailure (countWrites before) s → NoCut before.length s →
            (∀ p l, e = .write p l → s.params.cutAt ≠ some (s.trace.length + before.length + 1) →
              s.pinWrites + countWrites before + 1 ∈ s.params.pinFail →
                step s =
                  .next (halted (.pinWriteFailure p l)
                    { s with
                      a := a
                      d := d
                      i := Fin.ofNat 8 (7 - before.length / 4)
                      trace := s.trace ++ before
                      board := s.board.replay before
                      pinWrites := s.pinWrites + countWrites before + 1 })) ∧
            (s.params.cutAt = some (s.trace.length + before.length + 1) →
              step s =
                .next { s with
                  a := a
                  d := d
                  i := Fin.ofNat 8 (7 - before.length / 4)
                  trace := s.trace ++ before
                  board := s.board.replay before
                  pinWrites := s.pinWrites + countWrites before
                  cut := true }))) ∧
      (∀ a d, seq[k]? = some (a, d) → a.toNat < 32 → s.backend = .noop → s.initialized = true → NoCut 1 s →
        step s = .next { s with micro := .demo (k + 1), a := a, d := d, i := 0, trace := s.trace ++ [.hold .csMin] }) ∧
      (seq.length ≤ k → again = false → step s = .next { s with exit := .zero, ctrl := .done, micro := .entry }) ∧
      (seq.length ≤ k → again = true → step s = .next { s with micro := .demo 0 }))

/-! ### The tokens -/

/-- R22, R87, R88: END completes in every state. It takes its byte; the accumulated bytes become the frame, BUF is empty and
PARITY is 0; IDX is 0, NFRAMES one more, STATE is EMIT; no pin, no chip register, no flag of a fault and no diagnostic changes.
`micro` is the model's own field (log 4). -/
def Obligations.EndReleasesTheAccumulatedFrame : Prop :=
  ∀ s : State, ∃ t : State, exec .endFrame s = .next t ∧ t.parity = 0 ∧
    t =
      { s with
        input := s.input.tail
        pos := s.pos + 1
        frame := s.buf
        buf := []
        idx := 0
        nframes := s.nframes + 1
        ctrl := .emit
        micro := .entry }

/-- R75, R76, R77, R94, V10, V12: WR with LIVE, the block initialised, the pins idle, no pin failing and no cut completes,
for every address and every data byte: it appends exactly the 37 events, leaves both bytes in the shift registers and on the
bus, writes the one chip register, and changes nothing else but the operand registers and IDX. That A, D and I hold the
operands afterwards, where R18 calls them dead, is the model's choice (log 27). -/
def Obligations.WrDrivesOneRegisterWrite : Prop :=
  ∀ (addr : Address) (data : Data) (s : State), ReadyLive s → NoPinFailure 36 s → NoCut 37 s →
    exec (.wr addr data) s =
      .next { s with
        idx := s.idx + 2
        a := addr.setWidth 8
        d := data
        i := 0
        trace := s.trace ++ registerWriteEvents (addr.setWidth 8) data
        board := boardAfterWrite s.board (addr.setWidth 8) data
        pinWrites := s.pinWrites + 36 }

/-- R34, R75, R78: WRITE_REGISTER checks no address: whatever its two bytes, under LIVE, initialised, with idle pins and no pin
failing, it shifts out all eight bits of the address and writes the register numbered by its low five bits. -/
def Obligations.BusDriverWritesTheLowFiveBits : Prop :=
  ∀ (a d : Byte) (s : State), ReadyLive s → NoPinFailure 36 s → NoCut 37 s →
    ∃ t, writeRegister a d s = .go t ∧
      t.trace = s.trace ++ registerWriteEvents a d ∧ t.board.aq = Stage.ofByte a ∧ t.board.dq = Stage.ofByte d ∧
      (∀ x, Memory.read t.board.chip x = if x = a.toNat % 32 then some d else Memory.read s.board.chip x) ∧
      ReadyLive t

/-- R66, R142, V06: WR under NOOP completes: no pin, no shift register and no chip register changes, and the trace gains the
one Hold of the select pulse. A run that is cut stops before that Hold, its one event. That A, D and I hold the operands
afterwards, where R18 calls them dead, is the model's choice (log 27). -/
def Obligations.WrUnderNoopOnlyHolds : Prop :=
  ∀ (addr : Address) (data : Data) (s : State), s.backend = .noop → s.initialized = true →
    (NoCut 1 s →
      exec (.wr addr data) s =
        .next { s with
          idx := s.idx + 2
          a := addr.setWidth 8
          d := data
          i := 0
          trace := s.trace ++ [.hold .csMin] }) ∧
    (s.params.cutAt = some (s.trace.length + 1) →
      exec (.wr addr data) s = .next { s with a := addr.setWidth 8, d := data, i := 0, cut := true })

/-- R82, R118, V75: a register write before INITIALIZE is the fault NotInitialized with no pin event, under either backend
and before one is chosen. That the fault is taken, as R121 says, and not refused by the model, is log 16. -/
def Obligations.WrBeforeInitializeIsNotInitialized : Prop :=
  ∀ (addr : Address) (data : Data) (s : State), s.initialized = false →
    exec (.wr addr data) s = .next (halted .notInitialized s)

/-- R79, R117, R142, R148, V15: where a WR under LIVE stops: at the first of its 37 events at which a pin write fails or the
run is cut. Exactly the events before it stand, the far side of the pins is what they produce, nothing is undone and nothing
more is driven; a failed write halts, a cut run is marked and nothing is reported (log 22). I is the index of the bit slot
reached, and A and D the operands: what they hold after the stop, where R18 calls them dead, is the model's choice (log 27). -/
def Obligations.WrStopsWhereAWriteFailsOrTheRunIsCut : Prop :=
  ∀ (addr : Address) (data : Data) (s : State) (before after : List PinEvent) (e : PinEvent),
    s.backend = .live → s.initialized = true → s.board.pinMode = .all .output →
    registerWriteEvents (addr.setWidth 8) data = before ++ e :: after →
    NoPinFailure (countWrites before) s → NoCut before.length s →
      (∀ p l, e = .write p l → s.params.cutAt ≠ some (s.trace.length + before.length + 1) →
        s.pinWrites + countWrites before + 1 ∈ s.params.pinFail →
          exec (.wr addr data) s =
            .next (halted (.pinWriteFailure p l)
              { s with
                a := addr.setWidth 8
                d := data
                i := Fin.ofNat 8 (7 - before.length / 4)
                trace := s.trace ++ before
                board := s.board.replay before
                pinWrites := s.pinWrites + countWrites before + 1 })) ∧
      (s.params.cutAt = some (s.trace.length + before.length + 1) →
        exec (.wr addr data) s =
          .next { s with
            a := addr.setWidth 8
            d := data
            i := Fin.ofNat 8 (7 - before.length / 4)
            trace := s.trace ++ before
            board := s.board.replay before
            pinWrites := s.pinWrites + countWrites before
            cut := true })

/-- R96, R116, R121: under `ADDR_POLICY = fatal` each illegal row, whatever its address and data bytes, reports
AddressOutOfRange with the address byte, the data byte and the index of the pair, and halts; WRITE_REGISTER is not called: no
pin, no chip register and no operand register changes. Taking this fault IS the effect of these tokens. -/
def Obligations.IllegalAddressHaltsUnderFatal : Prop :=
  ∀ (a d : Byte) (s : State), s.params.addrPolicy = .fatal →
    exec (.wrIllegal32To63 a d) s = .next (halted (.addressOutOfRange a d (s.idx / 2)) s) ∧
    exec (.wrIllegal64To127 a d) s = .next (halted (.addressOutOfRange a d (s.idx / 2)) s) ∧
    exec (.wrIllegal128To254 a d) s = .next (halted (.addressOutOfRange a d (s.idx / 2)) s)

/-- R97: under `ADDR_POLICY = skip` each illegal row is reported and nothing else: no register write, no halt, and the next
item of the frame follows. -/
def Obligations.IllegalAddressIsSkippedUnderSkip : Prop :=
  ∀ (a d : Byte) (s : State), s.params.addrPolicy = .skip →
    exec (.wrIllegal32To63 a d) s =
      .next { s with diag := s.diag ++ [.fault (.addressOutOfRange a d (s.idx / 2))], idx := s.idx + 2 } ∧
    exec (.wrIllegal64To127 a d) s =
      .next { s with diag := s.diag ++ [.fault (.addressOutOfRange a d (s.idx / 2))], idx := s.idx + 2 } ∧
    exec (.wrIllegal128To254 a d) s =
      .next { s with diag := s.diag ++ [.fault (.addressOutOfRange a d (s.idx / 2))], idx := s.idx + 2 }

/-- R76, S1, C1: what a register write APPENDS TO TRACE, counted. Under LIVE, initialised, with idle pins, no pin failing and no
cut, WRITE_REGISTER of any two bytes, and WR with any operands, completes and appends events of which 36 are Writes and one a
Hold: each serial pin gets its byte's bits, most significant first; the one shared clock 8 pulses; SH_LATCH one; CS_N one Low
pulse with the Hold in it; no write of SH_MR_N or RES_N and no mode setting. -/
def Obligations.RegisterWriteHasEightClockPulses : Prop :=
  ∀ s : State, ReadyLive s → NoPinFailure 36 s → NoCut 37 s →
    (∀ a d : Byte, ∃ t events,
      writeRegister a d s = .go t ∧ t.trace = s.trace ++ events ∧ CountsOfOneWrite a d events) ∧
    (∀ (addr : Address) (data : Data), ∃ t events,
      exec (.wr addr data) s = .next t ∧ t.trace = s.trace ++ events ∧
        CountsOfOneWrite (addr.setWidth 8) data events)

/-! ### Frames of the tokens -/

/-- R75, R79, R85, R126: the frame of WR in every state in which it runs, fails, faults or is cut: the options, the backend,
INITIALIZED, BUF, FRAME, POS, NFRAMES, the input port, the pin modes, the levels of RES_N and SH_MR_N, CHIP_IN_RESET and the
chip clock are unchanged, and TRACE and DIAG only grow. -/
def Obligations.WrLeavesTheReaderAndTheResetPins : Prop :=
  ∀ (addr : Address) (data : Data) (s t : State), exec (.wr addr data) s = .next t →
    t.params = s.params ∧ t.backend = s.backend ∧ t.initialized = s.initialized ∧
    t.buf = s.buf ∧ t.frame = s.frame ∧ t.pos = s.pos ∧ t.nframes = s.nframes ∧ t.input = s.input ∧
    t.micro = s.micro ∧
    t.board.pinMode = s.board.pinMode ∧ t.board.pinLevel.resN = s.board.pinLevel.resN ∧
    t.board.pinLevel.shMrN = s.board.pinLevel.shMrN ∧ t.board.chipInReset = s.board.chipInReset ∧
    t.board.chipClk = s.board.chipClk ∧
    (∃ events, t.trace = s.trace ++ events) ∧ (∃ reports, t.diag = s.diag ++ reports)

/-- R34, R39, R77, R79: of the chip register space a token changes at most the register its address names, whether it
completes, a pin write fails in it or the run is cut in it; END and the illegal forms change none. The address is the operand
zext_8(addr) that WRITE_REGISTER is called with. -/
def Obligations.TokensChangeOnlyTheAddressedRegister : Prop :=
  ∀ s t : State, ReadyLive s →
    (∀ addr data, exec (.wr addr data) s = .next t →
      ∀ x, x ≠ (addressOperand addr).toNat → Memory.read t.board.chip x = Memory.read s.board.chip x) ∧
    (∀ i : Instr, (∀ addr data, i ≠ .wr addr data) → exec i s = .next t →
      ∀ x, Memory.read t.board.chip x = Memory.read s.board.chip x)

/-- R34, R38, R39: the read of the register a register write has just made gives its data byte (for an observer: the block
has no read of the chip, R35). -/
def Obligations.WrittenRegisterHoldsTheData : Prop :=
  ∀ (addr : Address) (data : Data) (s : State), ReadyLive s → NoPinFailure 36 s → NoCut 37 s →
    ∃ t, exec (.wr addr data) s = .next t ∧
      Memory.read t.board.chip addr.toNat = some data ∧
      abus t.board.aq = some addr.toNat ∧ dbus t.board.dq = some data

/-! ### The reader and the drain, step by step -/

/-- A STEP RUNS THE DECODED TOKEN (R88, R93, R94, R96): in EMIT, when the bytes of FRAME from IDX on begin with the encoding
of a well-formed pair token, the step is its exec; in ACCUM at an even frame offset, when the byte at the input port is END's,
the step is END's exec. Nothing is added around exec: END itself takes its byte and advances POS, a pair advances IDX. -/
def Obligations.StepRunsTheDecodedToken : Prop :=
  (∀ (s : State) (i : Instr) (rest : List Byte), s.cut = false →
    i.wf = true → i ≠ .endFrame → s.ctrl = .emit → s.micro = .walk → s.frame.drop s.idx = encode i ++ rest →
      step s = exec i s) ∧
  (∀ (s : State) (events : List InputEvent), s.cut = false →
    s.ctrl = .accum → s.buf.length % 2 = 0 → s.input = .byte 0xFF :: events → step s = exec .endFrame s)

/-- R22, R87, R89, R102, R119, V55: in ACCUM a byte that is no END token is consumed and appended, with no pin event and no
diagnostic, and PARITY toggles, unless BUF holds BUF_CAP bytes: then BufferOverflow, and the byte is not appended. -/
def Obligations.OtherBytesAccumulate : Prop :=
  ∀ (s : State) (b : Byte) (events : List InputEvent),
    s.cut = false → s.ctrl = .accum → s.input = .byte b :: events → ¬ (b = 0xFF ∧ s.buf.length % 2 = 0) →
      (s.params.bufCap ≠ some s.buf.length →
        ∃ t : State, step s = .next t ∧ t.parity = 1 - s.parity ∧
          t = { s with input := events, pos := s.pos + 1, buf := s.buf ++ [b] }) ∧
      (s.params.bufCap = some s.buf.length →
        step s = .next (halted .bufferOverflow { s with input := events, pos := s.pos + 1 }))

/-- R90, R109: in ACCUM the end of the stream discards what is in BUF without any report and ends the run with exit status
0; no pin is written. -/
def Obligations.EndOfStreamEndsTheRunCleanly : Prop :=
  ∀ (s : State) (events : List InputEvent), s.cut = false → s.ctrl = .accum → s.input = .endOfStream :: events →
    step s = .next { s with input := events, buf := [], exit := .zero, ctrl := .done }

/-- R91, R114: in ACCUM an error of the stream discards what is in BUF and takes StreamIoError. -/
def Obligations.StreamErrorHalts : Prop :=
  ∀ (s : State) (events : List InputEvent), s.cut = false → s.ctrl = .accum → s.input = .ioError :: events →
    step s = .next (halted .streamIoError { s with input := events, buf := [] })

/-- R22, R101, R111, R124, R131, R142: with no event at the port the block waits in ACCUM and everything stays as it is (that
waiting is a step is log 5); in DONE and HALT, which the flags `done` and `halted` report, there is no step (the model's fault
runOver, log 6); after the run was cut there is none either (the model's fault runCut, log 22). -/
def Obligations.WaitingKeepsTheStateAndEndsHaveNoStep : Prop :=
  ∀ s : State,
    (s.cut = false → s.ctrl = .accum → s.input = [] → step s = .next s) ∧
    (s.done = true ↔ s.ctrl = .done) ∧ (s.halted = true ↔ s.ctrl = .halt) ∧
    (s.cut = false → s.done = true ∨ s.halted = true → step s = .fault .runOver) ∧
    (s.cut = true → step s = .fault .runCut)

/-- R98, R105, R106, R122, V61, P4: the head of a drain. With DEBUG the frame is reported first. Under `fatal` and
`whole_frame`, if k is the least index with FRAME[2k] >= 32 and a data byte after it, AddressOutOfRange(FRAME[2k],
FRAME[2k+1], k) halts before any pair is driven; where there is no such k, and under `skip` or `per_pair`, the walk begins at
the first item. -/
def Obligations.DrainHeadDumpsAndChecks : Prop :=
  ∀ s : State, s.cut = false → s.ctrl = .emit → s.micro ≠ .walk →
    (s.params.addrPolicy = .fatal → s.params.validateMode = .wholeFrame →
      ∀ (k : Nat) (a d : Byte), s.frame[2 * k]? = some a → s.frame[2 * k + 1]? = some d → 32 ≤ a.toNat →
        (∀ j b, j < k → s.frame[2 * j]? = some b → b.toNat < 32) →
        step s =
          .next (halted (.addressOutOfRange a d k)
            { s with diag := s.diag ++ (if s.params.debug then [.frameDump s.frame] else []) })) ∧
    (s.params.addrPolicy = .skip ∨ s.params.validateMode = .perPair ∨
        (∀ (k : Nat) (a d : Byte), s.frame[2 * k]? = some a → s.frame[2 * k + 1]? = some d → a.toNat < 32) →
      step s =
        .next { s with
          diag := s.diag ++ (if s.params.debug then [.frameDump s.frame] else [])
          idx := 0
          micro := .walk })

/-- R95, R115, V53: a dangling byte at the end of a frame is reported, not range-checked, no pin is written, FAULT, EXIT and
STATE are not written, and the walk goes on past it. -/
def Obligations.DanglingByteIsReportedAndPassed : Prop :=
  ∀ (s : State) (b : Byte), s.cut = false → s.ctrl = .emit → s.micro = .walk → s.frame.drop s.idx = [b] →
    step s = .next { s with diag := s.diag ++ [.fault (.danglingByte b)], idx := s.idx + 2 }

/-- R99, R105, R107: after the last item the reader is in ACCUM again, with the progress report where it is enabled and due,
and no pin event. -/
def Obligations.DrainEndsInAccumulating : Prop :=
  ∀ s : State, s.cut = false → s.ctrl = .emit → s.micro = .walk → s.frame.length ≤ s.idx →
    (∀ n, s.params.progressN = some n → s.nframes % n = 0 →
      step s = .next { s with diag := s.diag ++ [.progress s.nframes], ctrl := .accum, micro := .entry }) ∧
    (∀ n, s.params.progressN = some n → s.nframes % n ≠ 0 →
      step s = .next { s with ctrl := .accum, micro := .entry }) ∧
    (s.params.progressN = none → step s = .next { s with ctrl := .accum, micro := .entry })

/-! ### Power-on and invariants -/

/-- R31: the power-on table, for every row to which the spec gives a value. The dead registers FRAME, IDX, A, D and I are not
in this statement: their values are the model's (log 1). -/
def Obligations.PowerOnTable : Prop :=
  State.reset.ctrl = .off ∧ State.reset.backend = .notYetChosen ∧ State.reset.initialized = false ∧
  (∀ p, State.reset.board.pinMode.get p = .unconfigured) ∧ (∀ p, State.reset.board.pinLevel.get p = none) ∧
  State.reset.buf = [] ∧ State.reset.pos = 0 ∧ State.reset.nframes = 0 ∧
  State.reset.fault = none ∧ State.reset.finfo = .noValue ∧ State.reset.exit = .none ∧
  State.reset.trace = [] ∧ State.reset.diag = [] ∧
  State.reset.board.asr = .undefined ∧ State.reset.board.dsr = .undefined ∧
  State.reset.board.aq = .undefined ∧ State.reset.board.dq = .undefined ∧
  (∀ x, Memory.read State.reset.board.chip x = none) ∧
  State.reset.board.chipInReset = none ∧ State.reset.board.chipClk = .running

/-- Every invariant below holds at power-on. -/
def Obligations.PowerOnMeetsEveryInvariant : Prop :=
  Memory.wf State.reset.board.chip = true ∧ BoardFollowsTrace State.reset ∧ IdleBetweenSteps State.reset ∧
  ExitAgrees State.reset ∧ FramesWhole State.reset ∧ PulsesSafe State.reset ∧ BufferWithinCap State.reset

/-- R33: every step keeps the chip register space in its canonical form: addresses strictly rising and below 32. -/
def Obligations.StepKeepsChipSpaceCanonical : Prop :=
  ∀ s t : State, Memory.wf s.board.chip = true → step s = .next t → Memory.wf t.board.chip = true

/-- R66, R123, R135, R142: every step, one in which a pin write fails or the run is cut too, keeps this: the far side of the
pins is exactly what the events in TRACE produce from power-on, and is still the power-on board unless the backend is LIVE. -/
def Obligations.StepKeepsBoardFollowingTrace : Prop :=
  ∀ s t : State, BoardFollowsTrace s → step s = .next t → BoardFollowsTrace t

/-- R77, R82, R101, R118, R142: every step keeps this: whenever the block is running it is initialised and, under LIVE, its
pins are idle between steps, and NotInitialized has never been reported. -/
def Obligations.StepKeepsPinsIdleBetweenSteps : Prop :=
  ∀ s t : State, IdleBetweenSteps s → step s = .next t → IdleBetweenSteps t

/-- R21, R135: every step keeps STATE, EXIT, FAULT, FINFO and the end of DIAG in agreement. -/
def Obligations.StepKeepsExitAgreement : Prop :=
  ∀ s t : State, ExitAgrees s → step s = .next t → ExitAgrees t

/-- R92, R115: every step keeps this: BUF has no sentinel at an even offset, the frame being drained has even length and none
either, and no dangling byte has ever been reported. -/
def Obligations.StepKeepsFramesWhole : Prop :=
  ∀ s t : State, FramesWhole s → step s = .next t → FramesWhole t

/-- R137, R138, R140: every step keeps this: in the whole trace CS_N rises only after a Hold of at least T_CS_MIN and RES_N
only after one of at least T_RES_MIN, and no pin but CS_N is written while CS_N is Low. -/
def Obligations.StepKeepsPulsesSafe : Prop :=
  ∀ s t : State, PulsesSafe s → step s = .next t → PulsesSafe t

/-- R102: every step keeps BUF within BUF_CAP. -/
def Obligations.StepKeepsBufferWithinCap : Prop :=
  ∀ s t : State, BufferWithinCap s → step s = .next t → BufferWithinCap t

/-! ### Rules about the whole machine -/

/-- R15: a step moves STATE only along the listed transitions; DONE and HALT have no successor. OFF to OFF and EMIT to EMIT
are the model's smaller steps (log 4). -/
def Obligations.StepsFollowTheLegalTransitions : Prop :=
  ∀ s t : State, step s = .next t → legalTransition s.ctrl t.ctrl = true

/-- R23, R24, R85, R110: TRACE and DIAG only grow. After STARTUP the only events are Holds and Writes of the five pins of a
register write, so the stream can not reset the chip, clear the shift registers or change a pin mode; in ACCUM there is no
event and nothing behind the pins changes. -/
def Obligations.StreamReachesOnlyTheFivePins : Prop :=
  ∀ s t : State, step s = .next t →
    (∃ events, t.trace = s.trace ++ events ∧
      (notStarted s = false → events.all steadyEvent = true) ∧
      (s.ctrl = .accum → events = [] ∧ t.board = s.board)) ∧
    (∃ reports, t.diag = s.diag ++ reports)

/-- R19, R25, R110: a step takes at most one input event, the first one, and only in ACCUM; POS counts the bytes taken. -/
def Obligations.InputIsTakenInOrderOnlyInAccum : Prop :=
  ∀ s t : State, step s = .next t →
    ∃ taken, s.input = taken ++ t.input ∧ taken.length ≤ 1 ∧
      t.pos = s.pos + (bytesOf taken).length ∧ (s.ctrl ≠ .accum → taken = [])

/-- R6, R10, R13, R14, R85, R148: no step changes an option or a parameter or the chip clock; after STARTUP none changes the
backend, INITIALIZED or a pin mode. -/
def Obligations.SettingsAreFixedForTheRun : Prop :=
  ∀ s t : State, step s = .next t →
    t.params = s.params ∧ t.board.chipClk = s.board.chipClk ∧
    (notStarted s = false →
      t.backend = s.backend ∧ t.initialized = s.initialized ∧ t.board.pinMode = s.board.pinMode)

/-- R24, R106, R107, R130: the diagnostic options change nothing else. Two states that agree but for DEBUG, PROGRESS_N and
what DIAG holds step alike, and to states that again agree so. -/
def Obligations.DiagnosticsDoNotInterfere : Prop :=
  ∀ s s' : State, withoutDiagnostics s = withoutDiagnostics s' →
    viewed withoutDiagnostics (step s) = viewed withoutDiagnostics (step s')

/-- R66: everything upstream of the Pin Interface behaves identically under both backends. With no pin failing and no cut, a
step under LIVE of a running, initialised block, seen with the far side of the pins taken away, is exactly the step under
NOOP. -/
def Obligations.NoopBehavesAsLiveUpstream : Prop :=
  ∀ s : State, s.backend = .live → running s = true → s.initialized = true →
    s.board.pinMode = .all .output → s.params.pinFail = [] → s.params.cutAt = none →
      step (asNoop s) = viewed asNoop (step s)

/-- R45, R47, R76, R100, R111: whatever bytes the stream delivers, from ACCUM under LIVE with idle pins, no pin failing, no
cut and BUF unbounded, if every frame they end holds only pairs with valid addresses: the block comes back to ACCUM with the
stream consumed, having made for every pair of every frame, in order, exactly one complete register write and no other event;
the chip holds what those writes in order leave; the tail stays in BUF undriven; nothing is reported but the frame dumps of
DEBUG. -/
def Obligations.StreamIsDrivenPairByPair : Prop :=
  ∀ (s : State) (bytes : List Byte) (frames : List (List Byte)) (tail : List Byte),
    s.cut = false → s.ctrl = .accum → s.input = bytes.map .byte → ReadyLive s →
    (∀ n ∈ s.params.pinFail, n ≤ s.pinWrites) → (∀ n, s.params.cutAt = some n → n ≤ s.trace.length) →
    s.params.bufCap = none → s.params.progressN = none →
    splitFrames s.buf bytes = (frames, tail) → (∀ f ∈ frames, validPairs f = true) →
      ∃ (n : Nat) (t : State), Sys2Proof.core.run n s = .next t ∧
        t.ctrl = .accum ∧ t.input = [] ∧ t.buf = tail ∧
        t.pos = s.pos + bytes.length ∧ t.nframes = s.nframes + frames.length ∧
        t.trace = s.trace ++ (frames.flatMap pairsOf).flatMap (fun w => registerWriteEvents w.1 w.2) ∧
        t.board.chip = (frames.flatMap pairsOf).foldl (fun m w => Memory.write m w.1.toNat w.2) s.board.chip ∧
        t.diag = s.diag ++ (if s.params.debug then frames.map .frameDump else []) ∧
        t.exit = s.exit ∧ t.fault = s.fault ∧ t.cut = false ∧ ReadyLive t
end

