-- ==== Sys2Proof/Laws/Memory.lean ====
section
/-! SUPPORT. The laws of the chip register space: read after write, the frame of a write, and the canonical form. -/

namespace Sys2Proof.Machine

@[simp] theorem memory_read_nil (x : Nat) : Memory.read [] x = none := rfl

theorem memory_read_write (m : Memory) (a : Nat) (v : Byte) (x : Nat) :
    Memory.read (Memory.write m a v) x = if x = a then some v else Memory.read m x := by
  induction m with
  | nil => simp [Memory.write, Memory.read]
  | cons c m ih =>
    obtain ⟨k, w⟩ := c
    unfold Memory.write
    split
    · simp only [Memory.read]
    · split
      · rename_i h
        subst h
        simp only [Memory.read]
        split <;> rfl
      · rename_i h1 h2
        simp only [Memory.read, ih]
        split
        · rename_i h3
          have : x ≠ a := fun e => h2 (e ▸ h3)
          simp [this]
        · rfl

theorem memory_read_write_same (m : Memory) (a : Nat) (v : Byte) :
    Memory.read (Memory.write m a v) a = some v := by simp [memory_read_write]

theorem memory_read_write_other (m : Memory) {a x : Nat} (v : Byte) (h : x ≠ a) :
    Memory.read (Memory.write m a v) x = Memory.read m x := by simp [memory_read_write, h]

theorem memory_read_erase (m : Memory) (a x : Nat) :
    Memory.read (Memory.erase m a) x = if x = a then none else Memory.read m x := by
  induction m with
  | nil => simp [Memory.erase, Memory.read]
  | cons c m ih =>
    obtain ⟨k, w⟩ := c
    unfold Memory.erase
    split
    · rename_i h
      subst h
      simp only [Memory.read, ih]
      split <;> rfl
    · rename_i h
      simp only [Memory.read, ih]
      split
      · rename_i h3
        have : x ≠ a := fun e => h (e ▸ h3)
        simp [this]
      · rfl

/-! ### The canonical form -/

@[simp] theorem sortedFrom_nil (lo : Nat) : Memory.sortedFrom lo [] = true := rfl

@[simp] theorem sortedFrom_cons (lo k : Nat) (v : Byte) (m : Memory) :
    Memory.sortedFrom lo ((k, v) :: m) = true ↔
      (lo ≤ k ∧ k < Config.addrLimit) ∧ Memory.sortedFrom (k + 1) m = true := by
  simp [Memory.sortedFrom]

theorem sortedFrom_mono {m : Memory} {lo lo' : Nat} (h : lo' ≤ lo) (hm : Memory.sortedFrom lo m = true) :
    Memory.sortedFrom lo' m = true := by
  cases m with
  | nil => rfl
  | cons c m =>
    obtain ⟨k, v⟩ := c
    rw [sortedFrom_cons] at hm ⊢
    exact ⟨⟨by omega, hm.1.2⟩, hm.2⟩

theorem memory_write_sorted {m : Memory} {lo a : Nat} (v : Byte) (hlo : lo ≤ a) (ha : a < Config.addrLimit)
    (hm : Memory.sortedFrom lo m = true) : Memory.sortedFrom lo (Memory.write m a v) = true := by
  induction m generalizing lo with
  | nil => simp [Memory.write, hlo, ha]
  | cons c m ih =>
    obtain ⟨k, w⟩ := c
    rw [sortedFrom_cons] at hm
    unfold Memory.write
    split
    · rw [sortedFrom_cons, sortedFrom_cons]
      exact ⟨⟨hlo, ha⟩, ⟨by omega, hm.1.2⟩, hm.2⟩
    · split
      · rename_i h
        subst h
        rw [sortedFrom_cons]
        exact ⟨⟨hlo, ha⟩, hm.2⟩
      · rw [sortedFrom_cons]
        exact ⟨hm.1, ih (by omega) hm.2⟩

theorem memory_erase_sorted {m : Memory} {lo : Nat} (a : Nat) (hm : Memory.sortedFrom lo m = true) :
    Memory.sortedFrom lo (Memory.erase m a) = true := by
  induction m generalizing lo with
  | nil => rfl
  | cons c m ih =>
    obtain ⟨k, w⟩ := c
    rw [sortedFrom_cons] at hm
    unfold Memory.erase
    split
    · exact ih (sortedFrom_mono (by omega) hm.2)
    · rw [sortedFrom_cons]
      exact ⟨hm.1, ih hm.2⟩

/-- A write keeps the canonical form. -/
theorem memory_write_wf {m : Memory} {a : Nat} (v : Byte) (ha : a < Config.addrLimit) (hm : Memory.wf m = true) :
    Memory.wf (Memory.write m a v) = true := memory_write_sorted v (Nat.zero_le _) ha hm

/-- Making a cell `Undefined` keeps the canonical form. -/
theorem memory_erase_wf {m : Memory} (a : Nat) (hm : Memory.wf m = true) : Memory.wf (Memory.erase m a) = true :=
  memory_erase_sorted a hm

@[simp] theorem memory_nil_wf : Memory.wf [] = true := rfl

/-- In canonical form the list is determined by what reads from it. -/
theorem memory_read_below {m : Memory} {lo x : Nat} (hm : Memory.sortedFrom lo m = true) (hx : x < lo) :
    Memory.read m x = none := by
  induction m generalizing lo with
  | nil => rfl
  | cons c m ih =>
    obtain ⟨k, w⟩ := c
    rw [sortedFrom_cons] at hm
    have hne : x ≠ k := by omega
    simp only [Memory.read, hne, if_false]
    exact ih hm.2 (by omega)

end Sys2Proof.Machine
end

