-- ==== Sys2Proof/Laws/Pins.lean ====
section
/-! SUPPORT. The laws of the per-pin registers, of levels and of the stages. -/

namespace Sys2Proof.Machine

@[simp] theorem perPin_get_all {α : Type} (v : α) (p : Pin) : (PerPin.all v).get p = v := by cases p <;> rfl

theorem perPin_get_set {α : Type} (m : PerPin α) (p q : Pin) (v : α) :
    (m.set p v).get q = if q = p then v else m.get q := by
  cases p <;> cases q <;> rfl

@[simp] theorem perPin_get_set_same {α : Type} (m : PerPin α) (p : Pin) (v : α) : (m.set p v).get p = v := by
  simp [perPin_get_set]

@[simp] theorem levelBit_levelOf (b : Bool) : levelBit (levelOf b) = b := by cases b <;> rfl

@[simp] theorem levelOf_levelBit (l : Level) : levelOf (levelBit l) = l := by cases l <;> rfl

/-- Eight shifts replace every bit of a stage: bit 7 of the byte first (R41). -/
theorem stage_eight_shifts (st : Stage) (v : Byte) :
    ((((((((st.shift (some (levelOf (bit v 7)))).shift (some (levelOf (bit v 6)))).shift
      (some (levelOf (bit v 5)))).shift (some (levelOf (bit v 4)))).shift (some (levelOf (bit v 3)))).shift
      (some (levelOf (bit v 2)))).shift (some (levelOf (bit v 1)))).shift (some (levelOf (bit v 0)))) =
      Stage.ofByte v := rfl

/-- The address bus of a stage that holds a byte is its low five bits (R28, R78). -/
theorem abus_ofByte (v : Byte) : abus (Stage.ofByte v) = some (v.toNat % 32) := by
  revert v
  decide

/-- The data bus of a stage that holds a byte is the byte (R28). -/
theorem dbus_ofByte (v : Byte) : dbus (Stage.ofByte v) = some v := by
  revert v
  decide

theorem wireNat_le {w : Wire} {n : Nat} (h : wireNat w = some n) : n ≤ 1 := by
  cases w with
  | none => cases h
  | some l => cases l <;> (cases h; decide)

/-- The number on `ws` after `acc` is below `(acc + 1) * 2 ^ length`. -/
theorem wiresNat_lt {ws : List Wire} {acc n : Nat} (h : wiresNat acc ws = some n) :
    n < (acc + 1) * 2 ^ ws.length := by
  induction ws generalizing acc with
  | nil =>
    cases h
    simp
  | cons w ws ih =>
    unfold wiresNat at h
    split at h
    · cases h
    · rename_i k hk
      have h1 := ih h
      have h2 := wireNat_le hk
      have h3 : (2 * acc + k + 1) * 2 ^ ws.length ≤ (2 * acc + 2) * 2 ^ ws.length :=
        Nat.mul_le_mul_right _ (by omega)
      calc n < (2 * acc + k + 1) * 2 ^ ws.length := h1
        _ ≤ (2 * acc + 2) * 2 ^ ws.length := h3
        _ = (acc + 1) * 2 ^ (w :: ws).length := by rw [List.length_cons, Nat.pow_succ]; ring

/-- Every address the chip sees is one of its 32 registers (R33). -/
theorem abus_lt {aq : Stage} {k : Nat} (h : abus aq = some k) : k < Config.addrLimit := by
  have := wiresNat_lt h
  simpa [Config.addrLimit, Stage.lowWires, Config.shiftBits, Config.addrBits] using this

theorem addressOperand_toNat (addr : Address) : (addressOperand addr).toNat = addr.toNat := by
  have h : addr.toNat < 32 := addr.isLt
  simp only [addressOperand, BitVec.toNat_setWidth]
  omega

end Sys2Proof.Machine
end

