-- ==== Sys2Proof/Laws/State.lean ====
section
/-! SUPPORT. One lemma per field for each update of the state and of the board, true by rfl. -/

namespace Sys2Proof.Machine

/-! ### report -/

@[simp] theorem report_params (e : DiagEvent) (s : State) : (report e s).params = s.params := rfl
@[simp] theorem report_board (e : DiagEvent) (s : State) : (report e s).board = s.board := rfl
@[simp] theorem report_backend (e : DiagEvent) (s : State) : (report e s).backend = s.backend := rfl
@[simp] theorem report_initialized (e : DiagEvent) (s : State) : (report e s).initialized = s.initialized := rfl
@[simp] theorem report_ctrl (e : DiagEvent) (s : State) : (report e s).ctrl = s.ctrl := rfl
@[simp] theorem report_micro (e : DiagEvent) (s : State) : (report e s).micro = s.micro := rfl
@[simp] theorem report_buf (e : DiagEvent) (s : State) : (report e s).buf = s.buf := rfl
@[simp] theorem report_frame (e : DiagEvent) (s : State) : (report e s).frame = s.frame := rfl
@[simp] theorem report_idx (e : DiagEvent) (s : State) : (report e s).idx = s.idx := rfl
@[simp] theorem report_a (e : DiagEvent) (s : State) : (report e s).a = s.a := rfl
@[simp] theorem report_d (e : DiagEvent) (s : State) : (report e s).d = s.d := rfl
@[simp] theorem report_i (e : DiagEvent) (s : State) : (report e s).i = s.i := rfl
@[simp] theorem report_pos (e : DiagEvent) (s : State) : (report e s).pos = s.pos := rfl
@[simp] theorem report_nframes (e : DiagEvent) (s : State) : (report e s).nframes = s.nframes := rfl
@[simp] theorem report_fault (e : DiagEvent) (s : State) : (report e s).fault = s.fault := rfl
@[simp] theorem report_finfo (e : DiagEvent) (s : State) : (report e s).finfo = s.finfo := rfl
@[simp] theorem report_exit (e : DiagEvent) (s : State) : (report e s).exit = s.exit := rfl
@[simp] theorem report_trace (e : DiagEvent) (s : State) : (report e s).trace = s.trace := rfl
@[simp] theorem report_diag (e : DiagEvent) (s : State) : (report e s).diag = s.diag ++ [e] := rfl
@[simp] theorem report_input (e : DiagEvent) (s : State) : (report e s).input = s.input := rfl
@[simp] theorem report_pinWrites (e : DiagEvent) (s : State) : (report e s).pinWrites = s.pinWrites := rfl
@[simp] theorem report_cut (e : DiagEvent) (s : State) : (report e s).cut = s.cut := rfl

/-! ### emit -/

@[simp] theorem emit_params (e : PinEvent) (s : State) : (emit e s).params = s.params := rfl
@[simp] theorem emit_board (e : PinEvent) (s : State) : (emit e s).board = s.board.react e := rfl
@[simp] theorem emit_backend (e : PinEvent) (s : State) : (emit e s).backend = s.backend := rfl
@[simp] theorem emit_initialized (e : PinEvent) (s : State) : (emit e s).initialized = s.initialized := rfl
@[simp] theorem emit_ctrl (e : PinEvent) (s : State) : (emit e s).ctrl = s.ctrl := rfl
@[simp] theorem emit_micro (e : PinEvent) (s : State) : (emit e s).micro = s.micro := rfl
@[simp] theorem emit_buf (e : PinEvent) (s : State) : (emit e s).buf = s.buf := rfl
@[simp] theorem emit_frame (e : PinEvent) (s : State) : (emit e s).frame = s.frame := rfl
@[simp] theorem emit_idx (e : PinEvent) (s : State) : (emit e s).idx = s.idx := rfl
@[simp] theorem emit_a (e : PinEvent) (s : State) : (emit e s).a = s.a := rfl
@[simp] theorem emit_d (e : PinEvent) (s : State) : (emit e s).d = s.d := rfl
@[simp] theorem emit_i (e : PinEvent) (s : State) : (emit e s).i = s.i := rfl
@[simp] theorem emit_pos (e : PinEvent) (s : State) : (emit e s).pos = s.pos := rfl
@[simp] theorem emit_nframes (e : PinEvent) (s : State) : (emit e s).nframes = s.nframes := rfl
@[simp] theorem emit_fault (e : PinEvent) (s : State) : (emit e s).fault = s.fault := rfl
@[simp] theorem emit_finfo (e : PinEvent) (s : State) : (emit e s).finfo = s.finfo := rfl
@[simp] theorem emit_exit (e : PinEvent) (s : State) : (emit e s).exit = s.exit := rfl
@[simp] theorem emit_trace (e : PinEvent) (s : State) : (emit e s).trace = s.trace ++ [e] := rfl
@[simp] theorem emit_diag (e : PinEvent) (s : State) : (emit e s).diag = s.diag := rfl
@[simp] theorem emit_input (e : PinEvent) (s : State) : (emit e s).input = s.input := rfl
@[simp] theorem emit_pinWrites (e : PinEvent) (s : State) : (emit e s).pinWrites = s.pinWrites := rfl
@[simp] theorem emit_cut (e : PinEvent) (s : State) : (emit e s).cut = s.cut := rfl

/-! ### takeEvent -/

@[simp] theorem takeEvent_params (s : State) : (takeEvent s).params = s.params := rfl
@[simp] theorem takeEvent_board (s : State) : (takeEvent s).board = s.board := rfl
@[simp] theorem takeEvent_backend (s : State) : (takeEvent s).backend = s.backend := rfl
@[simp] theorem takeEvent_initialized (s : State) : (takeEvent s).initialized = s.initialized := rfl
@[simp] theorem takeEvent_ctrl (s : State) : (takeEvent s).ctrl = s.ctrl := rfl
@[simp] theorem takeEvent_micro (s : State) : (takeEvent s).micro = s.micro := rfl
@[simp] theorem takeEvent_buf (s : State) : (takeEvent s).buf = s.buf := rfl
@[simp] theorem takeEvent_frame (s : State) : (takeEvent s).frame = s.frame := rfl
@[simp] theorem takeEvent_idx (s : State) : (takeEvent s).idx = s.idx := rfl
@[simp] theorem takeEvent_a (s : State) : (takeEvent s).a = s.a := rfl
@[simp] theorem takeEvent_d (s : State) : (takeEvent s).d = s.d := rfl
@[simp] theorem takeEvent_i (s : State) : (takeEvent s).i = s.i := rfl
@[simp] theorem takeEvent_pos (s : State) : (takeEvent s).pos = s.pos := rfl
@[simp] theorem takeEvent_nframes (s : State) : (takeEvent s).nframes = s.nframes := rfl
@[simp] theorem takeEvent_fault (s : State) : (takeEvent s).fault = s.fault := rfl
@[simp] theorem takeEvent_finfo (s : State) : (takeEvent s).finfo = s.finfo := rfl
@[simp] theorem takeEvent_exit (s : State) : (takeEvent s).exit = s.exit := rfl
@[simp] theorem takeEvent_trace (s : State) : (takeEvent s).trace = s.trace := rfl
@[simp] theorem takeEvent_diag (s : State) : (takeEvent s).diag = s.diag := rfl
@[simp] theorem takeEvent_input (s : State) : (takeEvent s).input = s.input.drop 1 := rfl
@[simp] theorem takeEvent_pinWrites (s : State) : (takeEvent s).pinWrites = s.pinWrites := rfl
@[simp] theorem takeEvent_cut (s : State) : (takeEvent s).cut = s.cut := rfl

/-! ### takeByte -/

@[simp] theorem takeByte_params (s : State) : (takeByte s).params = s.params := rfl
@[simp] theorem takeByte_board (s : State) : (takeByte s).board = s.board := rfl
@[simp] theorem takeByte_backend (s : State) : (takeByte s).backend = s.backend := rfl
@[simp] theorem takeByte_initialized (s : State) : (takeByte s).initialized = s.initialized := rfl
@[simp] theorem takeByte_ctrl (s : State) : (takeByte s).ctrl = s.ctrl := rfl
@[simp] theorem takeByte_micro (s : State) : (takeByte s).micro = s.micro := rfl
@[simp] theorem takeByte_buf (s : State) : (takeByte s).buf = s.buf := rfl
@[simp] theorem takeByte_frame (s : State) : (takeByte s).frame = s.frame := rfl
@[simp] theorem takeByte_idx (s : State) : (takeByte s).idx = s.idx := rfl
@[simp] theorem takeByte_a (s : State) : (takeByte s).a = s.a := rfl
@[simp] theorem takeByte_d (s : State) : (takeByte s).d = s.d := rfl
@[simp] theorem takeByte_i (s : State) : (takeByte s).i = s.i := rfl
@[simp] theorem takeByte_pos (s : State) : (takeByte s).pos = s.pos + 1 := rfl
@[simp] theorem takeByte_nframes (s : State) : (takeByte s).nframes = s.nframes := rfl
@[simp] theorem takeByte_fault (s : State) : (takeByte s).fault = s.fault := rfl
@[simp] theorem takeByte_finfo (s : State) : (takeByte s).finfo = s.finfo := rfl
@[simp] theorem takeByte_exit (s : State) : (takeByte s).exit = s.exit := rfl
@[simp] theorem takeByte_trace (s : State) : (takeByte s).trace = s.trace := rfl
@[simp] theorem takeByte_diag (s : State) : (takeByte s).diag = s.diag := rfl
@[simp] theorem takeByte_input (s : State) : (takeByte s).input = s.input.drop 1 := rfl
@[simp] theorem takeByte_pinWrites (s : State) : (takeByte s).pinWrites = s.pinWrites := rfl
@[simp] theorem takeByte_cut (s : State) : (takeByte s).cut = s.cut := rfl

/-! ### emitFrame -/

@[simp] theorem emitFrame_params (s : State) : (emitFrame s).params = s.params := rfl
@[simp] theorem emitFrame_board (s : State) : (emitFrame s).board = s.board := rfl
@[simp] theorem emitFrame_backend (s : State) : (emitFrame s).backend = s.backend := rfl
@[simp] theorem emitFrame_initialized (s : State) : (emitFrame s).initialized = s.initialized := rfl
@[simp] theorem emitFrame_ctrl (s : State) : (emitFrame s).ctrl = .emit := rfl
@[simp] theorem emitFrame_micro (s : State) : (emitFrame s).micro = .entry := rfl
@[simp] theorem emitFrame_buf (s : State) : (emitFrame s).buf = [] := rfl
@[simp] theorem emitFrame_frame (s : State) : (emitFrame s).frame = s.buf := rfl
@[simp] theorem emitFrame_idx (s : State) : (emitFrame s).idx = 0 := rfl
@[simp] theorem emitFrame_a (s : State) : (emitFrame s).a = s.a := rfl
@[simp] theorem emitFrame_d (s : State) : (emitFrame s).d = s.d := rfl
@[simp] theorem emitFrame_i (s : State) : (emitFrame s).i = s.i := rfl
@[simp] theorem emitFrame_pos (s : State) : (emitFrame s).pos = s.pos := rfl
@[simp] theorem emitFrame_nframes (s : State) : (emitFrame s).nframes = s.nframes + 1 := rfl
@[simp] theorem emitFrame_fault (s : State) : (emitFrame s).fault = s.fault := rfl
@[simp] theorem emitFrame_finfo (s : State) : (emitFrame s).finfo = s.finfo := rfl
@[simp] theorem emitFrame_exit (s : State) : (emitFrame s).exit = s.exit := rfl
@[simp] theorem emitFrame_trace (s : State) : (emitFrame s).trace = s.trace := rfl
@[simp] theorem emitFrame_diag (s : State) : (emitFrame s).diag = s.diag := rfl
@[simp] theorem emitFrame_input (s : State) : (emitFrame s).input = s.input := rfl
@[simp] theorem emitFrame_pinWrites (s : State) : (emitFrame s).pinWrites = s.pinWrites := rfl
@[simp] theorem emitFrame_cut (s : State) : (emitFrame s).cut = s.cut := rfl

/-! ### cutRun -/

@[simp] theorem cutRun_params (s : State) : (cutRun s).params = s.params := rfl
@[simp] theorem cutRun_board (s : State) : (cutRun s).board = s.board := rfl
@[simp] theorem cutRun_backend (s : State) : (cutRun s).backend = s.backend := rfl
@[simp] theorem cutRun_initialized (s : State) : (cutRun s).initialized = s.initialized := rfl
@[simp] theorem cutRun_ctrl (s : State) : (cutRun s).ctrl = s.ctrl := rfl
@[simp] theorem cutRun_micro (s : State) : (cutRun s).micro = s.micro := rfl
@[simp] theorem cutRun_buf (s : State) : (cutRun s).buf = s.buf := rfl
@[simp] theorem cutRun_frame (s : State) : (cutRun s).frame = s.frame := rfl
@[simp] theorem cutRun_idx (s : State) : (cutRun s).idx = s.idx := rfl
@[simp] theorem cutRun_a (s : State) : (cutRun s).a = s.a := rfl
@[simp] theorem cutRun_d (s : State) : (cutRun s).d = s.d := rfl
@[simp] theorem cutRun_i (s : State) : (cutRun s).i = s.i := rfl
@[simp] theorem cutRun_pos (s : State) : (cutRun s).pos = s.pos := rfl
@[simp] theorem cutRun_nframes (s : State) : (cutRun s).nframes = s.nframes := rfl
@[simp] theorem cutRun_fault (s : State) : (cutRun s).fault = s.fault := rfl
@[simp] theorem cutRun_finfo (s : State) : (cutRun s).finfo = s.finfo := rfl
@[simp] theorem cutRun_exit (s : State) : (cutRun s).exit = s.exit := rfl
@[simp] theorem cutRun_trace (s : State) : (cutRun s).trace = s.trace := rfl
@[simp] theorem cutRun_diag (s : State) : (cutRun s).diag = s.diag := rfl
@[simp] theorem cutRun_input (s : State) : (cutRun s).input = s.input := rfl
@[simp] theorem cutRun_pinWrites (s : State) : (cutRun s).pinWrites = s.pinWrites := rfl
@[simp] theorem cutRun_cut (s : State) : (cutRun s).cut = true := rfl

/-! ### Board.setLevel -/

@[simp] theorem setLevel_pinMode (b : Board) (p : Pin) (l : Level) : (b.setLevel p l).pinMode = b.pinMode := rfl
@[simp] theorem setLevel_pinLevel (b : Board) (p : Pin) (l : Level) : (b.setLevel p l).pinLevel = b.pinLevel.set p (some l) := rfl
@[simp] theorem setLevel_asr (b : Board) (p : Pin) (l : Level) : (b.setLevel p l).asr = b.asr := rfl
@[simp] theorem setLevel_dsr (b : Board) (p : Pin) (l : Level) : (b.setLevel p l).dsr = b.dsr := rfl
@[simp] theorem setLevel_aq (b : Board) (p : Pin) (l : Level) : (b.setLevel p l).aq = b.aq := rfl
@[simp] theorem setLevel_dq (b : Board) (p : Pin) (l : Level) : (b.setLevel p l).dq = b.dq := rfl
@[simp] theorem setLevel_chip (b : Board) (p : Pin) (l : Level) : (b.setLevel p l).chip = b.chip := rfl
@[simp] theorem setLevel_chipInReset (b : Board) (p : Pin) (l : Level) : (b.setLevel p l).chipInReset = b.chipInReset := rfl
@[simp] theorem setLevel_resetHeld (b : Board) (p : Pin) (l : Level) : (b.setLevel p l).resetHeld = b.resetHeld := rfl
@[simp] theorem setLevel_select (b : Board) (p : Pin) (l : Level) : (b.setLevel p l).select = b.select := rfl
@[simp] theorem setLevel_chipClk (b : Board) (p : Pin) (l : Level) : (b.setLevel p l).chipClk = b.chipClk := rfl

/-! ### Board.setOutput -/

@[simp] theorem setOutput_pinMode (b : Board) (p : Pin) : (b.setOutput p).pinMode = b.pinMode.set p .output := rfl
@[simp] theorem setOutput_pinLevel (b : Board) (p : Pin) : (b.setOutput p).pinLevel = b.pinLevel := rfl
@[simp] theorem setOutput_asr (b : Board) (p : Pin) : (b.setOutput p).asr = b.asr := rfl
@[simp] theorem setOutput_dsr (b : Board) (p : Pin) : (b.setOutput p).dsr = b.dsr := rfl
@[simp] theorem setOutput_aq (b : Board) (p : Pin) : (b.setOutput p).aq = b.aq := rfl
@[simp] theorem setOutput_dq (b : Board) (p : Pin) : (b.setOutput p).dq = b.dq := rfl
@[simp] theorem setOutput_chip (b : Board) (p : Pin) : (b.setOutput p).chip = b.chip := rfl
@[simp] theorem setOutput_chipInReset (b : Board) (p : Pin) : (b.setOutput p).chipInReset = b.chipInReset := rfl
@[simp] theorem setOutput_resetHeld (b : Board) (p : Pin) : (b.setOutput p).resetHeld = b.resetHeld := rfl
@[simp] theorem setOutput_select (b : Board) (p : Pin) : (b.setOutput p).select = b.select := rfl
@[simp] theorem setOutput_chipClk (b : Board) (p : Pin) : (b.setOutput p).chipClk = b.chipClk := rfl

/-! ### Board.forgetChip -/

@[simp] theorem forgetChip_pinMode (b : Board) : (b.forgetChip).pinMode = b.pinMode := rfl
@[simp] theorem forgetChip_pinLevel (b : Board) : (b.forgetChip).pinLevel = b.pinLevel := rfl
@[simp] theorem forgetChip_asr (b : Board) : (b.forgetChip).asr = b.asr := rfl
@[simp] theorem forgetChip_dsr (b : Board) : (b.forgetChip).dsr = b.dsr := rfl
@[simp] theorem forgetChip_aq (b : Board) : (b.forgetChip).aq = b.aq := rfl
@[simp] theorem forgetChip_dq (b : Board) : (b.forgetChip).dq = b.dq := rfl
@[simp] theorem forgetChip_chip (b : Board) : (b.forgetChip).chip = [] := rfl
@[simp] theorem forgetChip_chipInReset (b : Board) : (b.forgetChip).chipInReset = b.chipInReset := rfl
@[simp] theorem forgetChip_resetHeld (b : Board) : (b.forgetChip).resetHeld = b.resetHeld := rfl
@[simp] theorem forgetChip_select (b : Board) : (b.forgetChip).select = b.select := rfl
@[simp] theorem forgetChip_chipClk (b : Board) : (b.forgetChip).chipClk = b.chipClk := rfl

/-! ### Board.shiftStages -/

@[simp] theorem shiftStages_pinMode (b : Board) : (b.shiftStages).pinMode = b.pinMode := rfl
@[simp] theorem shiftStages_pinLevel (b : Board) : (b.shiftStages).pinLevel = b.pinLevel := rfl
@[simp] theorem shiftStages_asr (b : Board) : (b.shiftStages).asr = b.asr.shift b.pinLevel.addrSer := rfl
@[simp] theorem shiftStages_dsr (b : Board) : (b.shiftStages).dsr = b.dsr.shift b.pinLevel.dataSer := rfl
@[simp] theorem shiftStages_aq (b : Board) : (b.shiftStages).aq = b.aq := rfl
@[simp] theorem shiftStages_dq (b : Board) : (b.shiftStages).dq = b.dq := rfl
@[simp] theorem shiftStages_chip (b : Board) : (b.shiftStages).chip = b.chip := rfl
@[simp] theorem shiftStages_chipInReset (b : Board) : (b.shiftStages).chipInReset = b.chipInReset := rfl
@[simp] theorem shiftStages_resetHeld (b : Board) : (b.shiftStages).resetHeld = b.resetHeld := rfl
@[simp] theorem shiftStages_select (b : Board) : (b.shiftStages).select = b.select := rfl
@[simp] theorem shiftStages_chipClk (b : Board) : (b.shiftStages).chipClk = b.chipClk := rfl

/-! ### Board.forgetStages -/

@[simp] theorem forgetStages_pinMode (b : Board) : (b.forgetStages).pinMode = b.pinMode := rfl
@[simp] theorem forgetStages_pinLevel (b : Board) : (b.forgetStages).pinLevel = b.pinLevel := rfl
@[simp] theorem forgetStages_asr (b : Board) : (b.forgetStages).asr = .undefined := rfl
@[simp] theorem forgetStages_dsr (b : Board) : (b.forgetStages).dsr = .undefined := rfl
@[simp] theorem forgetStages_aq (b : Board) : (b.forgetStages).aq = b.aq := rfl
@[simp] theorem forgetStages_dq (b : Board) : (b.forgetStages).dq = b.dq := rfl
@[simp] theorem forgetStages_chip (b : Board) : (b.forgetStages).chip = b.chip := rfl
@[simp] theorem forgetStages_chipInReset (b : Board) : (b.forgetStages).chipInReset = b.chipInReset := rfl
@[simp] theorem forgetStages_resetHeld (b : Board) : (b.forgetStages).resetHeld = b.resetHeld := rfl
@[simp] theorem forgetStages_select (b : Board) : (b.forgetStages).select = b.select := rfl
@[simp] theorem forgetStages_chipClk (b : Board) : (b.forgetStages).chipClk = b.chipClk := rfl

/-! ### Flow -/

@[simp] theorem andThen_go (s : State) (k : State → Flow) : (Flow.go s).andThen k = k s := rfl
@[simp] theorem andThen_abandoned (s : State) (k : State → Flow) : (Flow.abandoned s).andThen k = .abandoned s := rfl
@[simp] theorem flow_state_go (s : State) : (Flow.go s).state = s := rfl
@[simp] theorem flow_state_abandoned (s : State) : (Flow.abandoned s).state = s := rfl
@[simp] theorem flow_outcome (f : Flow) : f.outcome = .next f.state := rfl

theorem andThen_assoc (f : Flow) (g h : State → Flow) :
    (f.andThen g).andThen h = f.andThen (fun s => (g s).andThen h) := by cases f <;> rfl

end Sys2Proof.Machine
end

