-- ==== Sys2Proof/Laws/Board.lean ====
section
/-! SUPPORT. What one pin event can do to the board: the parts it leaves alone, the canonical form, and the effect of one bit
slot, of the latch pulse and of the select pulse from idle pins. -/

namespace Sys2Proof.Machine

/-! ### Replay -/

@[simp] theorem replay_nil (b : Board) : b.replay [] = b := rfl

@[simp] theorem replay_cons (b : Board) (e : PinEvent) (es : List PinEvent) :
    b.replay (e :: es) = (b.react e).replay es := rfl

theorem replay_append (b : Board) (es fs : List PinEvent) : b.replay (es ++ fs) = (b.replay es).replay fs := by
  simp [Board.replay]

/-! ### What a reaction leaves alone -/

@[simp] theorem spoilSelect_chip (b : Board) : b.spoilSelect.chip = b.chip := rfl

theorem needClock_cases (b : Board) : b.needClock = b ∨ b.needClock = b.forgetChip := by
  unfold Board.needClock
  split
  · exact .inl rfl
  · exact .inr rfl

theorem doubtCell_chip (b : Board) :
    b.doubtCell = b ∨ b.doubtCell = b.forgetChip ∨ ∃ k, b.doubtCell = { b with chip := Memory.erase b.chip k } := by
  unfold Board.doubtCell
  split
  · split
    · exact .inr (.inr ⟨_, rfl⟩)
    · exact .inr (.inl rfl)
  · exact .inl rfl

/-- What the end of a select pulse can do: nothing, forget every cell, forget the addressed one, or write it. -/
theorem takeWrite_cases (b : Board) :
    b.takeWrite = b.forgetChip ∨
    (∃ k, abus b.aq = some k ∧ b.takeWrite = { b with chip := Memory.erase b.chip k }) ∨
    (∃ k v, abus b.aq = some k ∧ dbus b.dq = some v ∧ b.takeWrite = { b with chip := Memory.write b.chip k v }) := by
  unfold Board.takeWrite
  split
  · rename_i k v hk hv
    exact .inr (.inr ⟨k, v, hk, hv, rfl⟩)
  · rename_i k hk hv
    exact .inr (.inl ⟨k, hk, rfl⟩)
  · exact .inl rfl

theorem closeSelect_cases (b : Board) :
    b.closeSelect = b ∨ b.closeSelect = b.forgetChip ∨ b.closeSelect = b.takeWrite := by
  unfold Board.closeSelect
  split
  · split
    · exact .inr (.inl rfl)
    · split
      · exact .inr (.inl rfl)
      · split
        · exact .inl rfl
        · exact .inr (.inr rfl)
  · exact .inl rfl

/-- The parts of the board that only SET_MODE and the outside write. -/
structure SameFixed (b c : Board) : Prop where
  pinMode : c.pinMode = b.pinMode
  chipClk : c.chipClk = b.chipClk
  pinLevel : c.pinLevel = b.pinLevel

theorem sameFixed_refl (b : Board) : SameFixed b b := ⟨rfl, rfl, rfl⟩

theorem sameFixed_needClock {b c : Board} (h : SameFixed b c) : SameFixed b c.needClock := by
  rcases needClock_cases c with e | e <;> rw [e] <;> exact ⟨h.1, h.2, h.3⟩

theorem sameFixed_doubtCell (b : Board) : SameFixed b b.doubtCell := by
  rcases doubtCell_chip b with e | e | ⟨k, e⟩ <;> rw [e] <;> exact ⟨rfl, rfl, rfl⟩

theorem sameFixed_closeSelect (b : Board) : SameFixed b b.closeSelect := by
  rcases closeSelect_cases b with e | e | e
  · rw [e]; exact ⟨rfl, rfl, rfl⟩
  · rw [e]; exact ⟨rfl, rfl, rfl⟩
  · rw [e]
    rcases takeWrite_cases b with e | ⟨k, -, e⟩ | ⟨k, v, -, -, e⟩ <;> rw [e] <;> exact ⟨rfl, rfl, rfl⟩

/-- The devices' reaction to a write changes no pin mode, no pin level and not the chip clock. -/
theorem reactWrite_sameFixed (b : Board) (p : Pin) (l : Level) : SameFixed b (b.reactWrite p l) := by
  cases p
  · exact sameFixed_refl b
  · exact sameFixed_refl b
  · simp only [Board.reactWrite, Board.writeShClk]
    split <;> (try split) <;> exact ⟨rfl, rfl, rfl⟩
  · simp only [Board.reactWrite, Board.writeShLatch]
    split <;> exact ⟨rfl, rfl, rfl⟩
  · simp only [Board.reactWrite, Board.writeShMrN]
    split <;> exact ⟨rfl, rfl, rfl⟩
  · simp only [Board.reactWrite, Board.writeCsN]
    split
    · exact ⟨rfl, rfl, rfl⟩
    · apply sameFixed_needClock
      have h := sameFixed_doubtCell b
      exact ⟨h.1, h.2, h.3⟩
    · apply sameFixed_needClock
      have h := sameFixed_closeSelect b
      exact ⟨h.1, h.2, h.3⟩
    · split <;> exact ⟨rfl, rfl, rfl⟩
    · exact ⟨rfl, rfl, rfl⟩
  · simp only [Board.reactWrite, Board.writeResN]
    split
    · exact ⟨rfl, rfl, rfl⟩
    · exact ⟨rfl, rfl, rfl⟩
    · exact ⟨rfl, rfl, rfl⟩
    · split
      · apply sameFixed_needClock
        exact ⟨rfl, rfl, rfl⟩
      · exact ⟨rfl, rfl, rfl⟩
    · exact ⟨rfl, rfl, rfl⟩

/-- A Write changes no pin mode. -/
@[simp] theorem react_write_pinMode (b : Board) (p : Pin) (l : Level) :
    (b.react (.write p l)).pinMode = b.pinMode := (reactWrite_sameFixed b p l).pinMode

/-- A Hold changes no pin mode. -/
@[simp] theorem react_hold_pinMode (b : Board) (t : Duration) : (b.react (.hold t)).pinMode = b.pinMode := rfl

/-- A Write changes the level of its own pin and of no other (R64). -/
theorem react_write_pinLevel (b : Board) (p : Pin) (l : Level) :
    (b.react (.write p l)).pinLevel = b.pinLevel.set p (some l) := by
  show ((b.reactWrite p l).setLevel p l).pinLevel = _
  rw [setLevel_pinLevel, (reactWrite_sameFixed b p l).pinLevel]

/-- No event changes the chip clock (R144). -/
@[simp] theorem react_chipClk (b : Board) (e : PinEvent) : (b.react e).chipClk = b.chipClk := by
  cases e with
  | mode p => rfl
  | write p l => exact (reactWrite_sameFixed b p l).chipClk
  | hold t => rfl

/-! ### The canonical form -/

theorem needClock_wf {b : Board} (h : Memory.wf b.chip = true) : Memory.wf b.needClock.chip = true := by
  rcases needClock_cases b with e | e <;> rw [e]
  · exact h
  · rfl

theorem doubtCell_wf {b : Board} (h : Memory.wf b.chip = true) : Memory.wf b.doubtCell.chip = true := by
  rcases doubtCell_chip b with e | e | ⟨k, e⟩ <;> rw [e]
  · exact h
  · rfl
  · exact memory_erase_wf _ h

theorem takeWrite_wf {b : Board} (h : Memory.wf b.chip = true) : Memory.wf b.takeWrite.chip = true := by
  rcases takeWrite_cases b with e | ⟨k, -, e⟩ | ⟨k, v, hk, -, e⟩ <;> rw [e]
  · rfl
  · exact memory_erase_wf _ h
  · exact memory_write_wf _ (abus_lt hk) h

theorem closeSelect_wf {b : Board} (h : Memory.wf b.chip = true) : Memory.wf b.closeSelect.chip = true := by
  rcases closeSelect_cases b with e | e | e <;> rw [e]
  · exact h
  · rfl
  · exact takeWrite_wf h

theorem reactWrite_wf {b : Board} (p : Pin) (l : Level) (h : Memory.wf b.chip = true) :
    Memory.wf (b.reactWrite p l).chip = true := by
  cases p
  · exact h
  · exact h
  · simp only [Board.reactWrite, Board.writeShClk]
    split <;> (try split) <;> exact h
  · simp only [Board.reactWrite, Board.writeShLatch]
    split <;> exact h
  · simp only [Board.reactWrite, Board.writeShMrN]
    split <;> exact h
  · simp only [Board.reactWrite, Board.writeCsN]
    split
    · exact h
    · exact needClock_wf (doubtCell_wf h)
    · exact needClock_wf (closeSelect_wf h)
    · split
      · exact h
      · rfl
    · exact h
  · simp only [Board.reactWrite, Board.writeResN]
    split
    · exact h
    · rfl
    · exact h
    · split
      · exact needClock_wf (by exact h)
      · rfl
    · rfl

/-- Every pin event keeps the chip register space in its canonical form (R33). -/
theorem react_wf {b : Board} (e : PinEvent) (h : Memory.wf b.chip = true) : Memory.wf (b.react e).chip = true := by
  cases e with
  | mode p => exact h
  | write p l => exact reactWrite_wf p l h
  | hold t => exact h

/-! ### A bit slot and the pulses, from idle pins -/

/-- One bit slot with SH_MR_N High and SH_CLK Low shifts both stages by one place and leaves everything else (R72). -/
theorem replay_slot (b : Board) (la ld : Level) (hc : b.pinLevel.shClk = some .low)
    (hm : b.pinLevel.shMrN = some .high) :
    b.replay [.write .addrSer la, .write .dataSer ld, .write .shClk .high, .write .shClk .low] =
      { b with
        asr := b.asr.shift (some la)
        dsr := b.dsr.shift (some ld)
        pinLevel := { b.pinLevel with addrSer := some la, dataSer := some ld } } := by
  obtain ⟨pm, ⟨l0, l1, l2, l3, l4, l5, l6⟩, asr, dsr, aq, dq, chip, cir, rh, sel, clk⟩ := b
  simp only at hc hm
  subst hc hm
  simp [Board.react, Board.reactWrite, Board.setLevel, PerPin.set, Board.writeShClk, Board.shiftStages]

/-- One latch pulse with SH_LATCH Low and no select pulse open: both outputs take their stages at once (R73). -/
theorem replay_latch (b : Board) (hl : b.pinLevel.shLatch = some .low) (hs : b.select = none) :
    b.replay [.write .shLatch .high, .write .shLatch .low] = { b with aq := b.asr, dq := b.dsr } := by
  obtain ⟨pm, ⟨l0, l1, l2, l3, l4, l5, l6⟩, asr, dsr, aq, dq, chip, cir, rh, sel, clk⟩ := b
  simp only at hl hs
  subst hl hs
  simp [Board.react, Board.reactWrite, Board.setLevel, PerPin.set, Board.writeShLatch, Board.latchInSelect,
    Board.spoilSelect]

/-- Erasing a cell below all listed ones changes nothing. -/
theorem memory_erase_below {m : Memory} {lo k : Nat} (hk : k < lo) (hm : Memory.sortedFrom lo m = true) :
    Memory.erase m k = m := by
  induction m generalizing lo with
  | nil => rfl
  | cons c m ih =>
    obtain ⟨j, w⟩ := c
    rw [sortedFrom_cons] at hm
    have : k ≠ j := by omega
    simp only [Memory.erase, this, if_false]
    rw [ih (by omega) hm.2]

/-- Writing a cell below all listed ones lists it first. -/
theorem memory_write_below {m : Memory} {lo k : Nat} (v : Byte) (hk : k < lo) (hm : Memory.sortedFrom lo m = true) :
    Memory.write m k v = (k, v) :: m := by
  cases m with
  | nil => rfl
  | cons c m =>
    obtain ⟨j, w⟩ := c
    rw [sortedFrom_cons] at hm
    have : k < j := by omega
    simp [Memory.write, this]

/-- In canonical form, making a cell `Undefined` and then writing it is writing it. -/
theorem memory_write_erase {m : Memory} {lo : Nat} (k : Nat) (v : Byte) (hm : Memory.sortedFrom lo m = true) :
    Memory.write (Memory.erase m k) k v = Memory.write m k v := by
  induction m generalizing lo with
  | nil => rfl
  | cons c m ih =>
    obtain ⟨j, w⟩ := c
    rw [sortedFrom_cons] at hm
    by_cases hkj : k = j
    · subst hkj
      simp only [Memory.erase, if_true, Memory.write, Nat.lt_irrefl, if_false]
      rw [memory_erase_below (by omega) hm.2, memory_write_below v (by omega) hm.2]
    · simp only [Memory.erase, hkj, if_false, Memory.write]
      split
      · rw [memory_erase_below (by omega) hm.2]
      · rw [ih hm.2]

/-- One select pulse from idle pins with both buses defined: the addressed register takes the byte (R39, R74). -/
theorem replay_select (b : Board) (k : Nat) (v : Byte) (hc : b.pinLevel.csN = some .high)
    (hr : b.chipInReset = some false) (hrl : b.pinLevel.resN = some .high) (hs : b.select = none)
    (hk : b.chipClk = .running) (ha : abus b.aq = some k) (hd : dbus b.dq = some v)
    (hw : Memory.wf b.chip = true) :
    b.replay [.write .csN .low, .hold .csMin, .write .csN .high] = { b with chip := Memory.write b.chip k v } := by
  obtain ⟨pm, ⟨l0, l1, l2, l3, l4, l5, l6⟩, asr, dsr, aq, dq, chip, cir, rh, sel, clk⟩ := b
  simp only at hc hr hrl hs hk ha hd hw
  subst hc hr hrl hs hk
  simp [Board.react, Board.reactWrite, Board.setLevel, PerPin.set, Board.writeCsN, Board.doubtCell, ha,
    Board.needClock, Board.holdFor, Board.closeSelect, Board.takeWrite, hd, Duration.ns,
    memory_write_erase k v hw]

end Sys2Proof.Machine
end

