-- ==== Sys2Proof/Laws/Ops.lean ====
section
/-! SUPPORT. For each shared operation, once, everything it can do: taking a fault, the primitives, and a list of primitives
driven in order. -/

namespace Sys2Proof.Machine

open Sys2Proof.Safety

/-! ### Taking a fault -/

/-- `raise` either abandons with everything R121 says, or reports and goes on. -/
theorem raise_eq (r : Raised) (s : State) :
    raise r s =
      if r.fatal s.params.addrPolicy then .abandoned (halted r s)
      else .go { s with diag := s.diag ++ [.fault r] } := rfl

theorem raise_fatal {r : Raised} {s : State} (h : r.fatal s.params.addrPolicy = true) :
    raise r s = .abandoned (halted r s) := by rw [raise_eq, if_pos h]

theorem raise_recoverable {r : Raised} {s : State} (h : r.fatal s.params.addrPolicy = false) :
    raise r s = .go { s with diag := s.diag ++ [.fault r] } := by rw [raise_eq, h]; rfl

/-! ### The primitives -/

/-- Everything PIN_WRITE can do: nothing under NOOP; under LIVE drive the pin, fail, or find that it is no output; before a
backend is chosen find that it is no output. -/
theorem pinWrite_cases (p : Pin) (l : Level) (s : State) :
    (s.backend = .noop ∧ pinWrite p l s = .go s) ∨
    (s.backend = .live ∧ s.board.pinMode.get p = .output ∧ s.pinWrites + 1 ∉ s.params.pinFail ∧
      pinWrite p l s = .go (emit (.write p l) { s with pinWrites := s.pinWrites + 1 })) ∨
    (s.backend = .live ∧ s.board.pinMode.get p = .output ∧ s.pinWrites + 1 ∈ s.params.pinFail ∧
      pinWrite p l s = .abandoned (halted (.pinWriteFailure p l) { s with pinWrites := s.pinWrites + 1 })) ∨
    ((s.backend = .live ∧ s.board.pinMode.get p ≠ .output ∨ s.backend = .notYetChosen) ∧
      pinWrite p l s = .abandoned (halted .notInitialized s)) := by
  unfold pinWrite
  cases hb : s.backend
  · exact .inr (.inr (.inr ⟨.inr rfl, rfl⟩))
  · by_cases hm : s.board.pinMode.get p = .output
    · by_cases hf : s.pinWrites + 1 ∈ s.params.pinFail
      · refine .inr (.inr (.inl ⟨rfl, hm, hf, ?_⟩))
        simp only [hm, hf, if_true]
        rfl
      · refine .inr (.inl ⟨rfl, hm, hf, ?_⟩)
        simp only [hm, hf, if_true, if_false]
    · refine .inr (.inr (.inr ⟨.inl ⟨rfl, hm⟩, ?_⟩))
      simp only [hm, if_false]
      rfl
  · exact .inl ⟨rfl, rfl⟩

/-! ### What no primitive touches -/

/-- `t` differs from `s` at most in what primitives and fault entry write. -/
structure OnlyDriven (s t : State) : Prop where
  params : t.params = s.params
  backend : t.backend = s.backend
  initialized : t.initialized = s.initialized
  micro : t.micro = s.micro
  buf : t.buf = s.buf
  frame : t.frame = s.frame
  idx : t.idx = s.idx
  a : t.a = s.a
  d : t.d = s.d
  i : t.i = s.i
  pos : t.pos = s.pos
  nframes : t.nframes = s.nframes
  input : t.input = s.input

theorem onlyDriven_refl (s : State) : OnlyDriven s s := ⟨rfl, rfl, rfl, rfl, rfl, rfl, rfl, rfl, rfl, rfl, rfl, rfl, rfl⟩

theorem onlyDriven_trans {s t u : State} (h : OnlyDriven s t) (k : OnlyDriven t u) : OnlyDriven s u where
  params := k.params.trans h.params
  backend := k.backend.trans h.backend
  initialized := k.initialized.trans h.initialized
  micro := k.micro.trans h.micro
  buf := k.buf.trans h.buf
  frame := k.frame.trans h.frame
  idx := k.idx.trans h.idx
  a := k.a.trans h.a
  d := k.d.trans h.d
  i := k.i.trans h.i
  pos := k.pos.trans h.pos
  nframes := k.nframes.trans h.nframes
  input := k.input.trans h.input

theorem onlyDriven_primitive (e : PinEvent) (s : State) : OnlyDriven s (primitive e s).state := by
  cases e with
  | mode p =>
    simp only [primitive, setMode]
    split <;> exact ⟨rfl, rfl, rfl, rfl, rfl, rfl, rfl, rfl, rfl, rfl, rfl, rfl, rfl⟩
  | write p l =>
    rcases pinWrite_cases p l s with ⟨-, h⟩ | ⟨-, -, -, h⟩ | ⟨-, -, -, h⟩ | ⟨-, h⟩ <;>
      · simp only [primitive, h]
        exact ⟨rfl, rfl, rfl, rfl, rfl, rfl, rfl, rfl, rfl, rfl, rfl, rfl, rfl⟩
  | hold t =>
    simp only [primitive, hold]
    split <;> exact ⟨rfl, rfl, rfl, rfl, rfl, rfl, rfl, rfl, rfl, rfl, rfl, rfl, rfl⟩

theorem onlyDriven_perform (e : PinEvent) (s : State) : OnlyDriven s (perform e s).state := by
  unfold perform
  split
  · exact ⟨rfl, rfl, rfl, rfl, rfl, rfl, rfl, rfl, rfl, rfl, rfl, rfl, rfl⟩
  · exact onlyDriven_primitive e s

/-- A list of primitives touches only what primitives touch, complete or abandoned. -/
theorem onlyDriven_drive (es : List PinEvent) (s : State) : OnlyDriven s (drive es s).state := by
  induction es generalizing s with
  | nil => exact onlyDriven_refl s
  | cons e es ih =>
    have h := onlyDriven_perform e s
    simp only [drive]
    cases hp : perform e s with
    | go t =>
      rw [hp] at h
      exact onlyDriven_trans h (ih t)
    | abandoned t =>
      rw [hp] at h
      exact h

/-! ### A list of primitives under each backend -/

theorem drive_append (es fs : List PinEvent) (s : State) : drive (es ++ fs) s = (drive es s).andThen (drive fs) := by
  induction es generalizing s with
  | nil => rfl
  | cons e es ih =>
    simp only [List.cons_append, drive, andThen_assoc]
    congr 1
    funext t
    exact ih t

@[simp] theorem countWrites_nil : countWrites [] = 0 := rfl

@[simp] theorem countWrites_write (p : Pin) (l : Level) (es : List PinEvent) :
    countWrites (.write p l :: es) = countWrites es + 1 := rfl

@[simp] theorem countWrites_mode (p : Pin) (es : List PinEvent) :
    countWrites (.mode p :: es) = countWrites es := rfl

@[simp] theorem countWrites_hold (t : Duration) (es : List PinEvent) :
    countWrites (.hold t :: es) = countWrites es := rfl

theorem countWrites_append (es fs : List PinEvent) :
    countWrites (es ++ fs) = countWrites es + countWrites fs := by simp [countWrites]

@[simp] theorem levelsOn_nil (p : Pin) : levelsOn p [] = [] := rfl

theorem levelsOn_append (p : Pin) (es fs : List PinEvent) : levelsOn p (es ++ fs) = levelsOn p es ++ levelsOn p fs :=
  List.filterMap_append ..

/-- The state after all of a list of events was driven under LIVE. -/
def drivenLive (es : List PinEvent) (s : State) : State :=
  { s with trace := s.trace ++ es, board := s.board.replay es, pinWrites := s.pinWrites + countWrites es }

/-! ### The end of a run that is cut -/

theorem perform_cut {e : PinEvent} {s : State} (h : cutDue e s = true) : perform e s = .abandoned (cutRun s) := by
  rw [perform, if_pos h]

theorem perform_uncut {e : PinEvent} {s : State} (h : cutDue e s = false) : perform e s = primitive e s := by
  rw [perform, h]
  rfl

/-- Under LIVE a run is cut at any primitive. -/
theorem cutDue_live {s : State} (h : s.backend = .live) (e : PinEvent) :
    cutDue e s = decide (s.params.cutAt = some (s.trace.length + 1)) := by
  cases e <;> simp [cutDue, recordedUnder, h]

/-- Under another backend only a Hold is a pin event (R66). -/
theorem cutDue_silent {s : State} (h : s.backend ≠ .live) {e : PinEvent} (he : isHold e = false) : cutDue e s = false := by
  cases e with
  | mode p => simp [cutDue, recordedUnder, h]
  | write p l => simp [cutDue, recordedUnder, h]
  | hold t => cases he

theorem cutDue_hold (t : Duration) (s : State) :
    cutDue (.hold t) s = decide (s.params.cutAt = some (s.trace.length + 1)) := by simp [cutDue, recordedUnder]

/-- NOOP records the Holds and does nothing else (R66). -/
theorem drive_noop (es : List PinEvent) (s : State) (h : s.backend = .noop) (hc : NoCut (es.filter isHold).length s) :
    drive es s = .go { s with trace := s.trace ++ es.filter isHold } := by
  have hl : s.backend ≠ .live := by rw [h]; decide
  induction es generalizing s with
  | nil => simp [drive]
  | cons e es ih =>
    cases e with
    | mode p =>
      have hp : perform (.mode p) s = .go s := by
        rw [perform_uncut (cutDue_silent hl rfl)]
        simp only [primitive, setMode, h]
      rw [drive, hp, andThen_go, ih s h hc hl]
      rfl
    | write p l =>
      have hp : perform (.write p l) s = .go s := by
        rw [perform_uncut (cutDue_silent hl rfl)]
        simp only [primitive, pinWrite, h]
      rw [drive, hp, andThen_go, ih s h hc hl]
      rfl
    | hold t =>
      have hn : s.params.cutAt ≠ some (s.trace.length + 1) := hc 0 (Nat.succ_pos _)
      have hp : perform (.hold t) s = .go { s with trace := s.trace ++ [.hold t] } := by
        rw [perform_uncut (by rw [cutDue_hold]; exact decide_eq_false hn)]
        simp only [primitive, hold, h]
      have hc' : NoCut (es.filter isHold).length { s with trace := s.trace ++ [.hold t] } := by
        intro k hk
        have := hc (k + 1) (Nat.succ_lt_succ hk)
        simpa [Nat.add_assoc, Nat.add_comm 1] using this
      rw [drive, hp, andThen_go, ih { s with trace := s.trace ++ [.hold t] } h hc' hl]
      simp [List.filter_cons, isHold]

/-- A list with no Hold does nothing under NOOP, and no run is cut in it. -/
theorem drive_silent {es : List PinEvent} {s : State} (h : s.backend = .noop) (he : es.filter isHold = []) :
    drive es s = .go s := by
  rw [drive_noop es s h (by rw [he]; exact fun k hk => absurd hk (Nat.not_lt_zero k)), he, List.append_nil]

/-- Under NOOP a run is cut at the Hold that is its next event. -/
theorem drive_noop_cut {pre post : List PinEvent} {t : Duration} {s : State} (h : s.backend = .noop)
    (he : pre.filter isHold = []) (hc : s.params.cutAt = some (s.trace.length + 1)) :
    drive (pre ++ .hold t :: post) s = .abandoned (cutRun s) := by
  rw [drive_append, drive_silent h he, andThen_go, drive, perform_cut (by rw [cutDue_hold]; exact decide_eq_true hc),
    andThen_abandoned]

theorem replay_pinMode_output {es : List PinEvent} {b : Board} (h : b.pinMode = .all .output) :
    (b.replay es).pinMode = .all .output := by
  induction es generalizing b with
  | nil => exact h
  | cons e es ih =>
    rw [replay_cons]
    apply ih
    cases e with
    | mode p =>
      show b.pinMode.set p .output = _
      rw [h]
      cases p <;> rfl
    | write p l => rw [react_write_pinMode, h]
    | hold t => exact h

/-! ### A list of primitives under LIVE -/

@[simp] theorem drivenLive_nil (s : State) : drivenLive [] s = s := by simp [drivenLive]

theorem drivenLive_append (es fs : List PinEvent) (s : State) :
    drivenLive fs (drivenLive es s) = drivenLive (es ++ fs) s := by
  simp [drivenLive, replay_append, countWrites_append, Nat.add_assoc]

theorem drivenLive_ready {es : List PinEvent} {s : State} (h : s.board.pinMode = .all .output) :
    (drivenLive es s).board.pinMode = .all .output := replay_pinMode_output h

theorem undisturbed_nil (s : State) : Undisturbed [] s :=
  ⟨fun _ hk => absurd hk (Nat.not_lt_zero _), fun _ hk => absurd hk (Nat.not_lt_zero _)⟩

/-- A list of events is undisturbed exactly if its parts are, one after the other. -/
theorem undisturbed_append (es fs : List PinEvent) (s : State) :
    Undisturbed (es ++ fs) s ↔ Undisturbed es s ∧ Undisturbed fs (drivenLive es s) := by
  constructor
  · rintro ⟨hf, hc⟩
    refine ⟨⟨fun k hk => hf k ?_, fun k hk => hc k ?_⟩, fun k hk => ?_, fun k hk => ?_⟩
    · rw [countWrites_append]; omega
    · rw [List.length_append]; omega
    · have := hf (countWrites es + k) (by rw [countWrites_append]; omega)
      rwa [← Nat.add_assoc] at this
    · have := hc (es.length + k) (by rw [List.length_append]; omega)
      show s.params.cutAt ≠ some ((s.trace ++ es).length + k + 1)
      rwa [List.length_append, Nat.add_assoc s.trace.length]
  · rintro ⟨⟨hf, hc⟩, gf, gc⟩
    refine ⟨fun k hk => ?_, fun k hk => ?_⟩
    · rw [countWrites_append] at hk
      by_cases h : k < countWrites es
      · exact hf k h
      · have g : s.pinWrites + countWrites es + (k - countWrites es) + 1 ∉ s.params.pinFail :=
          gf (k - countWrites es) (by omega)
        rwa [show s.pinWrites + k + 1 = s.pinWrites + countWrites es + (k - countWrites es) + 1 by omega]
    · rw [List.length_append] at hk
      by_cases h : k < es.length
      · exact hc k h
      · have g : s.params.cutAt ≠ some ((s.trace ++ es).length + (k - es.length) + 1) := gc (k - es.length) (by omega)
        rw [List.length_append] at g
        rwa [show s.trace.length + k + 1 = s.trace.length + es.length + (k - es.length) + 1 by omega]

/-- What stops an operation at the event `e` under LIVE: the run is cut there (`none`), or the pin write fails (R69, R142). -/
def StopsLive (e : PinEvent) (why : Option Raised) (s : State) : Prop :=
  (why = none ∧ s.params.cutAt = some (s.trace.length + 1)) ∨
  (∃ p l, e = .write p l ∧ why = some (.pinWriteFailure p l) ∧ s.params.cutAt ≠ some (s.trace.length + 1) ∧
    s.pinWrites + 1 ∈ s.params.pinFail)

/-- The state in which an operation is stopped. -/
def stopNow : Option Raised → State → State
  | none, s => cutRun s
  | some r, s => halted r { s with pinWrites := s.pinWrites + 1 }

/-- The events `pre` of `es` happen, and the operation stops at the next one. -/
def StopIn (es pre : List PinEvent) (why : Option Raised) (s : State) : Prop :=
  ∃ e post, es = pre ++ e :: post ∧ Undisturbed pre s ∧ StopsLive e why (drivenLive pre s)

theorem stopsLive_unique {e : PinEvent} {why why' : Option Raised} {s : State} (h : StopsLive e why s)
    (h' : StopsLive e why' s) : why = why' := by
  rcases h with ⟨h1, h2⟩ | ⟨p, l, h1, h2, h3, -⟩ <;> rcases h' with ⟨g1, g2⟩ | ⟨q, m, g1, g2, g3, -⟩
  · rw [h1, g1]
  · exact absurd h2 g3
  · exact absurd g2 h3
  · rw [h1] at g1
    cases g1
    rw [h2, g2]

theorem stopIn_left {es pre : List PinEvent} {why : Option Raised} {s : State} (fs : List PinEvent)
    (h : StopIn es pre why s) : StopIn (es ++ fs) pre why s := by
  obtain ⟨e, post, h1, h2, h3⟩ := h
  exact ⟨e, post ++ fs, by rw [h1, List.append_assoc]; rfl, h2, h3⟩

theorem stopIn_right {es fs pre : List PinEvent} {why : Option Raised} {s : State} (hf : Undisturbed es s)
    (h : StopIn fs pre why (drivenLive es s)) : StopIn (es ++ fs) (es ++ pre) why s := by
  obtain ⟨e, post, h1, h2, h3⟩ := h
  exact ⟨e, post, by rw [h1, List.append_assoc], (undisturbed_append _ _ _).2 ⟨hf, h2⟩, by rwa [← drivenLive_append]⟩

/-- Everything one primitive can do under LIVE on configured pins. -/
theorem perform_live {e : PinEvent} {s : State} (hb : s.backend = .live) (hm : s.board.pinMode = .all .output) :
    (Undisturbed [e] s ∧ perform e s = .go (drivenLive [e] s)) ∨
    (∃ why, StopsLive e why s ∧ perform e s = .abandoned (stopNow why s)) := by
  by_cases hc : s.params.cutAt = some (s.trace.length + 1)
  · exact .inr ⟨none, .inl ⟨rfl, hc⟩, perform_cut (by rw [cutDue_live hb]; exact decide_eq_true hc)⟩
  · have hn : NoCut 1 s := by
      intro k hk
      rwa [show k = 0 by omega]
    rw [perform_uncut (by rw [cutDue_live hb]; exact decide_eq_false hc)]
    cases e with
    | mode p =>
      refine .inl ⟨⟨fun _ hk => absurd hk (Nat.not_lt_zero _), hn⟩, ?_⟩
      simp only [primitive, setMode, hb]
      rfl
    | hold t =>
      refine .inl ⟨⟨fun _ hk => absurd hk (Nat.not_lt_zero _), hn⟩, ?_⟩
      simp only [primitive, hold, hb]
      rfl
    | write p l =>
      rcases pinWrite_cases p l s with ⟨h, -⟩ | ⟨-, -, hf, h⟩ | ⟨-, -, hf, h⟩ | ⟨h, -⟩
      · rw [hb] at h
        cases h
      · refine .inl ⟨⟨?_, hn⟩, h⟩
        intro k hk
        have hk : k < 1 := hk
        rwa [show k = 0 by omega]
      · exact .inr ⟨some (.pinWriteFailure p l), .inr ⟨p, l, rfl, rfl, hc, hf⟩, h⟩
      · rcases h with ⟨-, h⟩ | h
        · rw [hm, perPin_get_all] at h
          exact absurd rfl h
        · rw [hb] at h
          cases h

/-- A list of events under LIVE on configured pins: all of it happens, or it stops with exactly the events before the first
one at which the run is cut or a pin write fails (R69, R79, R142). -/
theorem drive_live (es : List PinEvent) (s : State) (hb : s.backend = .live) (hm : s.board.pinMode = .all .output) :
    (Undisturbed es s ∧ drive es s = .go (drivenLive es s)) ∨
    (∃ pre why, StopIn es pre why s ∧ drive es s = .abandoned (stopNow why (drivenLive pre s))) := by
  induction es generalizing s with
  | nil => exact .inl ⟨undisturbed_nil s, by rw [drivenLive_nil]; rfl⟩
  | cons e es ih =>
    rcases perform_live (e := e) hb hm with ⟨h1, h2⟩ | ⟨why, h1, h2⟩
    · rcases ih (drivenLive [e] s) hb (drivenLive_ready hm) with ⟨g1, g2⟩ | ⟨pre, why, g1, g2⟩
      · refine .inl ⟨(undisturbed_append [e] es s).2 ⟨h1, g1⟩, ?_⟩
        rw [drive, h2, andThen_go, g2, drivenLive_append]
        rfl
      · refine .inr ⟨[e] ++ pre, why, stopIn_right h1 g1, ?_⟩
        rw [drive, h2, andThen_go, g2, drivenLive_append]
    · refine .inr ⟨[], why, ⟨e, es, rfl, undisturbed_nil s, by rwa [drivenLive_nil]⟩, ?_⟩
      rw [drive, h2, andThen_abandoned, drivenLive_nil]

theorem stopsLive_disturbs {e : PinEvent} {why : Option Raised} {s : State} (h : StopsLive e why s) :
    ¬ Undisturbed [e] s := by
  rintro ⟨hf, hc⟩
  rcases h with ⟨-, h⟩ | ⟨p, l, rfl, -, -, h⟩
  · exact hc 0 Nat.one_pos h
  · exact hf 0 Nat.one_pos h

/-- An operation that stops somewhere is not undisturbed. -/
theorem stopIn_disturbs {es pre : List PinEvent} {why : Option Raised} {s : State} (h : StopIn es pre why s) :
    ¬ Undisturbed es s := by
  obtain ⟨e, post, rfl, -, h3⟩ := h
  intro hu
  exact stopsLive_disturbs h3 ((undisturbed_append [e] post _).1 ((undisturbed_append pre _ s).1 hu).2).1

/-- Where an operation stops, and why, is determined. -/
theorem stopIn_unique {es pre pre' : List PinEvent} {why why' : Option Raised} {s : State} (h : StopIn es pre why s)
    (h' : StopIn es pre' why' s) : pre = pre' ∧ why = why' := by
  obtain ⟨e, post, h1, h2, h3⟩ := h
  obtain ⟨e', post', g1, g2, g3⟩ := h'
  rw [h1] at g1
  rcases List.append_eq_append_iff.1 g1 with ⟨mid, k1, k2⟩ | ⟨mid, k1, k2⟩
  · cases mid with
    | nil =>
      rw [List.append_nil] at k1
      rw [List.nil_append, List.cons.injEq] at k2
      subst k1
      rw [← k2.1] at g3
      exact ⟨rfl, stopsLive_unique h3 g3⟩
    | cons x xs =>
      rw [List.cons_append, List.cons.injEq] at k2
      rw [k1, ← k2.1] at g2
      exact absurd ((undisturbed_append [e] xs _).1 ((undisturbed_append pre _ s).1 g2).2).1 (stopsLive_disturbs h3)
  · cases mid with
    | nil =>
      rw [List.append_nil] at k1
      rw [List.nil_append, List.cons.injEq] at k2
      subst k1
      rw [k2.1] at g3
      exact ⟨rfl, stopsLive_unique h3 g3⟩
    | cons x xs =>
      rw [List.cons_append, List.cons.injEq] at k2
      rw [k1, ← k2.1] at h2
      exact absurd ((undisturbed_append [e'] xs _).1 ((undisturbed_append pre' _ s).1 h2).2).1 (stopsLive_disturbs g3)

/-- Undisturbed, a list of events under LIVE happens in full. -/
theorem drive_live_go {es : List PinEvent} {s : State} (hb : s.backend = .live)
    (hm : s.board.pinMode = .all .output) (hu : Undisturbed es s) : drive es s = .go (drivenLive es s) := by
  rcases drive_live es s hb hm with ⟨-, h⟩ | ⟨pre, why, h1, -⟩
  · exact h
  · exact absurd hu (stopIn_disturbs h1)

end Sys2Proof.Machine
end

