-- ==== Sys2Proof/Laws/BusDriver.lean ====
section
/-! SUPPORT. Everything WRITE_REGISTER can do: under NOOP, under LIVE to the end, and under LIVE up to where a pin
write fails or the run is cut; and what one complete register write does to idle pins. -/

namespace Sys2Proof.Machine

open Sys2Proof.Safety

/-! ### The event lists -/

/-- The events of the bit slots for I = n - 1 downto 0. -/
def slotsList (a d : Byte) : Nat → List PinEvent
  | 0 => []
  | n + 1 => slotEvents a d (Fin.ofNat 8 n) ++ slotsList a d n

@[simp] theorem slotEvents_length (a d : Byte) (i : Fin 8) : (slotEvents a d i).length = 4 := rfl

@[simp] theorem countWrites_slot (a d : Byte) (i : Fin 8) : countWrites (slotEvents a d i) = 4 := rfl

@[simp] theorem slot_holds (a d : Byte) (i : Fin 8) : (slotEvents a d i).filter isHold = [] := rfl

theorem countWrites_slots (a d : Byte) (n : Nat) : countWrites (slotsList a d n) = 4 * n := by
  induction n with
  | zero => rfl
  | succ n ih => rw [slotsList, countWrites_append, ih, countWrites_slot]; omega

theorem slots_holds (a d : Byte) (n : Nat) : (slotsList a d n).filter isHold = [] := by
  induction n with
  | zero => rfl
  | succ n ih => rw [slotsList, List.filter_append, ih, slot_holds]; rfl

/-- The eight slots are the serial word of R58. -/
theorem slotsList_eight (a d : Byte) : slotsList a d 8 = serialWord a d := rfl

/-- The events of WRITE_REGISTER are the 37 of R76. -/
theorem registerWriteEvents_eq (a d : Byte) :
    registerWriteEvents a d =
      (slotsList a d 8 ++ [.write .shLatch .high, .write .shLatch .low]) ++
        [.write .csN .low, .hold .csMin, .write .csN .high] := by
  rw [slotsList_eight, registerWriteEvents, List.append_assoc]
  rfl

theorem countWrites_register (a d : Byte) : countWrites (registerWriteEvents a d) = 36 := by
  rw [registerWriteEvents_eq, countWrites_append, countWrites_append, countWrites_slots]
  rfl

theorem holds_register (a d : Byte) : (registerWriteEvents a d).filter isHold = [.hold .csMin] := by
  rw [registerWriteEvents_eq, List.filter_append, List.filter_append, slots_holds]
  rfl

/-- The pulses that follow the bit slots (R73, R74). -/
def pulseEvents : List PinEvent :=
  [.write .shLatch .high, .write .shLatch .low, .write .csN .low, .hold .csMin, .write .csN .high]

theorem registerWriteEvents_slots (a d : Byte) : registerWriteEvents a d = slotsList a d 8 ++ pulseEvents := rfl

@[simp] theorem length_slots (a d : Byte) (n : Nat) : (slotsList a d n).length = 4 * n := by
  induction n with
  | zero => rfl
  | succ n ih =>
    rw [slotsList, List.length_append, ih, slotEvents_length]
    omega

@[simp] theorem length_register (a d : Byte) : (registerWriteEvents a d).length = 37 := rfl

/-- Once initialised, WRITE_REGISTER is its bit slots and then its pulses (R75). -/
theorem writeRegister_eq (a d : Byte) {s : State} (h : s.initialized = true) :
    writeRegister a d s = (shiftSlots 8 { s with a := a, d := d }).andThen (drive pulseEvents) := by
  rw [writeRegister, if_pos h, andThen_assoc]
  congr 1
  funext t
  exact (drive_append [.write .shLatch .high, .write .shLatch .low]
    [.write .csN .low, .hold .csMin, .write .csN .high] t).symm

/-- The bit slots for I = n downto 0 are the one for I = n and then the rest. -/
theorem shiftSlots_succ (n : Nat) (s : State) :
    shiftSlots (n + 1) s =
      (drive (slotEvents s.a s.d (Fin.ofNat 8 n)) { s with i := Fin.ofNat 8 n }).andThen (shiftSlots n) := rfl

/-! ### Under NOOP -/

theorem shiftSlots_noop (n : Nat) (s : State) (h : s.backend = .noop) :
    shiftSlots (n + 1) s = .go { s with i := 0 } := by
  induction n generalizing s with
  | zero =>
    rw [shiftSlots_succ, drive_silent (s := { s with i := Fin.ofNat 8 0 }) h (slot_holds _ _ _)]
    rfl
  | succ n ih =>
    rw [shiftSlots_succ, drive_silent (s := { s with i := Fin.ofNat 8 (n + 1) }) h (slot_holds _ _ _), andThen_go]
    exact ih { s with i := Fin.ofNat 8 (n + 1) } h

/-- A register write under NOOP only holds (R66). -/
theorem writeRegister_noop (a d : Byte) (s : State) (h : s.backend = .noop) (hi : s.initialized = true)
    (hc : NoCut 1 s) :
    writeRegister a d s = .go { s with a := a, d := d, i := 0, trace := s.trace ++ [.hold .csMin] } := by
  rw [writeRegister_eq a d hi, shiftSlots_noop 7 { s with a := a, d := d } h, andThen_go]
  exact drive_noop pulseEvents { s with a := a, d := d, i := 0 } h hc

/-- A register write under NOOP in which the run is cut, at its one event. -/
theorem writeRegister_noop_cut (a d : Byte) (s : State) (h : s.backend = .noop) (hi : s.initialized = true)
    (hc : s.params.cutAt = some (s.trace.length + 1)) :
    writeRegister a d s = .abandoned (cutRun { s with a := a, d := d, i := 0 }) := by
  rw [writeRegister_eq a d hi, shiftSlots_noop 7 { s with a := a, d := d } h, andThen_go]
  exact drive_noop_cut (pre := [.write .shLatch .high, .write .shLatch .low, .write .csN .low])
    (post := [.write .csN .high]) (t := .csMin) h rfl hc

/-! ### Under LIVE -/

/-- Everything the bit slots for I = n downto 0 can do under LIVE. -/
theorem shiftSlots_live (n : Nat) (s : State) (hb : s.backend = .live) (hm : s.board.pinMode = .all .output) :
    (Undisturbed (slotsList s.a s.d (n + 1)) s ∧
      shiftSlots (n + 1) s = .go (drivenLive (slotsList s.a s.d (n + 1)) { s with i := 0 })) ∨
    (∃ pre why, StopIn (slotsList s.a s.d (n + 1)) pre why s ∧
      shiftSlots (n + 1) s =
        .abandoned (stopNow why (drivenLive pre { s with i := Fin.ofNat 8 (n - pre.length / 4) }))) := by
  induction n generalizing s with
  | zero =>
    rw [shiftSlots_succ, show slotsList s.a s.d 1 = slotEvents s.a s.d (Fin.ofNat 8 0) ++ [] from rfl,
      List.append_nil]
    rcases drive_live (slotEvents s.a s.d (Fin.ofNat 8 0)) { s with i := Fin.ofNat 8 0 } hb hm with
      ⟨h1, h2⟩ | ⟨pre, why, h1, h2⟩
    · exact .inl ⟨h1, by rw [h2]; rfl⟩
    · refine .inr ⟨pre, why, h1, ?_⟩
      rw [h2, andThen_abandoned, Nat.zero_sub]
  | succ n ih =>
    rw [shiftSlots_succ, slotsList]
    rcases drive_live (slotEvents s.a s.d (Fin.ofNat 8 (n + 1))) { s with i := Fin.ofNat 8 (n + 1) } hb hm with
      ⟨h1, h2⟩ | ⟨pre, why, h1, h2⟩
    · rcases ih (drivenLive (slotEvents s.a s.d (Fin.ofNat 8 (n + 1))) { s with i := Fin.ofNat 8 (n + 1) }) hb
        (drivenLive_ready (s := { s with i := Fin.ofNat 8 (n + 1) }) hm) with ⟨g1, g2⟩ | ⟨pre, why, g1, g2⟩
      · refine .inl ⟨(undisturbed_append _ _ s).2 ⟨h1, g1⟩, ?_⟩
        rw [h2, andThen_go, g2]
        exact congrArg Flow.go (drivenLive_append _ _ { s with i := 0 })
      · refine .inr ⟨slotEvents s.a s.d (Fin.ofNat 8 (n + 1)) ++ pre, why, stopIn_right (s := s) h1 g1, ?_⟩
        rw [h2, andThen_go, g2, List.length_append, slotEvents_length,
          show n + 1 - (4 + pre.length) / 4 = n - pre.length / 4 by omega]
        exact congrArg (fun t => Flow.abandoned (stopNow why t))
          (drivenLive_append _ _ { s with i := Fin.ofNat 8 (n - pre.length / 4) })
    · refine .inr ⟨pre, why, stopIn_left _ h1, ?_⟩
      have hlen : pre.length / 4 = 0 := by
        obtain ⟨e, post, h3, -, -⟩ := h1
        have := congrArg List.length h3
        rw [slotEvents_length, List.length_append, List.length_cons] at this
        omega
      rw [h2, andThen_abandoned, hlen]
      rfl

/-- Everything WRITE_REGISTER can do under LIVE once initialised: all 37 events, or the ones before the first at which a pin
write fails or the run is cut (R75, R79, R142). -/
theorem writeRegister_live (a d : Byte) (s : State) (hb : s.backend = .live) (hi : s.initialized = true)
    (hm : s.board.pinMode = .all .output) :
    (Undisturbed (registerWriteEvents a d) s ∧
      writeRegister a d s = .go (drivenLive (registerWriteEvents a d) { s with a := a, d := d, i := 0 })) ∨
    (∃ pre why, StopIn (registerWriteEvents a d) pre why s ∧
      writeRegister a d s =
        .abandoned (stopNow why (drivenLive pre { s with a := a, d := d, i := Fin.ofNat 8 (7 - pre.length / 4) }))) := by
  rw [writeRegister_eq a d hi, registerWriteEvents_slots]
  rcases shiftSlots_live 7 { s with a := a, d := d } hb hm with ⟨h1, h2⟩ | ⟨pre, why, h1, h2⟩
  · rcases drive_live pulseEvents (drivenLive (slotsList a d 8) { s with a := a, d := d, i := 0 }) hb
      (drivenLive_ready (s := { s with a := a, d := d, i := 0 }) hm) with ⟨g1, g2⟩ | ⟨pre, why, g1, g2⟩
    · refine .inl ⟨(undisturbed_append _ _ s).2 ⟨h1, g1⟩, ?_⟩
      rw [h2, andThen_go, g2, drivenLive_append]
    · refine .inr ⟨slotsList a d 8 ++ pre, why, stopIn_right (s := s) h1 g1, ?_⟩
      rw [h2, andThen_go, g2, drivenLive_append, List.length_append, length_slots,
        show 7 - (4 * 8 + pre.length) / 4 = 0 by omega]
      rfl
  · refine .inr ⟨pre, why, stopIn_left _ h1, ?_⟩
    rw [h2, andThen_abandoned]

/-- Undisturbed, a register write under LIVE makes all its events. -/
theorem writeRegister_live_go (a d : Byte) {s : State} (hb : s.backend = .live) (hi : s.initialized = true)
    (hm : s.board.pinMode = .all .output) (hu : Undisturbed (registerWriteEvents a d) s) :
    writeRegister a d s = .go (drivenLive (registerWriteEvents a d) { s with a := a, d := d, i := 0 }) := by
  rcases writeRegister_live a d s hb hi hm with ⟨-, h⟩ | ⟨pre, why, h1, -⟩
  · exact h
  · exact absurd hu (stopIn_disturbs h1)

/-- A register write under LIVE that stops, stops there. -/
theorem writeRegister_live_stop (a d : Byte) {pre : List PinEvent} {why : Option Raised} {s : State}
    (hb : s.backend = .live) (hi : s.initialized = true) (hm : s.board.pinMode = .all .output)
    (h : StopIn (registerWriteEvents a d) pre why s) :
    writeRegister a d s =
      .abandoned (stopNow why (drivenLive pre { s with a := a, d := d, i := Fin.ofNat 8 (7 - pre.length / 4) })) := by
  rcases writeRegister_live a d s hb hi hm with ⟨hu, -⟩ | ⟨pre', why', h1, h2⟩
  · exact absurd hu (stopIn_disturbs h)
  · obtain ⟨h3, h4⟩ := stopIn_unique h h1
    rw [h3, h4]
    exact h2

/-! ### The board after a register write -/

/-- The board after one bit slot. -/
def afterSlot (b : Board) (la ld : Level) : Board :=
  { b with
    asr := b.asr.shift (some la)
    dsr := b.dsr.shift (some ld)
    pinLevel := { b.pinLevel with addrSer := some la, dataSer := some ld } }

theorem replay_slotEvents (b : Board) (a d : Byte) (i : Fin 8) (hc : b.pinLevel.shClk = some .low)
    (hm : b.pinLevel.shMrN = some .high) :
    b.replay (slotEvents a d i) = afterSlot b (levelOf (bit a i)) (levelOf (bit d i)) := replay_slot b _ _ hc hm

/-- The bit slots for I = n - 1 downto 0 as a function on the board. -/
def afterSlots (a d : Byte) : Nat → Board → Board
  | 0, b => b
  | n + 1, b => afterSlots a d n (afterSlot b (levelOf (bit a (Fin.ofNat 8 n))) (levelOf (bit d (Fin.ofNat 8 n))))

theorem replay_slotsList (a d : Byte) (n : Nat) (b : Board) (hc : b.pinLevel.shClk = some .low)
    (hm : b.pinLevel.shMrN = some .high) : b.replay (slotsList a d n) = afterSlots a d n b := by
  induction n generalizing b with
  | zero => rfl
  | succ n ih =>
    rw [slotsList, replay_append, replay_slotEvents b a d _ hc hm]
    exact ih _ hc hm

/-- The eight bit slots put both bytes into the shift stages, whatever they held, and leave the rest (R41). -/
theorem replay_serialWord (b : Board) (a d : Byte) (hc : b.pinLevel.shClk = some .low)
    (hm : b.pinLevel.shMrN = some .high) :
    b.replay (serialWord a d) =
      { b with
        asr := Stage.ofByte a
        dsr := Stage.ofByte d
        pinLevel :=
          { b.pinLevel with addrSer := some (levelOf (bit a 0)), dataSer := some (levelOf (bit d 0)) } } := by
  rw [← slotsList_eight, replay_slotsList a d 8 b hc hm]
  rfl

/-- One complete register write from idle pins (R77). -/
theorem replay_registerWrite (b : Board) (a d : Byte) (h : BoardIdle b) :
    b.replay (registerWriteEvents a d) = boardAfterWrite b a d := by
  obtain ⟨-, hwf, hclk, hlatch, hmr, hcs, hres, hreset, hsel, hrun⟩ := h
  have hl : registerWriteEvents a d =
      (serialWord a d ++ [.write .shLatch .high, .write .shLatch .low]) ++
        [.write .csN .low, .hold .csMin, .write .csN .high] := by
    rw [registerWriteEvents, List.append_assoc]
    rfl
  rw [hl, replay_append, replay_append, replay_serialWord b a d hclk hmr, replay_latch,
    replay_select _ (a.toNat % 32) d]
  · rfl
  · exact hcs
  · exact hreset
  · exact hres
  · exact hsel
  · exact hrun
  · exact abus_ofByte a
  · exact dbus_ofByte d
  · exact hwf
  · exact hlatch
  · exact hsel

/-- The board a complete register write leaves is idle again (R77: "every `WRITE_REGISTER` preserves"). -/
theorem boardAfterWrite_idle {b : Board} (a d : Byte) (h : BoardIdle b) : BoardIdle (boardAfterWrite b a d) := by
  obtain ⟨h1, h2, h3, h4, h5, h6, h7, h8, h9, h10⟩ := h
  exact ⟨h1, memory_write_wf d (Nat.mod_lt _ (by decide)) h2, h3, h4, h5, h6, h7, h8, h9, h10⟩

end Sys2Proof.Machine
end

