-- ==== Sys2Proof/Laws/Decode.lean ====
section
/-! SUPPORT. The laws of the decoder and of the framing function. -/

namespace Sys2Proof

open Sys2Proof.Safety

/-- Everything the classification of a pair can answer, with the range of the address byte (R52, R57). -/
theorem decodePair_cases (a d : Byte) :
    (a.toNat < 32 ∧ decodePair a d = .wr (a.setWidth Config.addrBits) d) ∨
    (32 ≤ a.toNat ∧ a.toNat < 64 ∧ decodePair a d = .wrIllegal32To63 a d) ∨
    (64 ≤ a.toNat ∧ a.toNat < 128 ∧ decodePair a d = .wrIllegal64To127 a d) ∨
    (128 ≤ a.toNat ∧ decodePair a d = .wrIllegal128To254 a d) := by
  have hl : Config.addrLimit = 32 := rfl
  unfold decodePair
  rw [hl]
  split
  · rename_i h1
    exact .inl ⟨h1, rfl⟩
  · split
    · rename_i h1 h2
      exact .inr (.inl ⟨by omega, h2, rfl⟩)
    · split
      · rename_i h1 h2 h3
        exact .inr (.inr (.inl ⟨by omega, h3, rfl⟩))
      · rename_i h1 h2 h3
        exact .inr (.inr (.inr ⟨by omega, rfl⟩))

/-- The addresses below ADDR_LIMIT are the ones the ADDR_BITS lines can carry (R5). -/
theorem addrLimit_eq : Config.addrLimit = 2 ^ Config.addrBits := rfl

/-- The five-bit field of an address byte below 32, widened again, is the byte (R56). -/
theorem setWidth_back {a : Byte} (h : a.toNat < 32) : (a.setWidth Config.addrBits).setWidth 8 = a := by
  apply BitVec.eq_of_toNat_eq
  simp only [BitVec.toNat_setWidth, show 2 ^ Config.addrBits = 32 from rfl]
  omega

theorem setWidth_ne_sentinel (addr : Address) : addr.setWidth 8 ≠ Config.sentinel := by
  revert addr
  decide

theorem setWidth_toNat (addr : Address) : (addr.setWidth 8).toNat = addr.toNat := by
  have h : addr.toNat < 32 := addr.isLt
  simp only [BitVec.toNat_setWidth]
  omega

/-- Two bytes whose first is not the sentinel are read as one pair (R52, R53). -/
theorem decodeToken_pair {a : Byte} (d : Byte) (rest : List Byte) (h : a ≠ Config.sentinel) :
    decodeToken (a :: d :: rest) = .token (decodePair a d) rest := by
  simp only [decodeToken, h, if_false]

/-- An address byte below 255 is not the sentinel. -/
theorem ne_sentinel {a : Byte} (h : a.toNat < 255) : a ≠ Config.sentinel := by
  rintro rfl
  exact absurd h (by decide)

@[simp] theorem decompose_nil : decompose [] = [] := rfl

@[simp] theorem decompose_pair (a d : Byte) (rest : List Byte) :
    decompose (a :: d :: rest) = .pair a d :: decompose rest := rfl

@[simp] theorem decompose_single (b : Byte) : decompose [b] = [.dangling b] := rfl

/-- The reader sees an END exactly where the sentinel stands at an even offset (R52, R88). -/
theorem decodeArriving_eq (n : Nat) (b : Byte) :
    decodeArriving n b = if n % 2 = 0 ∧ b = Config.sentinel then some .endFrame else none := by
  unfold decodeArriving
  by_cases hn : n % 2 = 0
  · by_cases hb : b = Config.sentinel
    · simp [hn, hb, decodeToken]
    · simp [hn, hb, decodeToken]
  · simp [hn]

end Sys2Proof
end

