-- ==== Sys2Proof/Laws/Lifecycle.lean ====
section
/-! SUPPORT. Everything INITIALIZE and STARTUP can do (42_chip_lifecycle.md R81, 44_orchestrator.md R103). -/

namespace Sys2Proof.Machine

open Sys2Proof.Safety

/-- The seven SET_MODEs of INITIALIZE. -/
def modeEvents : List PinEvent := configuredPins.map .mode

/-- INITIALIZE is its 15 primitives and then the flag (R81). -/
theorem initializeBlock_eq (s : State) :
    initializeBlock s = (drive initializeEvents s).andThen (fun t => .go { t with initialized := true }) := by
  have h : initializeEvents = (configuredPins.map .mode ++ resetEvents) ++ clearEvents := rfl
  rw [initializeBlock, h, drive_append, drive_append]

theorem initializeEvents_split : initializeEvents = modeEvents ++ (resetEvents ++ clearEvents) := rfl

theorem countWrites_initialize : countWrites initializeEvents = 7 := rfl

theorem holds_initialize : initializeEvents.filter isHold = [.hold .resMin] := rfl

/-- A prefix of the SET_MODEs under LIVE, whatever the pin modes were: all of it happens, or the run is cut in it. -/
theorem drive_modes (ps : List Pin) (s : State) (hb : s.backend = .live) :
    (Undisturbed (ps.map .mode) s ∧ drive (ps.map .mode) s = .go (drivenLive (ps.map .mode) s)) ∨
    (∃ pre why, StopIn (ps.map .mode) pre why s ∧
      drive (ps.map .mode) s = .abandoned (stopNow why (drivenLive pre s))) := by
  induction ps generalizing s with
  | nil => exact .inl ⟨undisturbed_nil s, by rw [List.map_nil, drivenLive_nil]; rfl⟩
  | cons p ps ih =>
    rw [List.map_cons]
    by_cases hc : s.params.cutAt = some (s.trace.length + 1)
    · refine .inr ⟨[], none, ⟨_, _, rfl, undisturbed_nil s, ?_⟩, ?_⟩
      · rw [drivenLive_nil]
        exact .inl ⟨rfl, hc⟩
      · rw [drive, perform_cut (by rw [cutDue_live hb]; exact decide_eq_true hc), andThen_abandoned, drivenLive_nil]
        rfl
    · have hp : perform (.mode p) s = .go (drivenLive [.mode p] s) := by
        rw [perform_uncut (by rw [cutDue_live hb]; exact decide_eq_false hc)]
        simp only [primitive, setMode, hb]
        rfl
      have hu : Undisturbed [.mode p] s :=
        ⟨fun _ hk => absurd hk (Nat.not_lt_zero _), fun k (hk : k < 1) => by rwa [show k = 0 by omega]⟩
      rcases ih (drivenLive [.mode p] s) hb with ⟨g1, g2⟩ | ⟨pre, why, g1, g2⟩
      · refine .inl ⟨(undisturbed_append [.mode p] _ s).2 ⟨hu, g1⟩, ?_⟩
        rw [drive, hp, andThen_go, g2, drivenLive_append]
        rfl
      · refine .inr ⟨[PinEvent.mode p] ++ pre, why, stopIn_right (es := [.mode p]) hu g1, ?_⟩
        rw [drive, hp, andThen_go, g2, drivenLive_append]

/-- After the seven SET_MODEs every pin is an output, whatever it was. -/
theorem modes_output (s : State) : (drivenLive modeEvents s).board.pinMode = .all .output := rfl

@[simp] theorem length_initialize : initializeEvents.length = 15 := rfl

/-- INITIALIZE under NOOP: one Hold (R66). -/
theorem initializeBlock_noop {s : State} (h : s.backend = .noop) (hc : NoCut 1 s) :
    initializeBlock s = .go { s with trace := s.trace ++ [.hold .resMin], initialized := true } := by
  rw [initializeBlock_eq, drive_noop initializeEvents s h (by rw [holds_initialize]; exact hc), holds_initialize]
  rfl

/-- INITIALIZE under NOOP in which the run is cut, at its one event. -/
theorem initializeBlock_noop_cut {s : State} (h : s.backend = .noop)
    (hc : s.params.cutAt = some (s.trace.length + 1)) : initializeBlock s = .abandoned (cutRun s) := by
  rw [initializeBlock_eq]
  have hd : drive initializeEvents s = .abandoned (cutRun s) :=
    drive_noop_cut (pre := modeEvents ++ [PinEvent.write .resN .low])
      (post := PinEvent.write .resN .high :: .write .csN .high :: clearEvents) (t := .resMin) h rfl hc
  rw [hd, andThen_abandoned]

/-- Everything INITIALIZE can do under LIVE: all 15 events and the flag, or the events before the first at which a pin write
fails or the run is cut (R81, R69, R142). -/
theorem initializeBlock_live (s : State) (hb : s.backend = .live) :
    (Undisturbed initializeEvents s ∧
      initializeBlock s = .go { drivenLive initializeEvents s with initialized := true }) ∨
    (∃ pre why, StopIn initializeEvents pre why s ∧
      initializeBlock s = .abandoned (stopNow why (drivenLive pre s))) := by
  rw [initializeBlock_eq, initializeEvents_split, drive_append]
  rcases drive_modes configuredPins s hb with ⟨m1, m2⟩ | ⟨pre, why, m1, m2⟩
  · rw [show drive modeEvents s = _ from m2, andThen_go]
    rcases drive_live (resetEvents ++ clearEvents) (drivenLive modeEvents s) hb (modes_output s) with
      ⟨h1, h2⟩ | ⟨pre, why, h1, h2⟩
    · refine .inl ⟨(undisturbed_append _ _ s).2 ⟨m1, h1⟩, ?_⟩
      rw [show drive (resetEvents ++ clearEvents) (drivenLive (configuredPins.map .mode) s) = _ from h2, andThen_go,
        drivenLive_append]
    · refine .inr ⟨modeEvents ++ pre, why, stopIn_right m1 h1, ?_⟩
      rw [show drive (resetEvents ++ clearEvents) (drivenLive (configuredPins.map .mode) s) = _ from h2,
        andThen_abandoned, drivenLive_append]
  · refine .inr ⟨pre, why, stopIn_left _ m1, ?_⟩
    rw [show drive modeEvents s = _ from m2, andThen_abandoned, andThen_abandoned]

/-- Undisturbed, INITIALIZE under LIVE makes all its events. -/
theorem initializeBlock_live_go {s : State} (hb : s.backend = .live) (hu : Undisturbed initializeEvents s) :
    initializeBlock s = .go { drivenLive initializeEvents s with initialized := true } := by
  rcases initializeBlock_live s hb with ⟨-, h⟩ | ⟨pre, why, h1, -⟩
  · exact h
  · exact absurd hu (stopIn_disturbs h1)

/-- An INITIALIZE under LIVE that stops, stops there. -/
theorem initializeBlock_live_stop {pre : List PinEvent} {why : Option Raised} {s : State} (hb : s.backend = .live)
    (h : StopIn initializeEvents pre why s) : initializeBlock s = .abandoned (stopNow why (drivenLive pre s)) := by
  rcases initializeBlock_live s hb with ⟨hu, -⟩ | ⟨pre', why', h1, h2⟩
  · exact absurd hu (stopIn_disturbs h)
  · obtain ⟨h3, h4⟩ := stopIn_unique h h1
    rw [h3, h4]
    exact h2

/-- The three ways STARTUP can choose (R67). -/
theorem selectBackend_cases (s : State) :
    (s.params.disableHw = true ∧ selectBackend s = .go { s with backend := .noop }) ∨
    (s.params.disableHw = false ∧ s.params.hwAvailable = true ∧ selectBackend s = .go { s with backend := .live }) ∨
    (s.params.disableHw = false ∧ s.params.hwAvailable = false ∧
      selectBackend s = .abandoned (halted .hardwareUnavailable s)) := by
  unfold selectBackend
  cases h1 : s.params.disableHw
  · cases h2 : s.params.hwAvailable
    · exact .inr (.inr ⟨rfl, rfl, rfl⟩)
    · exact .inr (.inl ⟨rfl, rfl, rfl⟩)
  · exact .inl ⟨rfl, rfl⟩

/-- STARTUP is not refused where the demonstration is not asked for, or is given in full (R108). -/
theorem startup_ready {s : State} (h : DemoReady s) : startup s = .next (startupFlow s).state := by
  unfold startup
  cases hd : s.params.demoMode
  · rfl
  · obtain ⟨seq, again, h1, h2, h3⟩ := h hd
    have hv : demoAddressesValid seq = true := by
      rw [demoAddressesValid, List.all_eq_true]
      exact fun w hw => decide_eq_true (h3 w hw)
    simp [h1, h2, hv]

/-- What STARTUP ends with, once the block is initialised. -/
theorem enterLoop_eq (s : State) : enterLoop { s with initialized := true } = .go (afterStartup s) := by
  unfold enterLoop afterStartup
  cases s.params.demoMode <;> rfl

/-- A STARTUP that is not refused is its statements (R103). -/
theorem startup_flow {s t : State} (h : startup s = .next t) : t = (startupFlow s).state := by
  unfold startup at h
  split at h
  · split at h
    · split at h
      · simpa using h.symm
      · cases h
    · cases h
  · simpa using h.symm

end Sys2Proof.Machine
end

