-- ==== Sys2Proof/Laws/Driven.lean ====
section
/-! SUPPORT. Everything a list of primitives and a register write can do in ANY state, whatever the backend, the pin modes,
INITIALIZED and the host's cut are: the form the invariants use. -/

namespace Sys2Proof.Machine

open Sys2Proof.Safety

/-- The events among `es` that the backend of `s` records: all under LIVE, the Holds otherwise (R66). -/
def recorded (s : State) (es : List PinEvent) : List PinEvent :=
  if s.backend = .live then es else es.filter isHold

/-- The state after the events `es` were driven, `n` being the count of pin writes then. -/
def drivenBy (es : List PinEvent) (n : Nat) (s : State) : State :=
  { s with
    trace := s.trace ++ recorded s es
    board := if s.backend = .live then s.board.replay es else s.board
    pinWrites := n }

theorem recorded_append (s : State) (es fs : List PinEvent) :
    recorded s (es ++ fs) = recorded s es ++ recorded s fs := by
  unfold recorded
  split
  · rfl
  · exact List.filter_append ..

theorem recorded_same {s t : State} (h : t.backend = s.backend) (es : List PinEvent) : recorded t es = recorded s es := by
  rw [recorded, recorded, h]

@[simp] theorem recorded_nil (s : State) : recorded s [] = [] := by
  unfold recorded
  split <;> rfl

theorem drivenBy_live {s : State} (h : s.backend = .live) (es : List PinEvent) (n : Nat) :
    drivenBy es n s = { s with trace := s.trace ++ es, board := s.board.replay es, pinWrites := n } := by
  simp only [drivenBy, recorded, if_pos h]

theorem drivenBy_other {s : State} (h : s.backend ≠ .live) (es : List PinEvent) (n : Nat) :
    drivenBy es n s = { s with trace := s.trace ++ es.filter isHold, pinWrites := n } := by
  simp only [drivenBy, recorded, if_neg h]

theorem drivenBy_nil (s : State) : drivenBy [] s.pinWrites s = s := by
  simp [drivenBy]

theorem drivenBy_drivenBy (es fs : List PinEvent) (n m : Nat) (s : State) :
    drivenBy fs m (drivenBy es n s) = drivenBy (es ++ fs) m s := by
  by_cases hb : s.backend = .live
  · rw [drivenBy_live (s := drivenBy es n s) hb, drivenBy_live hb, drivenBy_live hb]
    simp only [List.append_assoc, replay_append]
  · rw [drivenBy_other (s := drivenBy es n s) hb, drivenBy_other hb, drivenBy_other hb]
    simp only [List.append_assoc, List.filter_append]

/-- Where no pin write is NotInitialized: under NOOP, and under LIVE once every pin is an output (R63, R66). -/
abbrev PinsReady (s : State) : Prop := s.backend = .noop ∨ (s.backend = .live ∧ s.board.pinMode = .all .output)

/-- What can stop an operation at the event `e`, begun from `s`: the run is cut there (`none`), or its pin write faults
(R69, R118, R142). -/
abbrev StopsWith (s : State) (e : PinEvent) (why : Option Raised) : Prop :=
  why = none ∨ ∃ p l r, e = .write p l ∧ why = some r ∧ (r = .pinWriteFailure p l ∨ (r = .notInitialized ∧ ¬ PinsReady s))

/-- The state in which an operation is stopped. -/
def stopped : Option Raised → State → State
  | none, s => cutRun s
  | some r, s => halted r s

theorem pinsReady_drivenBy {s : State} (es : List PinEvent) (n : Nat) (h : PinsReady s) : PinsReady (drivenBy es n s) := by
  rcases h with h | ⟨h, hm⟩
  · exact .inl h
  · refine .inr ⟨h, ?_⟩
    rw [drivenBy_live h]
    exact replay_pinMode_output hm

theorem stopsWith_before {s : State} {es : List PinEvent} {n : Nat} {e : PinEvent} {why : Option Raised}
    (h : StopsWith (drivenBy es n s) e why) : StopsWith s e why := by
  rcases h with h | ⟨p, l, r, h1, h2, h3⟩
  · exact .inl h
  · exact .inr ⟨p, l, r, h1, h2, h3.imp_right fun k => ⟨k.1, fun hs => k.2 (pinsReady_drivenBy es n hs)⟩⟩

theorem hold_filter_mode (p : Pin) : [PinEvent.mode p].filter isHold = [] := rfl

theorem hold_filter_write (p : Pin) (l : Level) : [PinEvent.write p l].filter isHold = [] := rfl

theorem hold_filter_hold (t : Duration) : [PinEvent.hold t].filter isHold = [.hold t] := rfl

/-- Everything one primitive can do in any state, where the run is not cut at it. -/
theorem primitive_any (e : PinEvent) (s : State) :
    (∃ n, primitive e s = .go (drivenBy [e] n s)) ∨
    (∃ why n, StopsWith s e why ∧ primitive e s = .abandoned (stopped why (drivenBy [] n s))) := by
  cases e with
  | mode p =>
    refine .inl ⟨s.pinWrites, ?_⟩
    cases hb : s.backend
    · rw [drivenBy_other (by rw [hb]; decide)]
      simp only [primitive, setMode, hb, hold_filter_mode, List.append_nil]
      rw [← hb]
    · rw [drivenBy_live hb]
      simp only [primitive, setMode, hb, emit, replay_cons, replay_nil]
    · rw [drivenBy_other (by rw [hb]; decide)]
      simp only [primitive, setMode, hb, hold_filter_mode, List.append_nil]
      rw [← hb]
  | hold t =>
    refine .inl ⟨s.pinWrites, ?_⟩
    cases hb : s.backend
    · rw [drivenBy_other (by rw [hb]; decide)]
      simp only [primitive, hold, hb, hold_filter_hold]
    · rw [drivenBy_live hb]
      simp only [primitive, hold, hb, emit, replay_cons, replay_nil]
    · rw [drivenBy_other (by rw [hb]; decide)]
      simp only [primitive, hold, hb, hold_filter_hold]
  | write p l =>
    rcases pinWrite_cases p l s with ⟨hb, h⟩ | ⟨hb, -, -, h⟩ | ⟨hb, -, -, h⟩ | ⟨hb, h⟩
    · refine .inl ⟨s.pinWrites, ?_⟩
      rw [drivenBy_other (by rw [hb]; decide), primitive, h, hold_filter_write, List.append_nil]
    · refine .inl ⟨s.pinWrites + 1, ?_⟩
      rw [drivenBy_live hb, primitive, h]
      rfl
    · exact .inr ⟨some (.pinWriteFailure p l), s.pinWrites + 1, .inr ⟨p, l, _, rfl, rfl, .inl rfl⟩, by
        simp [primitive, h, drivenBy, stopped]⟩
    · refine .inr ⟨some .notInitialized, s.pinWrites, .inr ⟨p, l, _, rfl, rfl, .inr ⟨rfl, ?_⟩⟩, by
        simp [primitive, h, drivenBy, stopped]⟩
      rintro (hs | ⟨hs, hm⟩)
      · rw [hs] at hb
        simp at hb
      · rw [hs, hm, perPin_get_all] at hb
        simp at hb

/-- Everything one primitive can do in any state. -/
theorem perform_any (e : PinEvent) (s : State) :
    (∃ n, perform e s = .go (drivenBy [e] n s)) ∨
    (∃ why n, StopsWith s e why ∧ perform e s = .abandoned (stopped why (drivenBy [] n s))) := by
  cases hc : cutDue e s
  · rw [perform_uncut hc]
    exact primitive_any e s
  · refine .inr ⟨none, s.pinWrites, .inl rfl, ?_⟩
    rw [perform_cut hc, drivenBy_nil]
    rfl

/-- Everything a list of primitives can do in any state: all of it, or it is abandoned at one of its events. -/
theorem drive_any (es : List PinEvent) (s : State) :
    (∃ n, drive es s = .go (drivenBy es n s)) ∨
    (∃ pre e post why n, es = pre ++ e :: post ∧ StopsWith s e why ∧
      drive es s = .abandoned (stopped why (drivenBy pre n s))) := by
  induction es generalizing s with
  | nil => exact .inl ⟨s.pinWrites, by rw [drivenBy_nil]; rfl⟩
  | cons e es ih =>
    rcases perform_any e s with ⟨n, h⟩ | ⟨why, n, hr, h⟩
    · rcases ih (drivenBy [e] n s) with ⟨m, g⟩ | ⟨pre, f, post, why, m, g1, g2, g3⟩
      · refine .inl ⟨m, ?_⟩
        rw [drive, h, andThen_go, g, drivenBy_drivenBy]
        rfl
      · refine .inr ⟨e :: pre, f, post, why, m, by rw [g1]; rfl, stopsWith_before g2, ?_⟩
        rw [drive, h, andThen_go, g3, drivenBy_drivenBy]
        rfl
    · refine .inr ⟨[], e, es, why, n, rfl, hr, ?_⟩
      rw [drive, h, andThen_abandoned]

/-- A state but for the operand registers (R18). -/
def withOperands (a d : Byte) (i : Fin 8) (s : State) : State := { s with a := a, d := d, i := i }

theorem drivenBy_withOperands (es : List PinEvent) (n : Nat) (a d : Byte) (i : Fin 8) (s : State) :
    withOperands a d i (drivenBy es n s) = drivenBy es n (withOperands a d i s) := rfl

/-- Everything the bit slots can do in any state. -/
theorem shiftSlots_any (k : Nat) (s : State) :
    (∃ n i, shiftSlots k s = .go (drivenBy (slotsList s.a s.d k) n (withOperands s.a s.d i s))) ∨
    (∃ pre e post why n i, slotsList s.a s.d k = pre ++ e :: post ∧ StopsWith s e why ∧
      shiftSlots k s = .abandoned (stopped why (drivenBy pre n (withOperands s.a s.d i s)))) := by
  induction k generalizing s with
  | zero => exact .inl ⟨s.pinWrites, s.i, by
      have : withOperands s.a s.d s.i s = s := rfl
      rw [this, slotsList, drivenBy_nil]
      rfl⟩
  | succ k ih =>
    have hstep : shiftSlots (k + 1) s =
        (drive (slotEvents s.a s.d (Fin.ofNat 8 k)) (withOperands s.a s.d (Fin.ofNat 8 k) s)).andThen (shiftSlots k) := rfl
    rcases drive_any (slotEvents s.a s.d (Fin.ofNat 8 k)) (withOperands s.a s.d (Fin.ofNat 8 k) s) with
      ⟨n, h⟩ | ⟨pre, e, post, why, n, h1, h2, h3⟩
    · rcases ih (drivenBy (slotEvents s.a s.d (Fin.ofNat 8 k)) n (withOperands s.a s.d (Fin.ofNat 8 k) s)) with
        ⟨m, i, g⟩ | ⟨pre, e, post, why, m, i, g1, g2, g3⟩
      · refine .inl ⟨m, i, ?_⟩
        rw [hstep, h, andThen_go, g]
        exact congrArg Flow.go (drivenBy_drivenBy _ _ n m (withOperands s.a s.d i s))
      · refine .inr ⟨slotEvents s.a s.d (Fin.ofNat 8 k) ++ pre, e, post, why, m, i, ?_, stopsWith_before (n := n) g2, ?_⟩
        · have g1' : slotsList s.a s.d k = pre ++ e :: post := g1
          rw [slotsList, g1', List.append_assoc]
        · rw [hstep, h, andThen_go, g3]
          exact congrArg (fun t => Flow.abandoned (stopped why t)) (drivenBy_drivenBy _ _ n m (withOperands s.a s.d i s))
    · refine .inr ⟨pre, e, post ++ slotsList s.a s.d k, why, n, Fin.ofNat 8 k, ?_, h2, ?_⟩
      · rw [slotsList, h1, List.append_assoc]
        rfl
      · rw [hstep, h3, andThen_abandoned]

/-- Everything WRITE_REGISTER can do in any state: refuse before INITIALIZE; drive all its events; or be abandoned at one of
them (R75, R79, R118, R142). -/
theorem writeRegister_any (a d : Byte) (s : State) :
    (s.initialized = false ∧ writeRegister a d s = .abandoned (halted .notInitialized s)) ∨
    (s.initialized = true ∧ ∃ n i, writeRegister a d s = .go (drivenBy (registerWriteEvents a d) n (withOperands a d i s))) ∨
    (s.initialized = true ∧ ∃ pre e post why n i, registerWriteEvents a d = pre ++ e :: post ∧ StopsWith s e why ∧
      writeRegister a d s = .abandoned (stopped why (drivenBy pre n (withOperands a d i s)))) := by
  cases hi : s.initialized
  · refine .inl ⟨rfl, ?_⟩
    simp only [writeRegister, hi, Bool.false_eq_true, if_false]
    rfl
  · rw [writeRegister_eq a d hi, registerWriteEvents_slots]
    rcases shiftSlots_any 8 { s with a := a, d := d } with ⟨n, i, h⟩ | ⟨pre, e, post, why, n, i, h1, h2, h3⟩
    · have h' : shiftSlots 8 { s with a := a, d := d } =
          .go (drivenBy (slotsList a d 8) n (withOperands a d i s)) := h
      rcases drive_any pulseEvents (drivenBy (slotsList a d 8) n (withOperands a d i s)) with
        ⟨m, g⟩ | ⟨pre, e, post, why, m, g1, g2, g3⟩
      · refine .inr (.inl ⟨rfl, m, i, ?_⟩)
        rw [h', andThen_go, g, drivenBy_drivenBy]
      · refine .inr (.inr ⟨rfl, slotsList a d 8 ++ pre, e, post, why, m, i, ?_, stopsWith_before (n := n) g2, ?_⟩)
        · rw [g1, List.append_assoc]
        · rw [h', andThen_go, g3, drivenBy_drivenBy]
    · refine .inr (.inr ⟨rfl, pre, e, post ++ pulseEvents, why, n, i, ?_, h2, ?_⟩)
      · have h1' : slotsList a d 8 = pre ++ e :: post := h1
        rw [h1', List.append_assoc]
        rfl
      · rw [h3, andThen_abandoned]
        rfl

/-- Everything INITIALIZE can do once a backend is chosen, whatever the pin modes were: it configures them first. -/
theorem initializeBlock_any (s : State) (hb : s.backend = .live ∨ s.backend = .noop) :
    (∃ n, initializeBlock s = .go { drivenBy initializeEvents n s with initialized := true }) ∨
    (∃ pre e post why n, initializeEvents = pre ++ e :: post ∧
      (why = none ∨ ∃ p l, e = .write p l ∧ why = some (.pinWriteFailure p l)) ∧
      initializeBlock s = .abandoned (stopped why (drivenBy pre n s))) := by
  rcases hb with hb | hb
  · rcases initializeBlock_live s hb with ⟨-, h⟩ | ⟨pre, why, ⟨e, post, h1, -, h3⟩, h4⟩
    · exact .inl ⟨s.pinWrites + countWrites initializeEvents, by rw [h, drivenBy_live hb]; rfl⟩
    · rcases h3 with ⟨rfl, -⟩ | ⟨p, l, rfl, rfl, -⟩
      · exact .inr ⟨pre, e, post, none, s.pinWrites + countWrites pre, h1, .inl rfl, by rw [h4, drivenBy_live hb]; rfl⟩
      · exact .inr ⟨pre, _, post, _, s.pinWrites + countWrites pre + 1, h1, .inr ⟨p, l, rfl, rfl⟩, by
          rw [h4, drivenBy_live hb]; rfl⟩
  · by_cases hc : s.params.cutAt = some (s.trace.length + 1)
    · refine .inr ⟨[], _, _, none, s.pinWrites, rfl, .inl rfl, ?_⟩
      rw [initializeBlock_noop_cut hb hc, drivenBy_nil]
      rfl
    · refine .inl ⟨s.pinWrites, ?_⟩
      rw [initializeBlock_noop hb (fun k hk => by rwa [show k = 0 by omega]), drivenBy_other (by rw [hb]; decide),
        holds_initialize]

end Sys2Proof.Machine
end

