-- ==== Sys2Proof/Laws/PerInstr.lean ====
section
/-! SUPPORT. Statements about every instruction as syntax, one lemma for each constructor: the bytes of a well-formed token
match the mask and the pattern of its row of the opcode table (30_encoding.md R53, R54). -/

namespace Sys2Proof.Laws

/-- The match and mask columns of spec/opcode_table.json, and the width of the row in bytes. -/
def rowOf : Instr → Nat × Nat × Nat
  | .endFrame => (0xFF, 0xFF, 1)
  | .wr _ _ => (0x0000, 0xE000, 2)
  | .wrIllegal32To63 _ _ => (0x2000, 0xE000, 2)
  | .wrIllegal64To127 _ _ => (0x4000, 0xC000, 2)
  | .wrIllegal128To254 _ _ => (0x8000, 0x8000, 2)

/-- The bytes of a token as the one number of its row, the first byte in the high bits (log 21). -/
def wordOf (bytes : List Byte) : Nat := bytes.foldl (fun n b => 256 * n + b.toNat) 0

/-- The encoding of a well-formed token has the width of its row and matches its pattern under its mask. -/
def EncodingMatchesRow.Statement (i : Instr) : Prop :=
  i.wf = true →
    (encode i).length = (rowOf i).2.2 ∧ wordOf (encode i) &&& (rowOf i).2.1 = (rowOf i).1

theorem EncodingMatchesRow.endFrame : EncodingMatchesRow.Statement .endFrame := fun _ => by decide

/-- Masking the high bits of a two-byte word keeps the high bits of its first byte. -/
theorem mask_high (a d : Byte) (m : Nat) :
    wordOf [a, d] &&& (m * 256) = (a.toNat &&& m) * 256 := by
  have h : wordOf [a, d] = a.toNat <<< 8 ||| d.toNat := by
    have hd : d.toNat < 2 ^ 8 := d.isLt
    rw [← Nat.shiftLeft_add_eq_or_of_lt hd, Nat.shiftLeft_eq]
    simp only [wordOf, List.foldl]
    omega
  apply Nat.eq_of_testBit_eq
  intro k
  rw [h, show m * 256 = m <<< 8 by rw [Nat.shiftLeft_eq], show (a.toNat &&& m) * 256 = (a.toNat &&& m) <<< 8 by
    rw [Nat.shiftLeft_eq]]
  simp only [Nat.testBit_and, Nat.testBit_or, Nat.testBit_shiftLeft]
  by_cases hk : 8 ≤ k
  · have hd : d.toNat.testBit k = false :=
      Nat.testBit_lt_two_pow (Nat.lt_of_lt_of_le d.isLt (Nat.pow_le_pow_right (by decide) hk))
    simp [hk, hd]
  · simp [hk]

theorem EncodingMatchesRow.wr (addr : Address) (data : Data) : EncodingMatchesRow.Statement (.wr addr data) := fun _ => by
  refine ⟨rfl, ?_⟩
  show wordOf [addr.setWidth 8, data] &&& (0xE0 * 256) = 0
  rw [mask_high]
  have h : ∀ x : Address, ((x.setWidth 8).toNat &&& 0xE0) * 256 = 0 := by decide
  exact h addr

theorem EncodingMatchesRow.wrIllegal32To63 (a d : Byte) : EncodingMatchesRow.Statement (.wrIllegal32To63 a d) := fun h => by
  refine ⟨rfl, ?_⟩
  show wordOf [a, d] &&& (0xE0 * 256) = 0x20 * 256
  rw [mask_high]
  simp only [Instr.wf, decide_eq_true_eq] at h
  revert a
  decide

theorem EncodingMatchesRow.wrIllegal64To127 (a d : Byte) : EncodingMatchesRow.Statement (.wrIllegal64To127 a d) := fun h => by
  refine ⟨rfl, ?_⟩
  show wordOf [a, d] &&& (0xC0 * 256) = 0x40 * 256
  rw [mask_high]
  simp only [Instr.wf, decide_eq_true_eq] at h
  revert a
  decide

theorem EncodingMatchesRow.wrIllegal128To254 (a d : Byte) : EncodingMatchesRow.Statement (.wrIllegal128To254 a d) := fun h => by
  refine ⟨rfl, ?_⟩
  show wordOf [a, d] &&& (0x80 * 256) = 0x80 * 256
  rw [mask_high]
  simp only [Instr.wf, decide_eq_true_eq] at h
  revert a
  decide

end Sys2Proof.Laws
end

