-- ==== Sys2Proof/Laws/Step.lean ====
section
/-! SUPPORT. What one step can do, said once: the inversion of `step`, and what the operations that a step runs leave alone. -/

namespace Sys2Proof.Machine

open Sys2Proof.Safety

/-! ### Register writes in general -/

/-- What a register write can change: what primitives change, and the operand registers A, D and I. -/
structure OnlyWritten (s t : State) : Prop where
  params : t.params = s.params
  backend : t.backend = s.backend
  initialized : t.initialized = s.initialized
  micro : t.micro = s.micro
  buf : t.buf = s.buf
  frame : t.frame = s.frame
  idx : t.idx = s.idx
  pos : t.pos = s.pos
  nframes : t.nframes = s.nframes
  input : t.input = s.input

theorem onlyWritten_of_driven {s t : State} (h : OnlyDriven s t) : OnlyWritten s t :=
  ⟨h.params, h.backend, h.initialized, h.micro, h.buf, h.frame, h.idx, h.pos, h.nframes, h.input⟩

theorem onlyWritten_trans {s t u : State} (h : OnlyWritten s t) (k : OnlyWritten t u) : OnlyWritten s u :=
  ⟨k.params.trans h.params, k.backend.trans h.backend, k.initialized.trans h.initialized, k.micro.trans h.micro,
    k.buf.trans h.buf, k.frame.trans h.frame, k.idx.trans h.idx, k.pos.trans h.pos, k.nframes.trans h.nframes,
    k.input.trans h.input⟩

theorem onlyWritten_andThen {s : State} {f : Flow} {g : State → Flow} (hf : OnlyWritten s f.state)
    (hg : ∀ t, OnlyWritten t (g t).state) : OnlyWritten s (f.andThen g).state := by
  cases f with
  | go t => exact onlyWritten_trans hf (hg t)
  | abandoned t => exact hf

theorem onlyWritten_shiftSlots (n : Nat) (s : State) : OnlyWritten s (shiftSlots n s).state := by
  induction n generalizing s with
  | zero => exact ⟨rfl, rfl, rfl, rfl, rfl, rfl, rfl, rfl, rfl, rfl⟩
  | succ n ih =>
    have h0 : OnlyWritten s { s with i := Fin.ofNat 8 n } := ⟨rfl, rfl, rfl, rfl, rfl, rfl, rfl, rfl, rfl, rfl⟩
    have h1 := onlyWritten_of_driven (onlyDriven_drive (slotEvents s.a s.d (Fin.ofNat 8 n)) { s with i := Fin.ofNat 8 n })
    exact onlyWritten_andThen (onlyWritten_trans h0 h1) ih

/-- A register write, complete or not, in any state. -/
theorem onlyWritten_writeRegister (a d : Byte) (s : State) : OnlyWritten s (writeRegister a d s).state := by
  unfold writeRegister
  split
  · have h0 : OnlyWritten s { s with a := a, d := d } := ⟨rfl, rfl, rfl, rfl, rfl, rfl, rfl, rfl, rfl, rfl⟩
    exact onlyWritten_andThen (onlyWritten_andThen (onlyWritten_trans h0 (onlyWritten_shiftSlots _ _))
      (fun t => onlyWritten_of_driven (onlyDriven_drive _ t))) (fun t => onlyWritten_of_driven (onlyDriven_drive _ t))
  · exact ⟨rfl, rfl, rfl, rfl, rfl, rfl, rfl, rfl, rfl, rfl⟩

/-! ### The inversion of a step -/

/-- Everything a step that answers a next state can be: one line for each kind of action (R104, R111). -/
inductive StepKind (s t : State) : Prop where
  | startup (h : notStarted s = true) (e : startup s = .next t)
  | demo (k : Nat) (hc : s.ctrl = .off) (hm : s.micro = .demo k) (e : demoStep k s = .next t)
  | wait (hc : s.ctrl = .accum) (hi : s.input = []) (e : t = s)
  | endToken (events : List InputEvent) (hc : s.ctrl = .accum) (hi : s.input = .byte Config.sentinel :: events)
      (hp : s.buf.length % 2 = 0) (e : t = emitFrame (takeByte s))
  | accept (b : Byte) (events : List InputEvent) (hc : s.ctrl = .accum) (hi : s.input = .byte b :: events)
      (hp : ¬ (s.buf.length % 2 = 0 ∧ b = Config.sentinel)) (e : t = (acceptByte b s).state)
  | endOfStream (events : List InputEvent) (hc : s.ctrl = .accum) (hi : s.input = .endOfStream :: events)
      (e : t = endOfStream s)
  | ioError (events : List InputEvent) (hc : s.ctrl = .accum) (hi : s.input = .ioError :: events)
      (e : t = (ioError s).state)
  | drainHead (hc : s.ctrl = .emit) (hm : s.micro ≠ .walk) (e : t = (drainHead s).state)
  | pair (a d : Byte) (rest : List Item) (hc : s.ctrl = .emit) (hm : s.micro = .walk)
      (hd : decompose (s.frame.drop s.idx) = .pair a d :: rest) (e : exec (decodePair a d) s = .next t)
  | dangling (b : Byte) (rest : List Item) (hc : s.ctrl = .emit) (hm : s.micro = .walk)
      (hd : decompose (s.frame.drop s.idx) = .dangling b :: rest) (e : t = (danglingByte b s).state)
  | drainEnd (hc : s.ctrl = .emit) (hm : s.micro = .walk) (hd : decompose (s.frame.drop s.idx) = [])
      (e : t = drainEnd s)

/-- A run that was cut takes no step (R142). -/
theorem step_of_cut {s : State} (h : s.cut = true) : step s = .fault .runCut := by
  rw [step, fetch, if_pos h]
  rfl

/-- The step of a run that was not cut. -/
theorem step_of_uncut {s : State} (h : s.cut = false) :
    step s = match fetchAction s with
      | .token i => exec i s
      | .pass p => runPass p s := by
  rw [step, fetch, h]
  rfl

/-- Only a run that was not cut takes a step that answers a next state. -/
theorem uncut_of_step {s t : State} (h : step s = .next t) : s.cut = false := by
  cases hc : s.cut
  · rfl
  · rw [step_of_cut hc] at h
    cases h

theorem step_cases {s t : State} (h : step s = .next t) : StepKind s t := by
  have hcut := uncut_of_step h
  rw [step_of_uncut hcut] at h
  unfold fetchAction at h
  cases hc : s.ctrl with
  | off =>
    simp only [hc] at h
    cases hm : s.micro with
    | demo k =>
      simp only [hm] at h
      exact .demo k hc hm h
    | entry =>
      simp only [hm] at h
      exact .startup (by simp [notStarted, hc, hm, hcut]) h
    | walk =>
      simp only [hm] at h
      exact .startup (by simp [notStarted, hc, hm, hcut]) h
  | done => simp [hc, runPass] at h
  | halt => simp [hc, runPass] at h
  | accum =>
    simp only [hc, fetchEvent] at h
    cases hi : s.input with
    | nil =>
      simp only [hi, runPass, Host.Outcome.next.injEq] at h
      exact .wait hc hi h.symm
    | cons ev events =>
      cases ev with
      | endOfStream =>
        simp only [hi, runPass, Host.Outcome.next.injEq] at h
        exact .endOfStream events hc hi h.symm
      | ioError =>
        simp only [hi, runPass, flow_outcome, Host.Outcome.next.injEq] at h
        exact .ioError events hc hi h.symm
      | byte b =>
        simp only [hi, decodeArriving_eq] at h
        by_cases hp : s.buf.length % 2 = 0 ∧ b = Config.sentinel
        · simp only [hp, and_self, if_true, exec, execEndFrame, Host.Outcome.next.injEq] at h
          exact .endToken events hc (by rw [hi, hp.2]) hp.1 h.symm
        · simp only [hp, if_false, runPass, flow_outcome, Host.Outcome.next.injEq] at h
          exact .accept b events hc hi hp h.symm
  | emit =>
    simp only [hc] at h
    by_cases hm : s.micro = .walk
    · simp only [hm, fetchItem] at h
      cases hd : decompose (s.frame.drop s.idx) with
      | nil =>
        simp only [hd, runPass, Host.Outcome.next.injEq] at h
        exact .drainEnd hc hm hd h.symm
      | cons item rest =>
        cases item with
        | pair a d =>
          simp only [hd] at h
          exact .pair a d rest hc hm hd h
        | dangling b =>
          simp only [hd, runPass, flow_outcome, Host.Outcome.next.injEq] at h
          exact .dangling b rest hc hm hd h.symm
    · cases hmm : s.micro with
      | walk => exact absurd hmm hm
      | entry =>
        simp only [hmm, runPass, flow_outcome, Host.Outcome.next.injEq] at h
        exact .drainHead hc hm h.symm
      | demo k =>
        simp only [hmm, runPass, flow_outcome, Host.Outcome.next.injEq] at h
        exact .drainHead hc hm h.symm

/-- The meaning of a pair's token: the register write of a valid address, or the illegal address (R94, R96). -/
theorem exec_decodePair (a d : Byte) (s : State) :
    exec (decodePair a d) s =
      .next (if a.toNat < 32 then ((writeRegister a d s).andThen nextItem).state else (illegalPair a d s).state) := by
  rcases decodePair_cases a d with ⟨h, e⟩ | ⟨h, -, e⟩ | ⟨h, -, e⟩ | ⟨h, e⟩ <;> rw [e]
  · rw [if_pos h]
    show Host.Outcome.next ((writeRegister ((a.setWidth Config.addrBits).setWidth 8) d s).andThen nextItem).state = _
    rw [setWidth_back h]
  · rw [if_neg (by omega)]
    rfl
  · rw [if_neg (by omega)]
    rfl
  · rw [if_neg (by omega)]
    rfl

/-- The illegal address, under either policy (R96, R97). -/
theorem illegalPair_eq (a d : Byte) (s : State) :
    illegalPair a d s =
      if s.params.addrPolicy = .fatal then .abandoned (halted (.addressOutOfRange a d (s.idx / 2)) s)
      else .go { s with diag := s.diag ++ [.fault (.addressOutOfRange a d (s.idx / 2))], idx := s.idx + 2 } := by
  unfold illegalPair
  rw [raise_eq]
  cases hp : s.params.addrPolicy <;> simp [Raised.fatal, pairIndex, nextItem]

/-- The dangling byte (R95). -/
theorem danglingByte_eq (b : Byte) (s : State) :
    danglingByte b s = .go { s with diag := s.diag ++ [.fault (.danglingByte b)], idx := s.idx + 2 } := rfl

end Sys2Proof.Machine
end

