-- ==== Sys2Proof/Laws/StepEffect.lean ====
section
/-! SUPPORT. The inversion of `step` with every operation in it worked out: each state that a step can lead to, written as an
update of the state before. -/

namespace Sys2Proof.Machine

open Sys2Proof.Safety

/-- The block is about to make a register write: of a pair of the frame, or of the demonstration. -/
abbrev WriteDue (s : State) : Prop :=
  (s.ctrl = .emit ∧ s.micro = .walk) ∨ (s.ctrl = .off ∧ ∃ k, s.micro = .demo k)

/-- Every next state of a step. -/
inductive StepEffect (s t : State) : Prop where
  | wait (hc : s.ctrl = .accum) (hi : s.input = []) (e : t = s)
  | startup (backend : Backend) (n : Nat) (c : Ctrl) (m : Micro) (h : notStarted s = true)
      (hb : (backend = .live ∧ s.params.disableHw = false) ∨ (backend = .noop ∧ s.params.disableHw = true))
      (hn : (c = .accum ∧ m = s.micro) ∨ (c = .off ∧ m = .demo 0))
      (e : t = { drivenBy initializeEvents n { s with backend := backend } with
        initialized := true, ctrl := c, micro := m })
  | startupStops (backend : Backend) (pre : List PinEvent) (ev : PinEvent) (post : List PinEvent) (why : Option Raised)
      (n : Nat) (h : notStarted s = true) (hl : initializeEvents = pre ++ ev :: post)
      (hw : why = none ∨ ∃ p l, ev = .write p l ∧ why = some (.pinWriteFailure p l))
      (hb : backend = .live ∨ backend = .noop)
      (e : t = stopped why (drivenBy pre n { s with backend := backend }))
  | hardwareUnavailable (h : notStarted s = true) (e : t = halted .hardwareUnavailable s)
  | demoEnds (k : Nat) (hc : s.ctrl = .off) (hm : s.micro = .demo k)
      (e : t = { s with exit := .zero, ctrl := .done, micro := .entry } ∨ t = { s with micro := .demo 0 })
  | write (a d : Byte) (n : Nat) (i : Fin 8) (m : Micro) (idx : Nat) (ha : a.toNat < 32) (hi : s.initialized = true)
      (hr : (s.ctrl = .emit ∧ s.micro = .walk ∧ m = s.micro ∧ idx = s.idx + 2) ∨
        (s.ctrl = .off ∧ ∃ k, s.micro = .demo k ∧ m = .demo (k + 1) ∧ idx = s.idx))
      (e : t = { drivenBy (registerWriteEvents a d) n (withOperands a d i s) with micro := m, idx := idx })
  | writeStops (a d : Byte) (pre : List PinEvent) (ev : PinEvent) (post : List PinEvent) (why : Option Raised) (n : Nat)
      (i : Fin 8) (ha : a.toNat < 32) (hi : s.initialized = true) (hr : WriteDue s)
      (hl : registerWriteEvents a d = pre ++ ev :: post) (hs : StopsWith s ev why)
      (e : t = stopped why (drivenBy pre n (withOperands a d i s)))
  | writeBeforeInitialize (hi : s.initialized = false) (hr : WriteDue s) (e : t = halted .notInitialized s)
  | endToken (events : List InputEvent) (hc : s.ctrl = .accum) (hi : s.input = .byte Config.sentinel :: events)
      (hp : s.buf.length % 2 = 0) (e : t = emitFrame { s with input := events, pos := s.pos + 1 })
  | accept (b : Byte) (events : List InputEvent) (hc : s.ctrl = .accum) (hi : s.input = .byte b :: events)
      (hp : ¬ (s.buf.length % 2 = 0 ∧ b = Config.sentinel)) (hn : s.params.bufCap ≠ some s.buf.length)
      (e : t = { s with input := events, pos := s.pos + 1, buf := s.buf ++ [b] })
  | overflow (b : Byte) (events : List InputEvent) (hc : s.ctrl = .accum) (hi : s.input = .byte b :: events)
      (e : t = halted .bufferOverflow { s with input := events, pos := s.pos + 1 })
  | endOfStream (events : List InputEvent) (hc : s.ctrl = .accum) (hi : s.input = .endOfStream :: events)
      (e : t = { s with input := events, buf := [], exit := .zero, ctrl := .done })
  | ioError (events : List InputEvent) (hc : s.ctrl = .accum) (hi : s.input = .ioError :: events)
      (e : t = halted .streamIoError { s with input := events, buf := [] })
  | drainHead (dump : List DiagEvent) (hc : s.ctrl = .emit) (hm : s.micro ≠ .walk)
      (hd : dump = [] ∨ dump = [.frameDump s.frame])
      (e : t = { s with diag := s.diag ++ dump, idx := 0, micro := .walk })
  | frameRefused (a d : Byte) (k : Nat) (dump : List DiagEvent) (hc : s.ctrl = .emit) (hm : s.micro ≠ .walk)
      (hp : s.params.addrPolicy = .fatal) (hd : dump = [] ∨ dump = [.frameDump s.frame])
      (e : t = halted (.addressOutOfRange a d k) { s with diag := s.diag ++ dump })
  | illegal (a d : Byte) (k : Nat) (hc : s.ctrl = .emit) (hm : s.micro = .walk) (hp : s.params.addrPolicy = .fatal)
      (e : t = halted (.addressOutOfRange a d k) s)
  | illegalSkipped (a d : Byte) (k : Nat) (hc : s.ctrl = .emit) (hm : s.micro = .walk)
      (e : t = { s with diag := s.diag ++ [.fault (.addressOutOfRange a d k)], idx := s.idx + 2 })
  | dangling (b : Byte) (rest : List Item) (hc : s.ctrl = .emit) (hm : s.micro = .walk)
      (hd : decompose (s.frame.drop s.idx) = .dangling b :: rest)
      (e : t = { s with diag := s.diag ++ [.fault (.danglingByte b)], idx := s.idx + 2 })
  | drainEnd (progress : List DiagEvent) (hc : s.ctrl = .emit) (hm : s.micro = .walk)
      (hd : progress = [] ∨ progress = [.progress s.nframes])
      (e : t = { s with diag := s.diag ++ progress, ctrl := .accum, micro := .entry })

theorem notStarted_off {s : State} (h : notStarted s = true) : s.ctrl = .off := by
  unfold notStarted at h
  split at h <;> first | assumption | cases h

theorem dumpFrame_eq (s : State) :
    dumpFrame s = { s with diag := s.diag ++ (if s.params.debug then [.frameDump s.frame] else []) } := by
  unfold dumpFrame
  split <;> simp [report]

theorem reportProgress_eq (s : State) :
    ∃ progress, (progress = [] ∨ progress = [.progress s.nframes]) ∧
      reportProgress s = { s with diag := s.diag ++ progress } := by
  unfold reportProgress
  split
  · split
    · exact ⟨_, .inr rfl, rfl⟩
    · exact ⟨[], .inl rfl, by simp⟩
  · exact ⟨[], .inl rfl, by simp⟩

/-- What the check of the whole frame can do (R98). -/
theorem checkWholeFrame_cases (s : State) :
    checkWholeFrame s = .go s ∨
    (s.params.addrPolicy = .fatal ∧ ∃ a d k, checkWholeFrame s = .abandoned (halted (.addressOutOfRange a d k) s)) := by
  unfold checkWholeFrame
  split
  · rename_i hp
    split
    · exact .inr ⟨hp.1, _, _, _, raise_fatal (by simp [Raised.fatal, hp.1])⟩
    · exact .inl rfl
  · exact .inl rfl

/-- STARTUP in every state that is not refused. -/
theorem startup_effect {s t : State} (h : notStarted s = true) (hs : startup s = .next t) : StepEffect s t := by
  have hoff := notStarted_off h
  have e := startup_flow hs
  have enter : ∀ (b : Backend) (n : Nat),
      ((b = .live ∧ s.params.disableHw = false) ∨ (b = .noop ∧ s.params.disableHw = true)) →
      t = (enterLoop { drivenBy initializeEvents n { s with backend := b } with initialized := true }).state →
      StepEffect s t := by
    intro b n hb he
    unfold enterLoop at he
    split at he
    · exact .startup b n .off (.demo 0) h hb (.inr ⟨rfl, rfl⟩) (by rw [he, ← hoff]; rfl)
    · exact .startup b n .accum s.micro h hb (.inl ⟨rfl, rfl⟩) he
  have chosen : ∀ b : Backend,
      ((b = .live ∧ s.params.disableHw = false) ∨ (b = .noop ∧ s.params.disableHw = true)) →
      t = ((initializeBlock { s with backend := b }).andThen enterLoop).state → StepEffect s t := by
    intro b hb he
    have hc : b = .live ∨ b = .noop := hb.imp And.left And.left
    rcases initializeBlock_any { s with backend := b } hc with ⟨n, f⟩ | ⟨pre, ev, post, why, n, f1, f2, f3⟩
    · rw [f, andThen_go] at he
      exact enter b n hb he
    · rw [f3, andThen_abandoned] at he
      exact .startupStops b pre ev post why n h f1 f2 hc he
  rcases selectBackend_cases s with ⟨hd, g⟩ | ⟨hd, -, g⟩ | ⟨-, -, g⟩
  · exact chosen .noop (.inr ⟨rfl, hd⟩) (by rw [e, startupFlow, g, andThen_go])
  · exact chosen .live (.inl ⟨rfl, hd⟩) (by rw [e, startupFlow, g, andThen_go])
  · rw [startupFlow, g, andThen_abandoned, andThen_abandoned] at e
    exact .hardwareUnavailable h e

/-- Every step that answers a next state is one of these effects. -/
theorem step_effect {s t : State} (h : step s = .next t) : StepEffect s t := by
  cases step_cases h with
  | startup h e => exact startup_effect h e
  | demo k hc hm e =>
    unfold demoStep at e
    split at e
    · split at e
      · rename_i w _
        split at e
        · rename_i hv
          rw [addressValid, decide_eq_true_iff] at hv
          simp only [flow_outcome, Host.Outcome.next.injEq] at e
          rcases writeRegister_any w.1 w.2 s with ⟨hi, g⟩ | ⟨hi, n, i, g⟩ | ⟨hi, pre, ev, post, why, n, i, g1, g2, g3⟩
          · rw [g] at e
            exact .writeBeforeInitialize hi (.inr ⟨hc, k, hm⟩) e.symm
          · rw [g] at e
            exact .write w.1 w.2 n i _ _ hv hi (.inr ⟨hc, k, hm, rfl, rfl⟩) e.symm
          · rw [g3] at e
            exact .writeStops w.1 w.2 pre ev post why n i hv hi (.inr ⟨hc, k, hm⟩) g1 g2 e.symm
        · cases e
      · simp only [flow_outcome, Host.Outcome.next.injEq, demoEnd] at e
        split at e
        · exact .demoEnds k hc hm (.inr e.symm)
        · exact .demoEnds k hc hm (.inl e.symm)
    · cases e
  | wait hc hi e => exact .wait hc hi e
  | endToken ev hc hi hp e => exact .endToken ev hc hi hp (by rw [e]; simp [takeByte, takeEvent, hi])
  | accept b ev hc hi hp e =>
    by_cases hn : s.params.bufCap = some s.buf.length
    · refine .overflow b ev hc hi ?_
      rw [e]
      simp [acceptByte, appendByte, bufFull, hn, raise_eq, Raised.fatal]
      simp [takeByte, takeEvent, hi]
    · refine .accept b ev hc hi hp hn ?_
      rw [e]
      simp [acceptByte, appendByte, bufFull, hn, takeByte, takeEvent, hi, hc]
  | endOfStream ev hc hi e => exact .endOfStream ev hc hi (by rw [e]; simp [endOfStream, takeEvent, hi])
  | ioError ev hc hi e => exact .ioError ev hc hi (by rw [e]; simp [ioError, takeEvent, hi, raise_eq, Raised.fatal])
  | drainHead hc hm e =>
    rw [drainHead, dumpFrame_eq] at e
    rcases checkWholeFrame_cases { s with diag := s.diag ++ (if s.params.debug then [.frameDump s.frame] else []) } with
      g | ⟨hp, a, d, k, g⟩
    · rw [g] at e
      refine .drainHead _ hc hm ?_ e
      split
      · exact .inr rfl
      · exact .inl rfl
    · rw [g] at e
      refine .frameRefused a d k _ hc hm hp ?_ e
      split
      · exact .inr rfl
      · exact .inl rfl
  | pair a d rest hc hm hd e =>
    rw [exec_decodePair] at e
    simp only [Host.Outcome.next.injEq] at e
    split at e
    · rename_i hv
      rcases writeRegister_any a d s with ⟨hi, g⟩ | ⟨hi, n, i, g⟩ | ⟨hi, pre, ev, post, why, n, i, g1, g2, g3⟩
      · rw [g] at e
        exact .writeBeforeInitialize hi (.inl ⟨hc, hm⟩) e.symm
      · rw [g] at e
        exact .write a d n i _ _ hv hi (.inl ⟨hc, hm, rfl, rfl⟩) e.symm
      · rw [g3] at e
        exact .writeStops a d pre ev post why n i hv hi (.inl ⟨hc, hm⟩) g1 g2 e.symm
    · rw [illegalPair_eq] at e
      split at e
      · rename_i hp
        exact .illegal a d _ hc hm hp e.symm
      · exact .illegalSkipped a d _ hc hm e.symm
  | dangling b rest hc hm hd e =>
    rw [danglingByte_eq] at e
    exact .dangling b rest hc hm hd e
  | drainEnd hc hm hd e =>
    obtain ⟨progress, hp, g⟩ := reportProgress_eq s
    refine .drainEnd progress hc hm hp ?_
    rw [e, drainEnd, g]

end Sys2Proof.Machine
end

