-- ==== Sys2Proof/Tests/Slice0.lean ====
section
/-! SUPPORT. Small tests on fixed values, their expected results taken from the spec's tables and vectors (95_test_vectors.md),
and for each obligation with hypotheses a theorem that something meets them all. -/

namespace Sys2Proof.Tests

open Sys2Proof Sys2Proof.Machine Sys2Proof.Safety

/-! ### States -/

/-- "After start-up" of 95_test_vectors.md: the state of R84 under the default parameters. -/
def ready : State :=
  { State.reset with
    ctrl := .accum
    backend := .live
    initialized := true
    board := boardAfterInitialize
    trace := initializeEvents
    pinWrites := 7 }

/-- The decoder walking over a frame, at an offset. -/
def walking (frame : List Byte) (idx : Nat) : State :=
  { ready with ctrl := .emit, micro := .walk, frame := frame, idx := idx, nframes := 1 }

/-- `ready` under other parameters. -/
def readyUnder (p : Params) : State := { ready with params := p }

/-- The no-op block in ACCUM. -/
def readyNoop : State :=
  { State.reset with ctrl := .accum, backend := .noop, initialized := true, trace := [.hold .resMin] }

/-- The demonstration after STARTUP, at its write `k` (V62). -/
def demonstrating (k : Nat) (again : Bool) : State :=
  { ready with
    ctrl := .off
    micro := .demo k
    params := { Params.defaults with demoMode := true, demoSeq := some [(24, 15), (0, 0x55)], demoRepeat := some again } }

/-- Parameters of a run that the host cuts at pin event `n` (R142, R148). -/
def cutParams (n : Nat) : Params := { Params.defaults with cutAt := some n }

/-- Power-on with the demonstration asked for and given (R108). -/
def demoStart (p : Params) : State :=
  { State.reset with params := { p with demoMode := true, demoSeq := some [(24, 15), (0, 0x55)], demoRepeat := some true } }

/-- The board after V10 but with the chip's select line as given: both buses defined. -/
def busLoaded : Board := { boardAfterInitialize with aq := Stage.ofByte 5, dq := Stage.ofByte 9, chip := [(5, 1), (7, 2)] }

/-! ### Well-formedness: a term that each check refuses -/

theorem test_wf_end : Instr.wf .endFrame = true := by decide
theorem test_wf_wr : Instr.wf (.wr 31 0xFF) = true := by decide
theorem test_wf_refuses_low_32 : Instr.wf (.wrIllegal32To63 0x1F 0) = false := by decide
theorem test_wf_refuses_high_32 : Instr.wf (.wrIllegal32To63 0x40 0) = false := by decide
theorem test_wf_refuses_low_64 : Instr.wf (.wrIllegal64To127 0x3F 0) = false := by decide
theorem test_wf_refuses_high_64 : Instr.wf (.wrIllegal64To127 0x80 0) = false := by decide
theorem test_wf_refuses_low_128 : Instr.wf (.wrIllegal128To254 0x7F 0) = false := by decide
theorem test_wf_refuses_sentinel : Instr.wf (.wrIllegal128To254 0xFF 0) = false := by decide

/-! ### Decoding: words written out bit by bit from spec/opcode_table.json -/

/-- END: 11111111. -/
theorem test_decode_end : decodeTableWord 8 0b11111111 = some .endFrame := by decide
/-- WR: 000 aaaaa dddddddd with a = 5, d = 9 (V31). -/
theorem test_decode_wr : decodeTableWord 16 0b000_00101_00001001 = some (.wr 5 9) := by decide
/-- WR at the upper boundary, data 0xFF (V31: `1F FF`). -/
theorem test_decode_wr_31_255 : decodeTableWord 16 0b000_11111_11111111 = some (.wr 31 0xFF) := by decide
/-- WR.ILLEGAL.32_63: 001 aaaaa dddddddd; the whole address byte is kept (R56). -/
theorem test_decode_illegal_32 : decodeTableWord 16 0b001_00000_00000001 = some (.wrIllegal32To63 0x20 1) := by decide
theorem test_decode_illegal_63 : decodeTableWord 16 0b001_11111_10000000 = some (.wrIllegal32To63 0x3F 0x80) := by decide
/-- WR.ILLEGAL.64_127: 01 aaaaaa dddddddd. -/
theorem test_decode_illegal_64 : decodeTableWord 16 0b01_000000_00000000 = some (.wrIllegal64To127 0x40 0) := by decide
theorem test_decode_illegal_127 : decodeTableWord 16 0b01_111111_00000010 = some (.wrIllegal64To127 0x7F 2) := by decide
/-- WR.ILLEGAL.128_254: 1 aaaaaaa dddddddd, but not 0xFF (V49b). -/
theorem test_decode_illegal_128 : decodeTableWord 16 0b1_0000000_00000001 = some (.wrIllegal128To254 0x80 1) := by decide
theorem test_decode_illegal_254 : decodeTableWord 16 0b1_1111110_00000000 = some (.wrIllegal128To254 0xFE 0) := by decide

/-- Rejections by name. -/
theorem test_decode_no_byte : decodeToken [] = .reject .noByte := by decide
theorem test_decode_half_pair : decodeToken [0x05] = .reject (.dataByteMissing 0x05) := by decide

/-- The encoder on the examples of V31. -/
theorem test_encode_wr : encode (.wr 1 0x10) = [0x01, 0x10] := by decide
theorem test_encode_frame : encodeFrame [(24, 0xFF), (4, 0x21)] = [0x18, 0xFF, 0x04, 0x21, 0xFF] := by decide
/-- V31: "`WR 255, 0` is refused by the assembler". -/
theorem test_assemble_refuses_255 : assemble [.wr 255 0] = none := by decide
theorem test_assemble : assemble [.wr 32 1, .endFrame, .eos] =
    some [.byte 0x20, .byte 0x01, .byte 0xFF, .endOfStream] := by decide

/-- V42, V43, V46: frames of streams with 0xFF at odd and even offsets. -/
theorem test_frames_v42 : splitFrames [] [0x03, 0xFF, 0xFF] = ([[0x03, 0xFF]], []) := by decide
theorem test_frames_v43 : splitFrames [] [0x03, 0xFF, 0xFF, 0xFF, 0xFF] = ([[0x03, 0xFF], [], []], []) := by decide
theorem test_frames_v46 : splitFrames [] [0x05, 0x09, 0x01, 0xFF, 0xFF] = ([[0x05, 0x09, 0x01, 0xFF]], []) := by decide
/-- S6: the items of `[0x05, 0x09, 0x01]`. -/
theorem test_decompose_s6 : decompose [0x05, 0x09, 0x01] = [.pair 5 9, .dangling 1] := by decide

/-! ### Constants and codes: R5, R112 -/

theorem test_constants : Config.addrLimit = 2 ^ Config.addrBits ∧ Config.shiftBits = Config.dataBits ∧ Config.addrBits = 5 := by
  decide
/-- The table of R112, two rows with information. -/
theorem test_fault_codes :
    ((Raised.addressOutOfRange 0x20 1 0).code.number, (Raised.addressOutOfRange 0x20 1 0).info) = (4, .address 0x20 1 0) ∧
      ((Raised.pinWriteFailure .csN .low).code.number, (Raised.pinWriteFailure .csN .low).info) = (5, .pin .csN .low) := by
  decide

/-! ### Operands: V11 -/

theorem test_bits_of_09 : [bit 0x09 3, bit 0x09 2, bit 0x09 1, bit 0x09 0] = [true, false, false, true] := by decide
theorem test_bit_80_7 : bit 0x80 7 = true ∧ bit 0x80 0 = false := by decide

/-- V11 as levels: 0x09 is 00001001. -/
theorem test_levels_of_09 : bitsFromTheTop 0x09 = [.low, .low, .low, .low, .high, .low, .low, .high] := by decide
theorem test_levelsOn : levelsOn .csN [.write .csN .low, .hold .csMin, .write .shClk .high, .write .csN .high] = [.low, .high] := by
  decide

/-! ### STARTUP and the primitives: V20, V02, V05, V07 -/

theorem test_startup : step State.reset = .next ready := rfl

/-- V02: clocking before the serial pins are written shifts an Undefined bit in. -/
theorem test_clock_before_data : ((pinWrite .shClk .high ready).state.board.asr) = { Stage.ofByte 0 with b0 := none } := by
  decide

/-- V05: no hardware. -/
theorem test_no_hardware : step { State.reset with params := { Params.defaults with hwAvailable := false } } =
    .next (halted .hardwareUnavailable { State.reset with params := { Params.defaults with hwAvailable := false } }) := rfl

/-- V07: the third pin write fails. -/
theorem test_v07 :
    (match step { State.reset with params := { Params.defaults with pinFail := [3] } } with
      | .next t => (t.trace.length, t.initialized, t.diag, t.ctrl)
      | _ => (0, true, [], .off)) = (10, false, [.fault (.pinWriteFailure .csN .high)], .halt) := by decide

/-- R103, R108: STARTUP in the demonstration mode initialises, and STATE is still OFF with write 0 next. -/
theorem test_startup_demo :
    (match step (demoStart Params.defaults) with
      | .next t => (t.backend, t.trace.length, t.initialized, t.ctrl, t.micro)
      | _ => (.noop, 0, false, .halt, .walk)) = (.live, 15, true, .off, .demo 0) := by decide

/-- R142: STARTUP cut in the reset pulse: "`RES_N` may be Low indefinitely (chip held in reset)". -/
theorem test_startup_cut :
    (match step { State.reset with params := cutParams 10 } with
      | .next t => (t.trace.length, t.board.pinLevel.resN, t.board.chipInReset, t.initialized, t.cut)
      | _ => (0, none, none, true, false)) = (9, some .low, some true, false, true) := by decide

/-! ### The tokens -/

/-- V10: the last events and the chip register. -/
theorem test_wr_v10 :
    (match exec (.wr 5 9) (walking [5, 9] 0) with
      | .next t => (t.board.chip, t.trace.length, t.idx, t.trace.getLast?)
      | _ => ([], 0, 0, none)) = ([(5, 9)], 52, 2, some (.write .csN .high)) := by decide

/-- V10: the levels of the serial pins in slot 3, events 17 to 20 of the operation. -/
theorem test_wr_v10_slot3 :
    (match exec (.wr 5 9) (walking [5, 9] 0) with
      | .next t => (t.trace.drop 31).take 4
      | _ => []) =
      [.write .addrSer .low, .write .dataSer .high, .write .shClk .high, .write .shClk .low] := by decide

/-- V41, V63: END takes its byte and emits BUF. -/
theorem test_end :
    (match exec .endFrame { ready with buf := [1, 0x10], pos := 2, input := [.byte 0xFF] } with
      | .next t => (t.frame, t.buf, t.pos, t.nframes, t.ctrl, t.input)
      | _ => ([], [], 0, 0, .off, [])) = ([1, 0x10], [], 3, 1, .emit, []) := by decide

/-- V49a: AddressOutOfRange(32, 1, 0) under `fatal`. -/
theorem test_illegal_32 :
    (match exec (.wrIllegal32To63 0x20 1) (walking [0x20, 1] 0) with
      | .next t => (t.diag, t.ctrl, t.exit, t.trace.length)
      | _ => ([], .off, .none, 0)) = ([.fault (.addressOutOfRange 0x20 1 0)], .halt, .exitFail, 15) := by decide

/-- V49c: the second row, the pair at index 1. -/
theorem test_illegal_64 :
    (match exec (.wrIllegal64To127 0x40 0) (walking [1, 2, 0x40, 0] 2) with
      | .next t => (t.finfo, t.fault)
      | _ => (.noValue, none)) = (.address 0x40 0 1, some .addressOutOfRange) := by decide

/-- V49b, under `skip`: reported, and the run goes on. -/
theorem test_illegal_254_skip :
    (match exec (.wrIllegal128To254 0xFE 0)
        { walking [0xFE, 0] 0 with params := { Params.defaults with addrPolicy := .skip } } with
      | .next t => (t.diag, t.ctrl, t.idx, t.fault)
      | _ => ([], .off, 0, none)) = ([.fault (.addressOutOfRange 0xFE 0 0)], .emit, 2, none) := by decide

/-- V15(b): the closing write of the select pulse fails; CS_N stays Low and the register is Undefined. -/
theorem test_v15b :
    (match exec (.wr 1 0x10) { walking [1, 0x10] 0 with params := { Params.defaults with pinFail := [43] } } with
      | .next t => (t.trace.length, t.board.pinLevel.csN, Memory.read t.board.chip 1, t.ctrl)
      | _ => (0, none, none, .off)) = (51, some .low, none, .halt) := by decide

/-- R142: the run is cut between CS_N Low and its Hold, events 35 and 36 of the operation: "`CS_N` may be Low
indefinitely", the register is Undefined (R39), and nothing is reported. -/
theorem test_wr_cut :
    (match exec (.wr 1 0x10) { walking [1, 0x10] 0 with params := cutParams 51 } with
      | .next t => (t.trace.getLast?, t.board.pinLevel.csN, Memory.read t.board.chip 1, t.ctrl, t.diag, t.cut)
      | _ => (none, none, none, .off, [], false)) =
      (some (.write .csN .low), some .low, none, .emit, [], true) := by decide

/-- U16: "nothing more is driven". -/
theorem test_step_after_cut : step { walking [1, 0x10] 0 with cut := true } = .fault .runCut := rfl

/-- V53: a dangling byte is reported and the walk goes on. -/
theorem test_v53 :
    (match step (walking [0x05, 0x09, 0x01] 2) with
      | .next t => (t.diag, t.ctrl, t.fault)
      | _ => ([], .off, none)) = ([.fault (.danglingByte 1)], .emit, none) := by decide

/-- V55: the fifth byte into a buffer of four. -/
theorem test_v55 :
    (match step { readyUnder { Params.defaults with bufCap := some 4 } with buf := [1, 2, 3, 4], input := [.byte 5] } with
      | .next t => (t.diag, t.ctrl, t.buf.length)
      | _ => ([], .off, 0)) = ([.fault .bufferOverflow], .halt, 4) := by decide

/-- V62: the second demonstration write. -/
theorem test_v62 :
    (match step (demonstrating 1 false) with
      | .next t => (t.board.chip, t.micro, t.pos)
      | _ => ([], .entry, 9)) = ([(0, 0x55)], .demo 2, 0) := by decide

/-! ### The next step after reset runs the token that is placed -/

theorem test_fetch_end : fetch (State.reset.withFetchWord 8 0xFF) = .token .endFrame := by decide
theorem test_fetch_wr : fetch (State.reset.withFetchWord 16 0x0509) = .token (.wr 5 9) := by decide
theorem test_fetch_illegal_32 : fetch (State.reset.withFetchWord 16 0x2001) = .token (.wrIllegal32To63 0x20 1) := by decide
theorem test_fetch_illegal_64 : fetch (State.reset.withFetchWord 16 0x4000) = .token (.wrIllegal64To127 0x40 0) := by decide
theorem test_fetch_illegal_128 : fetch (State.reset.withFetchWord 16 0x8000) = .token (.wrIllegal128To254 0x80 0) := by decide

/-! ### Witnesses: something meets all hypotheses of each statement -/

theorem witness_DecodeOfEncodeIsTheToken :
    Instr.wf .endFrame = true ∧ Instr.wf (.wr 31 0xFF) = true ∧ Instr.wf (.wrIllegal32To63 0x20 0) = true ∧
      Instr.wf (.wrIllegal64To127 0x7F 1) = true ∧ Instr.wf (.wrIllegal128To254 0xFE 2) = true := by decide

theorem witness_DecodedBytesAreTheEncoding :
    decodeToken [0xFF, 1] = .token .endFrame [1] ∧ decodeToken [0x1F, 0xFF, 0xFF] = .token (.wr 31 0xFF) [0xFF] := by decide

/-- The clauses at their boundary values: 0xFF and 0xFE at an even offset, 31, 32, 63, 64, 127, 128. -/
theorem witness_ByteClassByOffsetParity :
    decodeArriving 1 0xFF = none ∧ decodeArriving 0 0xFF = some .endFrame ∧ decodeArriving 2 0xFE = none ∧
      decodePair 31 0 = .wr 31 0 ∧ decodePair 32 0 = .wrIllegal32To63 32 0 ∧ decodePair 63 0 = .wrIllegal32To63 63 0 ∧
      decodePair 64 0 = .wrIllegal64To127 64 0 ∧ decodePair 127 0 = .wrIllegal64To127 127 0 ∧
      decodePair 128 0 = .wrIllegal128To254 128 0 := by decide

theorem witness_DecomposeTakesTwoBytesAtATime :
    [(5 : Byte), 9, 1][2 * 0]? = some 5 ∧ [(5 : Byte), 9, 1][2 * 0 + 1]? = some 9 ∧
      [(5 : Byte), 9, 1].length % 2 = 1 ∧ [(5 : Byte), 9, 1].getLast? = some 1 := by decide

theorem witness_EveryStreamParsesInOneWay :
    splitFrames [] [0x03, 0xFF, 0xFF, 0x07] = ([[0x03, 0xFF]], [0x07]) := by decide

theorem witness_SetModeConfiguresOnlyUnderLive : ready.backend = .live ∧ readyNoop.backend = .noop := by decide

theorem witness_PinWriteDrivesFailsOrHalts :
    (ready.backend = .live ∧ ready.board.pinMode.get .csN = .output ∧ ready.pinWrites + 1 ∉ ready.params.pinFail) ∧
    (8 ∈ (readyUnder { Params.defaults with pinFail := [8] }).params.pinFail) ∧
    ({ State.reset with backend := .live }.board.pinMode.get .csN ≠ .output) ∧ readyNoop.backend = .noop := by decide

theorem witness_HoldIsRecordedUnderBothBackends : ready.backend = .live ∧ readyNoop.backend = .noop := by decide

theorem witness_FaultEntryReportsAndHalts :
    (readyUnder { Params.defaults with addrPolicy := .skip }).params.addrPolicy = .skip ∧
      ready.params.addrPolicy ≠ .skip := by decide

theorem witness_EightSlotsThenLatchPresentBothBytes :
    boardAfterInitialize.pinLevel.shMrN = some .high ∧ boardAfterInitialize.pinLevel.shClk = some .low ∧
      boardAfterInitialize.pinLevel.shLatch = some .low := by decide

theorem witness_SelectPulseWritesOneCell :
    busLoaded.pinLevel.csN = some .high ∧ busLoaded.chipInReset = some false ∧ busLoaded.chipClk = .running ∧
      abus busLoaded.aq = some 5 ∧ dbus busLoaded.dq = some 9 := by decide

/-- A level of SH_LATCH for each clause. -/
theorem witness_ClearReachesStagesLatchReachesOutputs :
    boardAfterInitialize.pinLevel.shLatch = some .low ∧
      (boardAfterInitialize.setLevel .shLatch .high).pinLevel.shLatch = some .high ∧
      Board.powerOn.pinLevel.shLatch = none := by decide

theorem witness_ClockEdgesShiftBothStages :
    (boardAfterInitialize.pinLevel.shClk = some .low ∧ boardAfterInitialize.pinLevel.shMrN = some .high) ∧
      (boardAfterInitialize.setLevel .shClk .high).pinLevel.shClk = some .high ∧
      (Board.powerOn.pinLevel.shClk = none ∧ Board.powerOn.pinLevel.shMrN ≠ some .low) := by decide

theorem witness_SelectCornerCasesForgetRegisters :
    (boardAfterInitialize.pinLevel.csN = some .high ∧ boardAfterInitialize.chipClk = .running ∧
      boardAfterInitialize.chipInReset = some false ∧ abus boardAfterInitialize.aq = none) ∧
    (abus busLoaded.aq = some 5 ∧ dbus { busLoaded with dq := { busLoaded.dq with b0 := none } }.dq = none) ∧
    busLoaded.pinLevel.shLatch = some .low ∧
    (busLoaded.react (.write .resN .low)).chipInReset ≠ some false ∧
    (busLoaded.react (.write .resN .low)).pinLevel.csN = some .high ∧
    ({ Board.powerOn with chipInReset := some false }.pinLevel.csN = none) := by decide

theorem witness_ResetPulseNeedsItsHold :
    boardAfterInitialize.pinLevel.resN = some .high ∧ boardAfterInitialize.chipClk = .running := by decide

/-- For BusDriverWritesTheLowFiveBits, WrDrivesOneRegisterWrite, WrittenRegisterHoldsTheData and
RegisterWriteHasEightClockPulses. -/
theorem witness_ready_to_write : ReadyLive ready ∧ NoPinFailure 36 ready ∧ NoCut 37 ready := by decide

theorem witness_ResetForgetsTheChipOnly : ReadyLive ready ∧ NoPinFailure 3 ready ∧ NoCut 4 ready := by decide

theorem witness_InitializeEndsInTheIdleBoard :
    { State.reset with backend := .live }.backend = .live ∧ { State.reset with backend := .live }.board = .powerOn ∧
      NoPinFailure 7 { State.reset with backend := .live } ∧ NoCut 15 { State.reset with backend := .live } := by decide

theorem witness_RepeatedInitializeClearsStagesAndChip :
    ReadyLive ready ∧ NoPinFailure 7 ready ∧ NoCut 15 ready := by decide

/-- The demonstration, given and valid, is ready; so is a block that does not ask for it. -/
theorem witness_DemoReady : DemoReady State.reset ∧ DemoReady (demoStart Params.defaults) :=
  ⟨fun h => (by cases h), fun _ => ⟨[(24, 15), (0, 0x55)], true, rfl, rfl, by simp⟩⟩

/-- With witness_DemoReady: a STARTUP for each backend, and one of the demonstration. -/
theorem witness_StartupSelectsTheBackendOnce :
    (notStarted State.reset = true ∧ State.reset.params.disableHw = false ∧ State.reset.params.hwAvailable = true ∧
      State.reset.board = .powerOn ∧ NoPinFailure 7 State.reset ∧ NoCut 15 State.reset) ∧
    (notStarted (demoStart Params.defaults) = true ∧ (demoStart Params.defaults).board = .powerOn ∧
      NoPinFailure 7 (demoStart Params.defaults) ∧ NoCut 15 (demoStart Params.defaults)) ∧
    (notStarted (demoStart { Params.defaults with disableHw := true, hwAvailable := false }) = true ∧
      NoCut 1 (demoStart { Params.defaults with disableHw := true, hwAvailable := false })) := by decide

/-- V07: the events before the third pin write, which fails; and a cut at the next event, the tenth, and at the Hold of
NOOP. -/
theorem witness_StartupStopsWhereAWriteFailsOrTheRunIsCut :
    (notStarted (demoStart { Params.defaults with pinFail := [3] }) = true ∧
      initializeEvents = initializeEvents.take 10 ++ .write .csN .high :: initializeEvents.drop 11 ∧
      countWrites (initializeEvents.take 10) = 2 ∧
      NoPinFailure 2 (demoStart { Params.defaults with pinFail := [3] }) ∧ NoCut 10 (demoStart (cutParams 11)) ∧
      0 + 2 + 1 ∈ [3]) ∧
    ((demoStart (cutParams 11)).params.cutAt = some ((demoStart (cutParams 11)).trace.length + 10 + 1)) ∧
    (demoStart { cutParams 1 with disableHw := true }).params.cutAt = some (State.reset.trace.length + 1) := by decide

/-- STARTUP's two refusals, as concrete states: nothing given, and an address of 32. -/
theorem witness_demonstration_refused :
    step { State.reset with params := { Params.defaults with demoMode := true } } = .refused .demoNotGiven ∧
    step { demoStart Params.defaults with
        params := { Params.defaults with demoMode := true, demoSeq := some [(0x20, 1)], demoRepeat := some false } } =
      .refused .demoAddressOutOfRange := ⟨rfl, rfl⟩

/-- With witness_demonstration_refused: a write that completes, one whose second pin write fails, one cut at its second
event, one under NOOP, and both ends. -/
theorem witness_DemonstrationDrivesItsSequence :
    ((demonstrating 0 true).cut = false ∧ (demonstrating 0 true).ctrl = .off ∧
      [((24 : Byte), (15 : Byte)), (0, 0x55)][0]? = some (24, 15) ∧ ReadyLive (demonstrating 0 true) ∧
      NoPinFailure 36 (demonstrating 0 true) ∧ NoCut 37 (demonstrating 0 true)) ∧
    (registerWriteEvents 24 15 =
        [.write .addrSer .low] ++ .write .dataSer .low :: (registerWriteEvents 24 15).drop 2 ∧
      (∀ k, k < 1 → 7 + k + 1 ∉ [9]) ∧ 7 + 1 + 1 ∈ [9] ∧ (demonstrating 0 true).trace.length + 1 + 1 = 17) ∧
    ({ demonstrating 0 true with backend := .noop }.initialized = true ∧
      NoCut 1 { demonstrating 0 true with backend := .noop }) ∧
    (∃ t, step (demonstrating 2 false) = .next t ∧ t.ctrl = .done) ∧
    (∃ t, step (demonstrating 2 true) = .next t ∧ t.micro = .demo 0) :=
  ⟨by decide, by decide, by decide, ⟨_, rfl, rfl⟩, ⟨_, rfl, rfl⟩⟩

theorem witness_WrUnderNoopOnlyHolds :
    readyNoop.backend = .noop ∧ readyNoop.initialized = true ∧ NoCut 1 readyNoop ∧
      { readyNoop with params := cutParams 2 }.params.cutAt = some (readyNoop.trace.length + 1) := by decide

theorem witness_WrBeforeInitializeIsNotInitialized : State.reset.initialized = false := by decide

/-- V15(a): the 35th pin write of the register write fails; and a cut at the Hold after it, event 36. -/
theorem witness_WrStopsWhereAWriteFailsOrTheRunIsCut :
    (ReadyLive ready ∧
      registerWriteEvents 1 0x10 =
        (registerWriteEvents 1 0x10).take 34 ++ .write .csN .low :: (registerWriteEvents 1 0x10).drop 35 ∧
      countWrites ((registerWriteEvents 1 0x10).take 34) = 34 ∧
      NoPinFailure 34 (readyUnder { Params.defaults with pinFail := [42] }) ∧ NoCut 34 ready ∧ 7 + 34 + 1 ∈ [42]) ∧
    (registerWriteEvents 1 0x10 =
        (registerWriteEvents 1 0x10).take 35 ++ .hold .csMin :: (registerWriteEvents 1 0x10).drop 36 ∧
      NoPinFailure 35 (readyUnder (cutParams 51)) ∧ NoCut 35 (readyUnder (cutParams 51)) ∧
      (readyUnder (cutParams 51)).params.cutAt = some (ready.trace.length + 35 + 1)) := by decide

/-- For IllegalAddressHaltsUnderFatal and IllegalAddressIsSkippedUnderSkip. -/
theorem witness_illegal_policies :
    ready.params.addrPolicy = .fatal ∧ (readyUnder { Params.defaults with addrPolicy := .skip }).params.addrPolicy = .skip := by
  decide

theorem witness_WrLeavesTheReaderAndTheResetPins : ∃ t, exec (.wr 5 9) (walking [5, 9] 0) = .next t := ⟨_, rfl⟩

theorem witness_TokensChangeOnlyTheAddressedRegister :
    ReadyLive (walking [5, 9] 0) ∧ (∃ t, exec (.wr 5 9) (walking [5, 9] 0) = .next t) ∧
      (∃ t, exec .endFrame (walking [5, 9] 0) = .next t) := ⟨by decide, ⟨_, rfl⟩, ⟨_, rfl⟩⟩

theorem witness_StepRunsTheDecodedToken :
    (Instr.wf (.wr 5 9) = true ∧ (walking [1, 2, 5, 9] 2).cut = false ∧ (walking [1, 2, 5, 9] 2).ctrl = .emit ∧
      (walking [1, 2, 5, 9] 2).micro = .walk ∧
      (walking [1, 2, 5, 9] 2).frame.drop 2 = encode (.wr 5 9) ++ []) ∧
    ({ ready with buf := [1, 2], input := [.byte 0xFF] }.buf.length % 2 = 0) := by decide

/-- Both clauses, the second at the boundary: four bytes in a buffer of four. -/
theorem witness_OtherBytesAccumulate :
    (¬ ((0xFF : Byte) = 0xFF ∧ [(1 : Byte)].length % 2 = 0)) ∧ ready.params.bufCap ≠ some 1 ∧
      (readyUnder { Params.defaults with bufCap := some 4 }).params.bufCap = some [(1 : Byte), 2, 3, 4].length := by decide

/-- For EndOfStreamEndsTheRunCleanly, StreamErrorHalts and WaitingKeepsTheStateAndEndsHaveNoStep. -/
theorem witness_reader_events :
    ready.cut = false ∧ ready.ctrl = .accum ∧ { ready with input := [.endOfStream] }.input = .endOfStream :: [] ∧
      { ready with input := [.ioError] }.input = .ioError :: [] ∧ ready.input = [] ∧
      (endOfStream ready).done = true ∧ (halted .streamIoError ready).halted = true ∧
      (halted .streamIoError ready).cut = false ∧ (cutRun ready).cut = true := by decide

/-- Both clauses: a frame whose pair 1 has the address 32, and no earlier one (P4), and frames with no such pair. -/
theorem witness_DrainHeadDumpsAndChecks :
    ({ walking [31, 2, 0x20, 0] 0 with micro := .entry }.micro ≠ .walk ∧
      [(31 : Byte), 2, 0x20, 0][2 * 1]? = some 0x20 ∧ [(31 : Byte), 2, 0x20, 0][2 * 1 + 1]? = some 0 ∧
      32 ≤ (0x20 : Byte).toNat ∧ (31 : Byte).toNat < 32) ∧
    (walking [1, 2] 0).params.validateMode = .perPair ∧ [(0x20 : Byte)][2 * 0 + 1]? = none := by decide

theorem witness_DanglingByteIsReportedAndPassed : (walking [5, 9, 1] 2).frame.drop 2 = [1] := by decide

theorem witness_DrainEndsInAccumulating :
    (walking [5, 9] 2).frame.length ≤ (walking [5, 9] 2).idx ∧ (walking [5, 9] 2).nframes % 1 = 0 ∧
      (walking [5, 9] 2).nframes % 2 ≠ 0 ∧ (walking [5, 9] 2).params.progressN = none := by decide

/-- A walking block meets every invariant and steps. For StepKeepsChipSpaceCanonical. -/
theorem witness_chip_canonical : Memory.wf (walking [5, 9] 0).board.chip = true := by decide

theorem witness_BoardFollowsTrace : BoardFollowsTrace (walking [5, 9] 0) :=
  ⟨fun h => absurd h (by decide), by decide, fun h => absurd rfl h⟩

theorem witness_IdleBetweenSteps : IdleBetweenSteps (walking [5, 9] 0) :=
  ⟨fun h => absurd h (by decide), fun _ => ⟨rfl, .inl ⟨rfl, by decide⟩⟩, by decide⟩

theorem witness_PulsesSafe : PulsesSafe (walking [5, 9] 0) :=
  ⟨fun h => absurd h (by decide), by decide, fun _ => by decide⟩

theorem witness_ExitAgrees : ExitAgrees (walking [5, 9] 0) := ⟨rfl, rfl, rfl⟩

theorem witness_FramesWhole : FramesWhole (walking [5, 9] 0) :=
  ⟨rfl, fun _ => ⟨rfl, rfl, fun _ => rfl⟩, fun _ h => by cases h⟩

theorem witness_BufferWithinCap :
    BufferWithinCap { readyUnder { Params.defaults with bufCap := some 4 } with buf := [1, 2, 3, 4] } := by
  intro n h
  cases h
  decide

/-- For every statement about a step that answers a next state, after STARTUP; in ACCUM; and before STARTUP. -/
theorem witness_a_step_answers_next :
    (notStarted (walking [5, 9] 0) = false ∧ ∃ t, step (walking [5, 9] 0) = .next t) ∧
    (ready.ctrl = .accum ∧ ∃ t, step { ready with input := [.byte 1] } = .next t) ∧
    (∃ t, step State.reset = .next t) := ⟨⟨by decide, _, rfl⟩, ⟨by decide, _, rfl⟩, ⟨_, rfl⟩⟩

theorem witness_DiagnosticsDoNotInterfere :
    withoutDiagnostics { walking [5, 9] 0 with params := { Params.defaults with debug := true, progressN := some 3 } } =
      withoutDiagnostics { walking [5, 9] 0 with diag := [.frameDump [5, 9]] } := by decide

theorem witness_NoopBehavesAsLiveUpstream :
    (walking [5, 9] 0).backend = .live ∧ running (walking [5, 9] 0) = true ∧ (walking [5, 9] 0).initialized = true ∧
      (walking [5, 9] 0).board.pinMode = .all .output ∧ (walking [5, 9] 0).params.pinFail = [] ∧
      (walking [5, 9] 0).params.cutAt = none := by decide

/-- P1's stream (S7). -/
theorem witness_StreamIsDrivenPairByPair :
    ready.cut = false ∧ { ready with input := [0x01, 0x10, 0x05, 0x09, 0xFF].map .byte }.ctrl = .accum ∧ ReadyLive ready ∧
      (readyUnder (cutParams 15)).params.cutAt = some ready.trace.length ∧
      (∀ n ∈ ready.params.pinFail, n ≤ ready.pinWrites) ∧ ready.params.bufCap = none ∧ ready.params.progressN = none ∧
      splitFrames ready.buf [0x01, 0x10, 0x05, 0x09, 0xFF] = ([[0x01, 0x10, 0x05, 0x09]], []) ∧
      (∀ f ∈ [([0x01, 0x10, 0x05, 0x09] : List Byte)], validPairs f = true) := by decide

end Sys2Proof.Tests
end

