-- ==== Sys2Proof/Proofs/Settings.lean ====
section
/-! SUPPORT. What is fixed for the run (O57): the settings and the chip clock in every step; after STARTUP also the backend,
INITIALIZED and the pin modes. -/

namespace Sys2Proof.Machine

open Sys2Proof.Safety

/-! ### What the settings and the setup are -/

/-- What no step changes: the options and parameters (R6) and the chip clock (R144). -/
structure SettingsKept (s t : State) : Prop where
  params : t.params = s.params
  chipClk : t.board.chipClk = s.board.chipClk

/-- What STARTUP sets up once (R67, R81) and nothing changes after it, with the settings. -/
structure SetupKept (s t : State) : Prop extends SettingsKept s t where
  backend : t.backend = s.backend
  initialized : t.initialized = s.initialized
  pinMode : t.board.pinMode = s.board.pinMode

theorem SettingsKept.trans {s t u : State} (h : SettingsKept s t) (k : SettingsKept t u) : SettingsKept s u :=
  ⟨k.params.trans h.params, k.chipClk.trans h.chipClk⟩

theorem SetupKept.trans {s t u : State} (h : SetupKept s t) (k : SetupKept t u) : SetupKept s u :=
  ⟨h.toSettingsKept.trans k.toSettingsKept, k.backend.trans h.backend, k.initialized.trans h.initialized,
    k.pinMode.trans h.pinMode⟩

/-! ### The board under a list of events -/

theorem replay_chipClk (b : Board) (es : List PinEvent) : (b.replay es).chipClk = b.chipClk := by
  induction es generalizing b with
  | nil => rfl
  | cons e es ih => rw [replay_cons, ih, react_chipClk]

/-- Of the pin events only SET_MODE changes a pin mode, and it is not steady. -/
theorem react_steady_pinMode {e : PinEvent} (b : Board) (h : steadyEvent e = true) : (b.react e).pinMode = b.pinMode := by
  cases e with
  | mode p => cases h
  | write p l => exact react_write_pinMode b p l
  | hold t => exact react_hold_pinMode b t

theorem replay_steady_pinMode {es : List PinEvent} (b : Board) (h : ∀ e ∈ es, steadyEvent e = true) :
    (b.replay es).pinMode = b.pinMode := by
  induction es generalizing b with
  | nil => rfl
  | cons e es ih =>
    obtain ⟨he, hes⟩ := List.forall_mem_cons.1 h
    rw [replay_cons, ih _ hes, react_steady_pinMode b he]

/-- A register write makes steady events only (R85). -/
theorem registerWriteEvents_steady (a d : Byte) : ∀ e ∈ registerWriteEvents a d, steadyEvent e = true :=
  List.all_eq_true.1 (show (registerWriteEvents a d).all steadyEvent = true from rfl)

/-! ### What driving and stopping keep -/

theorem drivenBy_settingsKept (es : List PinEvent) (n : Nat) (s : State) : SettingsKept s (drivenBy es n s) := by
  refine ⟨rfl, ?_⟩
  by_cases hb : s.backend = .live
  · rw [drivenBy_live hb]
    exact replay_chipClk s.board es
  · rw [drivenBy_other hb]

theorem drivenBy_setupKept {es : List PinEvent} (n : Nat) (s : State) (h : ∀ e ∈ es, steadyEvent e = true) :
    SetupKept s (drivenBy es n s) := by
  refine ⟨drivenBy_settingsKept es n s, rfl, rfl, ?_⟩
  by_cases hb : s.backend = .live
  · rw [drivenBy_live hb]
    exact replay_steady_pinMode s.board h
  · rw [drivenBy_other hb]

/-- Neither a fatal fault nor the host's cut touches the settings or the setup (R121, R142). -/
theorem stopped_setupKept (why : Option Raised) (s : State) : SetupKept s (stopped why s) := by
  cases why <;> exact ⟨⟨rfl, rfl⟩, rfl, rfl, rfl⟩

/-! ### Every step -/

/-- STARTUP keeps the settings; every other step keeps the setup too. -/
theorem stepEffect_keeps {s t : State} (h : StepEffect s t) :
    (notStarted s = true ∧ SettingsKept s t) ∨ SetupKept s t := by
  cases h with
  | startup backend n _ _ h _ _ e =>
    subst e
    obtain ⟨hp, hc⟩ := drivenBy_settingsKept initializeEvents n { s with backend := backend }
    exact .inl ⟨h, hp, hc⟩
  | startupStops backend pre _ _ why n h _ _ _ e =>
    subst e
    obtain ⟨hp, hc⟩ := (drivenBy_settingsKept pre n { s with backend := backend }).trans
      (stopped_setupKept why _).toSettingsKept
    exact .inl ⟨h, hp, hc⟩
  | write a d n i _ _ _ _ _ e =>
    subst e
    obtain ⟨⟨hp, hc⟩, hb, hi, hm⟩ :=
      drivenBy_setupKept n (withOperands a d i s) (registerWriteEvents_steady a d)
    exact .inr ⟨⟨hp, hc⟩, hb, hi, hm⟩
  | writeStops a d pre ev post why n i _ _ _ hl _ e =>
    subst e
    have steady : ∀ f ∈ pre, steadyEvent f = true := fun f hf =>
      registerWriteEvents_steady a d f (hl ▸ List.mem_append_left _ hf)
    obtain ⟨⟨hp, hc⟩, hb, hi, hm⟩ :=
      (drivenBy_setupKept n (withOperands a d i s) steady).trans (stopped_setupKept why _)
    exact .inr ⟨⟨hp, hc⟩, hb, hi, hm⟩
  | demoEnds _ _ _ e => rcases e with rfl | rfl <;> exact .inr ⟨⟨rfl, rfl⟩, rfl, rfl, rfl⟩
  | wait _ _ e | hardwareUnavailable _ e | writeBeforeInitialize _ _ e | endToken _ _ _ _ e | accept _ _ _ _ _ _ e
  | overflow _ _ _ _ e | endOfStream _ _ _ e | ioError _ _ _ e | drainHead _ _ _ _ e | frameRefused _ _ _ _ _ _ _ _ e
  | illegal _ _ _ _ _ _ e | illegalSkipped _ _ _ _ _ e | dangling _ _ _ _ _ e | drainEnd _ _ _ _ e =>
    subst e
    exact .inr ⟨⟨rfl, rfl⟩, rfl, rfl, rfl⟩

end Sys2Proof.Machine

namespace Sys2Proof.Proofs

open Sys2Proof.Machine Sys2Proof.Safety

/-- Settles O57: STARTUP is the only step that does not keep the whole setup, and it keeps the settings. -/
theorem settingsAreFixedForTheRun : Obligations.SettingsAreFixedForTheRun := by
  intro s t h
  rcases stepEffect_keeps (step_effect h) with ⟨hn, hp, hc⟩ | ⟨⟨hp, hc⟩, hb, hi, hm⟩
  · exact ⟨hp, hc, fun hs => absurd hn (by rw [hs]; decide)⟩
  · exact ⟨hp, hc, fun _ => ⟨hb, hi, hm⟩⟩

end Sys2Proof.Proofs
end

