-- ==== Sys2Proof/Proofs/ControlState.lean ====
section
/-! SUPPORT. The rules of 10_state.md about every step: the input port (O56), STATE (O54), and STATE with EXIT, FAULT and
FINFO (O50); and power-on (O45, O46). -/

namespace Sys2Proof.Machine

open Sys2Proof.Safety

/-! ### The input port -/

/-- A step leaves the input port and POS alone, or it is in ACCUM and takes the first event (R19, R25). -/
theorem stepEffect_input {s t : State} (h : StepEffect s t) :
    (t.input = s.input ∧ t.pos = s.pos) ∨
    (s.ctrl = .accum ∧ ∃ ev, s.input = ev :: t.input ∧ t.pos = s.pos + (bytesOf [ev]).length) := by
  cases h with
  | endToken events hc hi _ e | accept _ events hc hi _ _ e | overflow _ events hc hi e | endOfStream events hc hi e
  | ioError events hc hi e =>
    subst e
    exact .inr ⟨hc, _, hi, rfl⟩
  | startupStops _ _ _ _ why _ _ _ _ _ e | writeStops _ _ _ _ _ why _ _ _ _ _ _ _ e =>
    subst e
    cases why <;> exact .inl ⟨rfl, rfl⟩
  | demoEnds _ _ _ e => rcases e with rfl | rfl <;> exact .inl ⟨rfl, rfl⟩
  | wait _ _ e | startup _ _ _ _ _ _ _ e | hardwareUnavailable _ e | write _ _ _ _ _ _ _ _ _ e
  | writeBeforeInitialize _ _ e | drainHead _ _ _ _ e | frameRefused _ _ _ _ _ _ _ _ e | illegal _ _ _ _ _ _ e
  | illegalSkipped _ _ _ _ _ e | dangling _ _ _ _ _ e | drainEnd _ _ _ _ e =>
    subst e
    exact .inl ⟨rfl, rfl⟩

/-! ### The transitions of STATE -/

/-- A register write is made in EMIT by DRAIN and in OFF by DEMO, never in ACCUM (R105, R108, R110). -/
theorem writeDue_ctrl {s : State} (h : WriteDue s) : s.ctrl = .off ∨ s.ctrl = .emit :=
  h.symm.imp And.left And.left

/-- Where a primitive can be under way, a fatal fault halts the run and a cut leaves STATE as it was (R121, R142). -/
theorem legalTransition_stopped {c : Ctrl} (why : Option Raised) {u : State} (hu : u.ctrl = c) (hc : c = .off ∨ c = .emit) :
    legalTransition c (stopped why u).ctrl = true := by
  cases why with
  | none =>
    rw [stopped, cutRun_ctrl, hu]
    rcases hc with rfl | rfl <;> rfl
  | some r => rcases hc with rfl | rfl <;> rfl

theorem stepEffect_legal {s t : State} (h : StepEffect s t) : legalTransition s.ctrl t.ctrl = true := by
  cases h with
  | startup _ _ _ _ h _ hn e =>
    rw [e, notStarted_off h]
    rcases hn with ⟨rfl, -⟩ | ⟨rfl, -⟩ <;> rfl
  | startupStops _ _ _ _ why _ h _ _ _ e =>
    rw [e]
    exact legalTransition_stopped why rfl (.inl (notStarted_off h))
  | hardwareUnavailable h e => rw [e, notStarted_off h]; rfl
  | demoEnds _ hc _ e => rcases e with rfl | rfl <;> simp [hc, legalTransition]
  | write _ _ _ _ _ _ _ _ hr e =>
    subst e
    rcases hr with ⟨hc, -⟩ | ⟨hc, -⟩ <;> simp [drivenBy, withOperands, hc, legalTransition]
  | writeStops _ _ _ _ _ why _ _ _ _ hr _ _ e =>
    rw [e]
    exact legalTransition_stopped why rfl (writeDue_ctrl hr)
  | writeBeforeInitialize _ hr e =>
    rw [e]
    exact legalTransition_stopped (some .notInitialized) rfl (writeDue_ctrl hr)
  | wait hc _ e | endToken _ hc _ _ e | accept _ _ hc _ _ _ e | overflow _ _ hc _ e | endOfStream _ hc _ e
  | ioError _ hc _ e | drainHead _ hc _ _ e | frameRefused _ _ _ _ hc _ _ _ e | illegal _ _ _ hc _ _ e
  | illegalSkipped _ _ _ hc _ e | dangling _ _ hc _ _ e | drainEnd _ hc _ _ e =>
    subst e
    simp [hc, halted, emitFrame, legalTransition]

/-! ### STATE with EXIT, FAULT and FINFO -/

/-- The run has neither an exit status nor a fault (R21, R31). -/
abbrev NoExit (s : State) : Prop := s.exit = .none ∧ s.fault = none ∧ s.finfo = .noValue

theorem exitAgrees_off {s : State} (h : s.ctrl = .off) : ExitAgrees s ↔ NoExit s ∧ s.buf = [] := by
  simp [ExitAgrees, h, and_assoc]

theorem exitAgrees_loop {s : State} (h : s.ctrl = .accum ∨ s.ctrl = .emit) : ExitAgrees s ↔ NoExit s := by
  rcases h with h | h <;> simp [ExitAgrees, h]

/-- Between two states of the loop the agreement passes on with EXIT, FAULT and FINFO. -/
theorem exitAgrees_in_loop {s t : State} (hs : s.ctrl = .accum ∨ s.ctrl = .emit) (ht : t.ctrl = .accum ∨ t.ctrl = .emit)
    (hn : NoExit s → NoExit t) (h : ExitAgrees s) : ExitAgrees t :=
  (exitAgrees_loop ht).2 (hn ((exitAgrees_loop hs).1 h))

theorem exitAgrees_done {s : State} (h : s.ctrl = .done) :
    ExitAgrees s ↔ s.exit = .zero ∧ s.fault = none ∧ s.finfo = .noValue ∧ s.buf = [] := by
  simp [ExitAgrees, h]

/-- Fault entry brings EXIT, FAULT, FINFO and DIAG into agreement, whatever they were (R121). -/
theorem exitAgrees_halted {r : Raised} {s : State} (h : r.fatal s.params.addrPolicy = true) : ExitAgrees (halted r s) :=
  ⟨rfl, r, List.getLast?_concat .., rfl, rfl, h⟩

theorem exitAgrees_stopped {why : Option Raised} {s : State} (h : ExitAgrees s)
    (hf : ∀ r, why = some r → r.fatal s.params.addrPolicy = true) : ExitAgrees (stopped why s) := by
  cases why with
  | none => exact h
  | some r => exact exitAgrees_halted (hf r rfl)

/-- What stops an operation at a primitive is fatal under every policy (R112). -/
theorem stopsWith_fatal {s : State} {ev : PinEvent} {why : Option Raised} (h : StopsWith s ev why) (policy : AddrPolicy) :
    ∀ r, why = some r → r.fatal policy = true := by
  rintro r rfl
  rcases h with h | ⟨p, l, r', -, h, rfl | ⟨rfl, -⟩⟩ <;> cases h <;> rfl

theorem stepEffect_exitAgrees {s t : State} (hs : ExitAgrees s) (h : StepEffect s t) : ExitAgrees t := by
  cases h with
  | wait _ _ e => exact e ▸ hs
  | startup _ _ _ _ h _ hn e =>
    obtain ⟨none, hbuf⟩ := (exitAgrees_off (notStarted_off h)).1 hs
    subst e
    rcases hn with ⟨rfl, -⟩ | ⟨rfl, -⟩
    · exact (exitAgrees_loop (.inl rfl)).2 none
    · exact (exitAgrees_off rfl).2 ⟨none, hbuf⟩
  | startupStops _ _ ev _ why _ _ _ hw _ e =>
    subst e
    have hstop : StopsWith s ev why := hw.imp_right fun ⟨p, l, hev, hr⟩ => ⟨p, l, _, hev, hr, .inl rfl⟩
    exact exitAgrees_stopped hs (stopsWith_fatal hstop _)
  | demoEnds _ hc _ e =>
    obtain ⟨⟨-, hfault, hfinfo⟩, hbuf⟩ := (exitAgrees_off hc).1 hs
    rcases e with rfl | rfl
    · exact (exitAgrees_done rfl).2 ⟨rfl, hfault, hfinfo, hbuf⟩
    · exact hs
  | write _ _ _ _ _ _ _ _ _ e =>
    subst e
    exact hs
  | writeStops _ _ _ _ _ _ _ _ _ _ _ _ hw e =>
    subst e
    exact exitAgrees_stopped hs (stopsWith_fatal hw _)
  | hardwareUnavailable _ e | writeBeforeInitialize _ _ e | overflow _ _ _ _ e | ioError _ _ _ e =>
    subst e
    exact exitAgrees_halted rfl
  | frameRefused _ _ _ _ _ _ hp _ e | illegal _ _ _ _ _ hp e =>
    subst e
    exact exitAgrees_halted (decide_eq_true hp)
  | endToken _ hc _ _ e =>
    subst e
    exact exitAgrees_in_loop (.inl hc) (.inr rfl) id hs
  | accept _ _ hc _ _ _ e =>
    subst e
    exact exitAgrees_in_loop (.inl hc) (.inl hc) id hs
  | endOfStream _ hc _ e =>
    obtain ⟨-, hfault, hfinfo⟩ := (exitAgrees_loop (.inl hc)).1 hs
    subst e
    exact (exitAgrees_done rfl).2 ⟨rfl, hfault, hfinfo, rfl⟩
  | drainHead _ hc _ _ e | illegalSkipped _ _ _ hc _ e | dangling _ _ hc _ _ e =>
    subst e
    exact exitAgrees_in_loop (.inr hc) (.inr hc) id hs
  | drainEnd _ hc _ _ e =>
    subst e
    exact exitAgrees_in_loop (.inr hc) (.inl rfl) id hs

end Sys2Proof.Machine

namespace Sys2Proof.Proofs

open Sys2Proof.Machine Sys2Proof.Safety

/-- Settles O50: HALT is entered only by a fatal fault, which sets EXIT, FAULT, FINFO and the report together; DONE only with
EXIT 0 and no fault; every other step leaves EXIT, FAULT and FINFO alone. -/
theorem stepKeepsExitAgreement : Obligations.StepKeepsExitAgreement :=
  fun _ _ hs h => stepEffect_exitAgrees hs (step_effect h)

/-- Settles O54: each effect of a step fixes STATE before it and after it; a stopped operation was in OFF or EMIT. -/
theorem stepsFollowTheLegalTransitions : Obligations.StepsFollowTheLegalTransitions :=
  fun _ _ h => stepEffect_legal (step_effect h)

/-- Settles O56: a step takes no event, or in ACCUM the first one. -/
theorem inputIsTakenInOrderOnlyInAccum : Obligations.InputIsTakenInOrderOnlyInAccum := by
  intro s t h
  rcases stepEffect_input (step_effect h) with ⟨hinput, hpos⟩ | ⟨haccum, ev, hinput, hpos⟩
  · exact ⟨[], hinput.symm, Nat.zero_le 1, hpos, fun _ => rfl⟩
  · exact ⟨[ev], hinput, Nat.le_refl 1, hpos, fun hn => absurd haccum hn⟩

/-- Settles O45: `State.reset` row by row. -/
theorem powerOnTable : Obligations.PowerOnTable :=
  ⟨rfl, rfl, rfl, perPin_get_all _, perPin_get_all _, rfl, rfl, rfl, rfl, rfl, rfl, rfl, rfl, rfl, rfl, rfl, rfl,
    memory_read_nil, rfl, rfl⟩

/-- Settles O46: at power-on nothing has happened, nothing runs, and TRACE, DIAG and BUF are empty. -/
theorem powerOnMeetsEveryInvariant : Obligations.PowerOnMeetsEveryInvariant := by
  have fresh : FreshBeforeStartup State.reset := fun _ => ⟨rfl, rfl, rfl, rfl, rfl⟩
  have notRunning : running State.reset ≠ true := by decide
  have notEmit : State.reset.ctrl ≠ .emit := by decide
  refine ⟨memory_nil_wf, ⟨fresh, rfl, fun _ => rfl⟩, ⟨fresh, fun h => absurd h notRunning, List.not_mem_nil⟩,
    (exitAgrees_off rfl).2 ⟨⟨rfl, rfl, rfl⟩, rfl⟩, ⟨rfl, fun h => absurd h notEmit, fun _ => List.not_mem_nil⟩,
    ⟨fun _ => rfl, rfl, fun h => absurd h notRunning⟩, fun _ _ => Nat.zero_le _⟩

end Sys2Proof.Proofs
end

