-- ==== Sys2Proof/Proofs/Devices.lean ====
section
/-! SUPPORT. The devices on the pins (20_memory.md R36 to R41): one equation for each way a write of a control pin can act,
and from them the shift registers (O13, O15, O16), the select pulse (O14, O17) and the reset pulse (O18). -/

namespace Sys2Proof.Machine

open Sys2Proof.Safety

/-! ### The shift registers -/

theorem react_clear (b : Board) :
    b.react (.write .shMrN .low) =
      { b with asr := Stage.ofByte 0, dsr := Stage.ofByte 0 }.setLevel .shMrN .low := rfl

/-- A rising SH_CLK with SH_MR_N High shifts (R36). -/
theorem react_clock_rises {b : Board} (hc : b.pinLevel.shClk = some .low) (hm : b.pinLevel.shMrN = some .high) :
    b.react (.write .shClk .high) = b.shiftStages.setLevel .shClk .high := by
  simp only [Board.react, Board.reactWrite, Board.writeShClk, hc, hm]

/-- A write of SH_CLK that is no edge, or with the stages held clear, moves nothing (R36, R37). -/
theorem react_clock_keeps {b : Board} {l : Level}
    (h : l = .low ∨ b.pinLevel.shClk = some .high ∨ b.pinLevel.shMrN = some .low) :
    b.react (.write .shClk l) = b.setLevel .shClk l := by
  have keeps : b.writeShClk l = b := by
    rcases h with rfl | h | h
    · simp only [Board.writeShClk]
    · cases l <;> simp only [Board.writeShClk, h]
    · unfold Board.writeShClk
      split <;> simp only [h]
  rw [Board.react, Board.reactWrite, keeps]

/-- A write of SH_CLK that may be an edge and may shift leaves no bit known (R36). -/
theorem react_clock_in_doubt {b : Board} (hc : b.pinLevel.shClk = none) (hm : b.pinLevel.shMrN ≠ some .low) :
    b.react (.write .shClk .high) = b.forgetStages.setLevel .shClk .high := by
  simp only [Board.react, Board.reactWrite, Board.writeShClk, hc]

/-- A rising SH_LATCH copies both stages at once (R38). -/
theorem react_latch_rises {b : Board} (h : b.pinLevel.shLatch = some .low) :
    b.react (.write .shLatch .high) =
      { b with aq := b.asr, dq := b.dsr }.latchInSelect.spoilSelect.setLevel .shLatch .high := by
  simp only [Board.react, Board.reactWrite, Board.writeShLatch, h]

/-- A write of SH_LATCH that is no rising edge touches no stage (R38). -/
theorem react_latch_keeps {b : Board} {l : Level} (h : l = .low ∨ b.pinLevel.shLatch = some .high) :
    b.react (.write .shLatch l) = b.spoilSelect.setLevel .shLatch l := by
  rcases h with rfl | h
  · simp only [Board.react, Board.reactWrite, Board.writeShLatch]
  · cases l <;> simp only [Board.react, Board.reactWrite, Board.writeShLatch, h]

/-- A write of SH_LATCH that may be a rising edge leaves no output bit known (R38). -/
theorem react_latch_in_doubt {b : Board} (h : b.pinLevel.shLatch = none) :
    b.react (.write .shLatch .high) =
      { b with aq := .undefined, dq := .undefined }.latchInSelect.spoilSelect.setLevel .shLatch .high := by
  simp only [Board.react, Board.reactWrite, Board.writeShLatch, h]

/-- The latch pulse copies both stages to the outputs, whether or not CS_N is Low (R38, R73). -/
theorem replay_latch_outputs {b : Board} (h : b.pinLevel.shLatch = some .low) :
    (b.replay [.write .shLatch .high, .write .shLatch .low]).aq = b.asr ∧
      (b.replay [.write .shLatch .high, .write .shLatch .low]).dq = b.dsr := by
  rw [replay_cons, replay_cons, replay_nil, react_latch_rises h, react_latch_keeps (.inl rfl)]
  exact ⟨rfl, rfl⟩

/-! ### The select pulse opens -/

theorem needClock_running {b : Board} (hk : b.chipClk = .running) : b.needClock = b := by
  simp only [Board.needClock, hk]

theorem doubtCell_known {b : Board} {k : Nat} (hr : b.chipInReset = some false) (ha : abus b.aq = some k) :
    b.doubtCell = { b with chip := Memory.erase b.chip k } := by
  simp only [Board.doubtCell, hr, ha, if_true]

theorem doubtCell_in_reset {b : Board} (hr : b.chipInReset ≠ some false) : b.doubtCell = b := if_neg hr

/-- The cell in doubt is all that the opening of a select pulse touches behind the pins. -/
theorem doubtCell_eq (b : Board) : b.doubtCell = { b with chip := b.doubtCell.chip } := by
  rcases doubtCell_chip b with h | h | ⟨k, h⟩ <;> simp only [h, Board.forgetChip]

/-- The board in a Low time of CS_N, opened from `b`, in which `w` has happened (R39). -/
def selectOpen (w : SelectWindow) (b : Board) : Board :=
  { b with
    chip := b.doubtCell.chip
    select := some w
    pinLevel := b.pinLevel.set .csN (some .low) }

theorem react_select_opens {b : Board} (hc : b.pinLevel.csN = some .high) (hk : b.chipClk = .running) :
    b.react (.write .csN .low) = selectOpen ⟨false, false, false⟩ b := by
  simp only [Board.react, Board.reactWrite, Board.writeCsN, hc]
  rw [doubtCell_eq b, needClock_running]
  · rfl
  · exact hk

/-- A Hold of T_CS_MIN in the Low time is long enough for the select pulse, and too short for a reset (R5). -/
theorem selectOpen_hold (w : SelectWindow) (b : Board) :
    (selectOpen w b).react (.hold .csMin) = selectOpen { w with held := true } b := by
  simp [Board.react, Board.holdFor, selectOpen, Duration.ns, Config.tCsMin, Config.tResMin]

/-- Low and the Hold of T_CS_MIN: the select pulse, ready to close (R39, R74). -/
theorem replay_select_held {b : Board} (hc : b.pinLevel.csN = some .high) (hk : b.chipClk = .running) :
    b.replay [.write .csN .low, .hold .csMin] = selectOpen ⟨true, false, false⟩ b := by
  rw [replay_cons, react_select_opens hc hk, replay_cons, selectOpen_hold, replay_nil]

/-! ### The select pulse closes -/

theorem takeWrite_known {b : Board} {k : Nat} {v : Byte} (ha : abus b.aq = some k) (hd : dbus b.dq = some v) :
    b.takeWrite = { b with chip := Memory.write b.chip k v } := by
  simp only [Board.takeWrite, ha, hd]

theorem takeWrite_data_undefined {b : Board} {k : Nat} (ha : abus b.aq = some k) (hd : dbus b.dq = none) :
    b.takeWrite = { b with chip := Memory.erase b.chip k } := by
  simp only [Board.takeWrite, ha, hd]

theorem takeWrite_address_undefined {b : Board} (ha : abus b.aq = none) : b.takeWrite = b.forgetChip := by
  simp only [Board.takeWrite, ha]

theorem closeSelect_in_reset {b : Board} (hr : b.chipInReset ≠ some false) : b.closeSelect = b := if_neg hr

/-- A Low time that was held and in which nothing else happened is a select pulse (R39). -/
theorem closeSelect_pulse {b : Board} (hr : b.chipInReset = some false) (hs : b.select = some ⟨true, false, false⟩) :
    b.closeSelect = b.takeWrite := by
  simp [Board.closeSelect, hr, hs]

/-- A Low time that was too short, or had a latch event in it, leaves no register known (R39). -/
theorem closeSelect_forgets {b : Board} {w : SelectWindow} (hr : b.chipInReset = some false) (hs : b.select = some w)
    (hw : w.held = false ∨ w.latched = true) : b.closeSelect = b.forgetChip := by
  rcases hw with hw | hw <;> simp [Board.closeSelect, hr, hs, hw]

theorem react_select_closes {b : Board} (hc : b.pinLevel.csN = some .low) (hk : b.chipClk = .running) :
    (b.react (.write .csN .high)).chip = b.closeSelect.chip := by
  simp only [Board.react, Board.reactWrite, Board.writeCsN, hc, setLevel_chip]
  rw [needClock_running]
  exact (sameFixed_closeSelect b).chipClk.trans hk

/-- The register space after Low, Hold(T_CS_MIN), High (R39, R74). -/
theorem replay_select_chip {b : Board} (hc : b.pinLevel.csN = some .high) (hk : b.chipClk = .running) :
    (b.replay [.write .csN .low, .hold .csMin, .write .csN .high]).chip =
      (selectOpen ⟨true, false, false⟩ b).closeSelect.chip := by
  rw [← react_select_closes (b := selectOpen ⟨true, false, false⟩ b) rfl hk, ← replay_select_held hc hk]
  rfl

/-- The register space after that pulse, the chip out of reset: the bus is taken over the cell in doubt (R39). -/
theorem replay_select_takes {b : Board} (hc : b.pinLevel.csN = some .high) (hk : b.chipClk = .running)
    (hr : b.chipInReset = some false) :
    (b.replay [.write .csN .low, .hold .csMin, .write .csN .high]).chip =
      (selectOpen ⟨true, false, false⟩ b).takeWrite.chip := by
  rw [replay_select_chip hc hk, closeSelect_pulse (b := selectOpen ⟨true, false, false⟩ b) hr rfl]

/-! ### What is read in and after a select pulse -/

/-- While the pulse is open the addressed register is in doubt and no other (R39). -/
theorem read_selectOpen {b : Board} {k : Nat} (w : SelectWindow) (hr : b.chipInReset = some false)
    (ha : abus b.aq = some k) (x : Nat) :
    Memory.read (selectOpen w b).chip x = if x = k then none else Memory.read b.chip x := by
  rw [selectOpen, doubtCell_known hr ha, memory_read_erase]

/-- After the pulse the addressed register holds the data byte, and every other one what it held (R39). -/
theorem read_select {b : Board} {k : Nat} {v : Byte} (hc : b.pinLevel.csN = some .high) (hk : b.chipClk = .running)
    (hr : b.chipInReset = some false) (ha : abus b.aq = some k) (hd : dbus b.dq = some v) (x : Nat) :
    Memory.read (b.replay [.write .csN .low, .hold .csMin, .write .csN .high]).chip x =
      if x = k then some v else Memory.read b.chip x := by
  rw [replay_select_takes hc hk hr, takeWrite_known (b := selectOpen ⟨true, false, false⟩ b) ha hd, memory_read_write,
    read_selectOpen _ hr ha]
  split <;> rfl

/-- With an Undefined data bit the addressed register stays Undefined (R39). -/
theorem read_select_data_undefined {b : Board} {k : Nat} (hc : b.pinLevel.csN = some .high)
    (hk : b.chipClk = .running) (hr : b.chipInReset = some false) (ha : abus b.aq = some k) (hd : dbus b.dq = none)
    (x : Nat) :
    Memory.read (b.replay [.write .csN .low, .hold .csMin, .write .csN .high]).chip x =
      if x = k then none else Memory.read b.chip x := by
  rw [replay_select_takes hc hk hr, takeWrite_data_undefined (b := selectOpen ⟨true, false, false⟩ b) ha hd,
    memory_read_erase, read_selectOpen _ hr ha]
  split <;> rfl

/-- A latch event in the Low time, CS_N still Low after it, spoils the pulse and is remembered (R39). -/
theorem replay_latch_in_select {b : Board} {w : SelectWindow} {latch : List PinEvent}
    (hl : b.pinLevel.shLatch = some .low)
    (h : latch = [.write .shLatch .high] ∨ latch = [.write .shLatch .high, .write .shLatch .low]) :
    ((selectOpen w b).replay latch).select = some { w with latched := true, spoiled := true } ∧
      ((selectOpen w b).replay latch).pinLevel.csN = some .low ∧
      ((selectOpen w b).replay latch).chipInReset = b.chipInReset := by
  have rises := react_latch_rises (b := selectOpen w b) hl
  rcases h with rfl | rfl
  · rw [replay_cons, rises]
    exact ⟨rfl, rfl, rfl⟩
  · rw [replay_cons, rises, replay_cons, react_latch_keeps (.inl rfl)]
    exact ⟨rfl, rfl, rfl⟩

/-! ### The reset pulse -/

/-- A falling RES_N puts the chip in reset and forgets its registers (R40). -/
theorem react_reset_falls {b : Board} (h : b.pinLevel.resN = some .high) :
    b.react (.write .resN .low) =
      { b.forgetChip with chipInReset := some true, resetHeld := false }.spoilSelect.setLevel .resN .low := by
  simp only [Board.react, Board.reactWrite, Board.writeResN, h]

/-- A rising RES_N after a Hold of T_RES_MIN ends the reset (R40). -/
theorem react_reset_rises {b : Board} (h : b.pinLevel.resN = some .low) (hh : b.resetHeld = true)
    (hk : b.chipClk = .running) :
    b.react (.write .resN .high) =
      { b with chipInReset := some false, resetHeld := false }.spoilSelect.setLevel .resN .high := by
  simp only [Board.react, Board.reactWrite, Board.writeResN, h, hh, if_true]
  rw [needClock_running]
  exact hk

/-- A rising RES_N without that Hold leaves the chip's state in doubt (R40; log 12). -/
theorem react_reset_rises_early {b : Board} (h : b.pinLevel.resN = some .low) (hh : b.resetHeld = false) :
    b.react (.write .resN .high) =
      { b.forgetChip with chipInReset := none, resetHeld := false }.spoilSelect.setLevel .resN .high := by
  simp [Board.react, Board.reactWrite, Board.writeResN, h, hh]

end Sys2Proof.Machine

namespace Sys2Proof.Proofs

open Sys2Proof.Machine Sys2Proof.Safety

/-- Settles O15: one equation of the board for each kind of write of SH_MR_N and SH_LATCH. -/
theorem clearReachesStagesLatchReachesOutputs : Obligations.ClearReachesStagesLatchReachesOutputs := by
  intro b
  refine ⟨?_, fun rises => ?_, fun l keeps => ?_, fun doubt => ?_⟩
  · rw [react_clear]
    exact ⟨rfl, rfl, rfl, rfl⟩
  · rw [react_latch_rises rises]
    exact ⟨rfl, rfl, rfl, rfl⟩
  · rw [react_latch_keeps keeps]
    exact ⟨rfl, rfl, rfl, rfl⟩
  · rw [react_latch_in_doubt doubt]
    exact ⟨rfl, rfl⟩

/-- Settles O16: one equation of the board for each kind of write of SH_CLK. -/
theorem clockEdgesShiftBothStages : Obligations.ClockEdgesShiftBothStages := by
  intro b
  refine ⟨fun hclk hmr => ?_, fun l keeps => ?_, fun hclk hmr => ?_⟩
  · rw [react_clock_rises hclk hmr]
    exact ⟨rfl, rfl⟩
  · rw [react_clock_keeps keeps]
    exact ⟨rfl, rfl⟩
  · rw [react_clock_in_doubt hclk hmr]
    exact ⟨rfl, rfl⟩

/-- Settles O13: the eight slots fill both stages, and the latch pulse copies the stages to the buses. -/
theorem eightSlotsThenLatchPresentBothBytes : Obligations.EightSlotsThenLatchPresentBothBytes := by
  intro b a d hmr hclk
  have slots := replay_serialWord b a d hclk hmr
  refine ⟨?_, fun hlatch => ?_⟩
  · rw [slots]
    exact ⟨rfl, rfl, rfl, rfl, rfl, rfl⟩
  · have low : (b.replay (serialWord a d)).pinLevel.shLatch = some .low := by rw [slots]; exact hlatch
    obtain ⟨haq, hdq⟩ := replay_latch_outputs low
    rw [replay_append, haq, hdq, slots]
    exact ⟨abus_ofByte a, dbus_ofByte d⟩

/-- Settles O14: the pulse in full, the pulse still open, and the pulse closed too early. -/
theorem selectPulseWritesOneCell : Obligations.SelectPulseWritesOneCell := by
  intro b k v hcs hreset hclk ha hd
  refine ⟨read_select hcs hclk hreset ha hd, fun x => ?_, fun x => ?_⟩
  · rw [replay_select_held hcs hclk, read_selectOpen _ hreset ha]
  · rw [replay_cons, react_select_opens hcs hclk, replay_cons, replay_nil,
      react_select_closes (b := selectOpen ⟨false, false, false⟩ b) rfl hclk,
      closeSelect_forgets (b := selectOpen ⟨false, false, false⟩ b) hreset rfl (.inl rfl)]
    rfl

/-- Settles O17: each corner case decides what the opening puts in doubt and what the close takes. -/
theorem selectCornerCasesForgetRegisters : Obligations.SelectCornerCasesForgetRegisters := by
  refine ⟨fun b hcs hclk => ⟨fun hreset ha x => ?_, fun k hreset ha hd => ?_, fun hreset hlow latch hlatch x => ?_,
    fun hreset x => ?_⟩, fun b hcs hreset x => ?_⟩
  · rw [replay_select_takes hcs hclk hreset,
      takeWrite_address_undefined (b := selectOpen ⟨true, false, false⟩ b) ha]
    rfl
  · exact read_select_data_undefined hcs hclk hreset ha hd
  · obtain ⟨hwindow, hlevel, hchip⟩ := replay_latch_in_select (w := ⟨true, false, false⟩) hlow hlatch
    have hrun := replay_chipClk (selectOpen ⟨true, false, false⟩ b) latch
    rw [show (PinEvent.write .csN .low :: .hold .csMin :: latch ++ [.write .csN .high]) =
        [.write .csN .low, .hold .csMin] ++ (latch ++ [.write .csN .high]) from rfl,
      replay_append, replay_select_held hcs hclk, replay_append, replay_cons, replay_nil,
      react_select_closes hlevel (hrun.trans hclk), closeSelect_forgets (hchip.trans hreset) hwindow (.inr rfl)]
    rfl
  · rw [replay_select_chip hcs hclk, closeSelect_in_reset (b := selectOpen ⟨true, false, false⟩ b) hreset, selectOpen,
      doubtCell_in_reset hreset]
  · simp [Board.react, Board.reactWrite, Board.writeCsN, hcs, hreset]

/-- Settles O18: RES_N falls; then it rises after the long Hold, after none, or after one that is too short. -/
theorem resetPulseNeedsItsHold : Obligations.ResetPulseNeedsItsHold := by
  intro b hres hclk
  have falls := react_reset_falls hres
  refine ⟨?_, ?_, fun pause hpause => ?_⟩
  · rw [falls]
    exact ⟨rfl, fun _ => rfl⟩
  · rw [replay_cons, falls, replay_cons, replay_cons, replay_nil, react_reset_rises]
    · exact ⟨rfl, fun _ => rfl⟩
    · rfl
    · rfl
    · exact hclk
  · rcases hpause with rfl | rfl
    · rw [List.singleton_append, replay_cons, falls, replay_cons, replay_nil, react_reset_rises_early]
      · exact ⟨rfl, fun _ => rfl⟩
      · rfl
      · rfl
    · rw [List.cons_append, List.singleton_append, replay_cons, falls, replay_cons, replay_cons, replay_nil,
        react_reset_rises_early]
      · exact ⟨rfl, fun _ => rfl⟩
      · rfl
      · rfl

end Sys2Proof.Proofs
end

