-- ==== Sys2Proof/Proofs/ChipMemory.lean ====
section
/-! SUPPORT. The chip register space under steps and tokens (20_memory.md R33, R34, R39): its canonical form (O47), and which
register a token changes (O35, O36). -/

namespace Sys2Proof.Machine

open Sys2Proof.Safety

/-! ### The canonical form -/

theorem replay_wf {b : Board} (es : List PinEvent) (h : Memory.wf b.chip = true) :
    Memory.wf (b.replay es).chip = true := by
  induction es generalizing b with
  | nil => exact h
  | cons e es ih => exact ih (react_wf e h)

theorem drivenBy_wf {s : State} (es : List PinEvent) (n : Nat) (h : Memory.wf s.board.chip = true) :
    Memory.wf (drivenBy es n s).board.chip = true := by
  by_cases hb : s.backend = .live
  · rw [drivenBy_live hb]
    exact replay_wf es h
  · rw [drivenBy_other hb]
    exact h

/-- Neither a fatal fault nor the host's cut touches anything behind the pins (R121, R142). -/
theorem stopped_board (why : Option Raised) (s : State) : (stopped why s).board = s.board := by
  cases why <;> rfl

theorem stepEffect_wf {s t : State} (hs : Memory.wf s.board.chip = true) (h : StepEffect s t) :
    Memory.wf t.board.chip = true := by
  cases h with
  | startup _ n _ _ _ _ _ e => exact e ▸ drivenBy_wf initializeEvents n hs
  | startupStops _ pre _ _ _ n _ _ _ _ e =>
    rw [e, stopped_board]
    exact drivenBy_wf pre n hs
  | write a d n _ _ _ _ _ _ e => exact e ▸ drivenBy_wf (registerWriteEvents a d) n hs
  | writeStops _ _ pre _ _ _ n _ _ _ _ _ _ e =>
    rw [e, stopped_board]
    exact drivenBy_wf pre n hs
  | demoEnds _ _ _ e => rcases e with rfl | rfl <;> exact hs
  | wait _ _ e | hardwareUnavailable _ e | writeBeforeInitialize _ _ e | endToken _ _ _ _ e | accept _ _ _ _ _ _ e
  | overflow _ _ _ _ e | endOfStream _ _ _ e | ioError _ _ _ e | drainHead _ _ _ _ e | frameRefused _ _ _ _ _ _ _ _ e
  | illegal _ _ _ _ _ _ e | illegalSkipped _ _ _ _ _ e | dangling _ _ _ _ _ e | drainEnd _ _ _ _ e =>
    subst e
    exact hs

/-! ### A register write, event by event -/

/-- An event that no rule for the chip's registers names: R39 speaks of CS_N, R40 of RES_N. -/
def sparesChip : PinEvent → Bool
  | .mode _ => true
  | .hold _ => true
  | .write p _ => decide (p ≠ .csN ∧ p ≠ .resN)

theorem react_spares_chip {e : PinEvent} (b : Board) (h : sparesChip e = true) : (b.react e).chip = b.chip := by
  cases e with
  | mode p => rfl
  | hold t => rfl
  | write p l =>
    rw [Board.react, setLevel_chip]
    cases p with
    | addrSer | dataSer => rfl
    | shClk =>
      simp only [Board.reactWrite, Board.writeShClk]
      split <;> (try split) <;> rfl
    | shLatch =>
      simp only [Board.reactWrite, Board.writeShLatch]
      split <;> rfl
    | shMrN => cases l <;> rfl
    | csN | resN => cases h

theorem replay_spares_chip {es : List PinEvent} (b : Board) (h : ∀ e ∈ es, sparesChip e = true) :
    (b.replay es).chip = b.chip := by
  induction es generalizing b with
  | nil => rfl
  | cons e es ih =>
    obtain ⟨he, hes⟩ := List.forall_mem_cons.1 h
    rw [replay_cons, ih _ hes, react_spares_chip b he]

/-- The events of a register write before its select pulse: the bit slots and the latch pulse (R75). -/
def presentEvents (a d : Byte) : List PinEvent :=
  serialWord a d ++ [.write .shLatch .high, .write .shLatch .low]

theorem registerWriteEvents_present (a d : Byte) :
    registerWriteEvents a d = presentEvents a d ++ [.write .csN .low, .hold .csMin, .write .csN .high] :=
  registerWriteEvents_eq a d

theorem presentEvents_spare_chip (a d : Byte) : ∀ e ∈ presentEvents a d, sparesChip e = true :=
  List.all_eq_true.1 (show (presentEvents a d).all sparesChip = true from rfl)

/-- The bit slots and the latch pulse put both operands on the chip's buses and leave the rest behind the pins (R41). -/
theorem replay_present {b : Board} (a d : Byte) (h : BoardIdle b) :
    b.replay (presentEvents a d) =
      { b with
        asr := Stage.ofByte a
        dsr := Stage.ofByte d
        aq := Stage.ofByte a
        dq := Stage.ofByte d
        pinLevel :=
          { b.pinLevel with addrSer := some (levelOf (bit a 0)), dataSer := some (levelOf (bit d 0)) } } := by
  obtain ⟨-, -, hclk, hlatch, hmr, -, -, -, hsel, -⟩ := h
  rw [presentEvents, replay_append, replay_serialWord b a d hclk hmr, replay_latch]
  · exact hlatch
  · exact hsel

/-- At every moment of a select pulse every register but the addressed one holds what it held (R39). -/
theorem read_during_select {b : Board} {k : Nat} {v : Byte} {pre post : List PinEvent} {x : Nat}
    (hc : b.pinLevel.csN = some .high) (hk : b.chipClk = .running) (hr : b.chipInReset = some false)
    (ha : abus b.aq = some k) (hd : dbus b.dq = some v)
    (hl : [.write .csN .low, .hold .csMin, .write .csN .high] = pre ++ post) (hx : x ≠ k) :
    Memory.read (b.replay pre).chip x = Memory.read b.chip x := by
  have first : pre ∈ [[], [.write .csN .low], [.write .csN .low, .hold .csMin],
      [.write .csN .low, .hold .csMin, .write .csN .high]] := (List.mem_inits _ _).2 ⟨post, hl.symm⟩
  simp only [List.mem_cons, List.not_mem_nil, or_false] at first
  rcases first with rfl | rfl | rfl | rfl
  · rfl
  · rw [replay_cons, replay_nil, react_select_opens hc hk, read_selectOpen _ hr ha, if_neg hx]
  · rw [replay_select_held hc hk, read_selectOpen _ hr ha, if_neg hx]
  · rw [read_select hc hk hr ha hd, if_neg hx]

/-- At every moment of a register write from idle pins every register but the addressed one holds what it held (R39). -/
theorem read_during_write {b : Board} {a d : Byte} {pre post : List PinEvent} {x : Nat} (hb : BoardIdle b)
    (hl : registerWriteEvents a d = pre ++ post) (hx : x ≠ a.toNat % 32) :
    Memory.read (b.replay pre).chip x = Memory.read b.chip x := by
  rw [registerWriteEvents_present] at hl
  rcases List.append_eq_append_iff.1 hl with ⟨mid, hpre, hsel⟩ | ⟨mid, hpresent, -⟩
  · have present := replay_present a d hb
    obtain ⟨-, -, -, -, -, hcs, -, hreset, -, hclk⟩ := hb
    rw [hpre, replay_append, present]
    exact read_during_select hcs hclk hreset (abus_ofByte a) (dbus_ofByte d) hsel hx
  · rw [replay_spares_chip b fun e he => presentEvents_spare_chip a d e (hpresent ▸ List.mem_append_left _ he)]

/-! ### The tokens -/

/-- Under LIVE a register write does to the board what the first of its events do, all of them if it completes (R79). -/
theorem writeRegister_board (a d : Byte) {s : State} (h : ReadyLive s) :
    ∃ pre post, registerWriteEvents a d = pre ++ post ∧ (writeRegister a d s).state.board = s.board.replay pre := by
  obtain ⟨hlive, hinit, hidle⟩ := h
  rcases writeRegister_live a d s hlive hinit hidle.1 with ⟨-, e⟩ | ⟨pre, why, ⟨ev, post, hl, -, -⟩, e⟩
  · exact ⟨_, [], (List.append_nil _).symm, by rw [e]; rfl⟩
  · exact ⟨pre, ev :: post, hl, by rw [e]; cases why <;> rfl⟩

/-- `IDX <- IDX + 2` touches nothing behind the pins. -/
theorem andThen_nextItem_board (f : Flow) : (f.andThen nextItem).state.board = f.state.board := by
  cases f <;> rfl

theorem illegalPair_board (a d : Byte) (s : State) : (illegalPair a d s).state.board = s.board := by
  rw [illegalPair_eq]
  split <;> rfl

/-- Of the tokens only WR reaches the pins (R96). -/
theorem exec_board_of_not_wr {i : Instr} {s t : State} (hi : ∀ addr data, i ≠ .wr addr data) (h : exec i s = .next t) :
    t.board = s.board := by
  cases i with
  | wr addr data => exact absurd rfl (hi addr data)
  | endFrame =>
    cases h
    rfl
  | wrIllegal32To63 a d | wrIllegal64To127 a d | wrIllegal128To254 a d =>
    cases h
    exact illegalPair_board a d s

/-- The state after a complete register write from idle pins under LIVE (R76, R77). -/
def afterWrite (a d : Byte) (s : State) : State :=
  { s with
    a := a
    d := d
    i := 0
    trace := s.trace ++ registerWriteEvents a d
    board := boardAfterWrite s.board a d
    pinWrites := s.pinWrites + 36 }

theorem writeRegister_ready (a d : Byte) {s : State} (h : ReadyLive s) (hu : Undisturbed (registerWriteEvents a d) s) :
    writeRegister a d s = .go (afterWrite a d s) := by
  obtain ⟨hlive, hinit, hidle⟩ := h
  rw [writeRegister_live_go a d hlive hinit hidle.1 hu, drivenLive, countWrites_register, afterWrite,
    ← replay_registerWrite s.board a d hidle]

/-- An address operand is its own low five bits (R56). -/
theorem addressOperand_mod (addr : Address) : (addressOperand addr).toNat % 32 = addr.toNat := by
  rw [addressOperand_toNat]
  exact Nat.mod_eq_of_lt addr.isLt

end Sys2Proof.Machine

namespace Sys2Proof.Proofs

open Sys2Proof.Machine Sys2Proof.Safety

/-- Settles O47: whatever a step drives, it drives event by event, and every event keeps the canonical form. -/
theorem stepKeepsChipSpaceCanonical : Obligations.StepKeepsChipSpaceCanonical :=
  fun _ _ hs h => stepEffect_wf hs (step_effect h)

/-- Settles O35: WR makes a first part of its events, none of which reaches another register; the others make none. -/
theorem tokensChangeOnlyTheAddressedRegister : Obligations.TokensChangeOnlyTheAddressedRegister := by
  refine fun s t hready => ⟨fun addr data h x hx => ?_, fun i hi h x => by rw [exec_board_of_not_wr hi h]⟩
  obtain ⟨pre, post, hl, hboard⟩ := writeRegister_board (addressOperand addr) data hready
  cases h
  rw [andThen_nextItem_board, hboard]
  refine read_during_write hready.2.2 hl ?_
  rwa [addressOperand_mod, ← addressOperand_toNat]

/-- Settles O36: the board after the complete register write. -/
theorem writtenRegisterHoldsTheData : Obligations.WrittenRegisterHoldsTheData := by
  intro addr data s hready hfail hcut
  have hu : Undisturbed (registerWriteEvents (addressOperand addr) data) s := by
    rw [Undisturbed, countWrites_register, length_register]
    exact ⟨hfail, hcut⟩
  refine ⟨_, rfl, ?_⟩
  rw [andThen_nextItem_board, writeRegister_ready _ data hready hu, ← addressOperand_mod]
  exact ⟨memory_read_write_same .., abus_ofByte _, dbus_ofByte data⟩

end Sys2Proof.Proofs
end

