-- ==== Sys2Proof/Proofs/Stream.lean ====
section
/-! SUPPORT. A stream of valid frames from idle pins to idle pins (O60): what a part of the run has driven, the walk over one
frame, one byte, and then the stream by induction. -/

namespace Sys2Proof.Machine

open Sys2Proof.Safety

/-! ### What a part of the run has driven -/

/-- The host disturbs nothing from here on: each pin write that fails, and the event of the cut, lie behind (R69, R142). -/
structure NeverDisturbed (s : State) : Prop where
  pinFail : ∀ n ∈ s.params.pinFail, n ≤ s.pinWrites
  cutAt : ∀ n, s.params.cutAt = some n → n ≤ s.trace.length

theorem NeverDisturbed.undisturbed {s : State} (h : NeverDisturbed s) (es : List PinEvent) : Undisturbed es s := by
  refine ⟨fun k _ hmem => ?_, fun k _ hcut => ?_⟩
  · have := h.pinFail _ hmem
    omega
  · have := h.cutAt _ hcut
    omega

/-- The events of register writes made one after another. -/
def writesEvents (ws : List (Byte × Byte)) : List PinEvent := ws.flatMap (fun w => registerWriteEvents w.1 w.2)

/-- What register writes made one after another leave in the chip. -/
def writesChip (ws : List (Byte × Byte)) (m : Memory) : Memory :=
  ws.foldl (fun m w => Memory.write m w.1.toNat w.2) m

/-- Between `s` and `t`, both with idle pins, the block has made the register writes `ws` in order and no other pin event,
and has reported `reports` and no fault. -/
structure Drove (s t : State) (ws : List (Byte × Byte)) (reports : List DiagEvent) : Prop where
  params : t.params = s.params
  cut : t.cut = false
  exit : t.exit = s.exit
  fault : t.fault = s.fault
  ready : ReadyLive t
  pinWrites : s.pinWrites ≤ t.pinWrites
  trace : t.trace = s.trace ++ writesEvents ws
  chip : t.board.chip = writesChip ws s.board.chip
  diag : t.diag = s.diag ++ reports

theorem Drove.trans {s t u : State} {ws ws' : List (Byte × Byte)} {rs rs' : List DiagEvent} (h : Drove s t ws rs)
    (k : Drove t u ws' rs') : Drove s u (ws ++ ws') (rs ++ rs') where
  params := k.params.trans h.params
  cut := k.cut
  exit := k.exit.trans h.exit
  fault := k.fault.trans h.fault
  ready := k.ready
  pinWrites := h.pinWrites.trans k.pinWrites
  trace := by simp only [k.trace, h.trace, writesEvents, List.flatMap_append, List.append_assoc]
  chip := by simp only [k.chip, h.chip, writesChip, List.foldl_append]
  diag := by rw [k.diag, h.diag, List.append_assoc]

theorem Drove.neverDisturbed {s t : State} {ws : List (Byte × Byte)} {rs : List DiagEvent} (h : Drove s t ws rs)
    (hs : NeverDisturbed s) : NeverDisturbed t := by
  refine ⟨fun n hn => ?_, fun n hn => ?_⟩
  · rw [h.params] at hn
    exact (hs.pinFail n hn).trans h.pinWrites
  · rw [h.params] at hn
    rw [h.trace, List.length_append]
    exact (hs.cutAt n hn).trans (Nat.le_add_right ..)

theorem afterWrite_drove {s : State} {a : Byte} (d : Byte) (idx : Nat) (hcut : s.cut = false) (hready : ReadyLive s)
    (ha : a.toNat < 32) : Drove s { afterWrite a d s with idx := idx } [(a, d)] [] where
  params := rfl
  cut := hcut
  exit := rfl
  fault := rfl
  ready := ⟨hready.1, hready.2.1, boardAfterWrite_idle a d hready.2.2⟩
  pinWrites := Nat.le_add_right ..
  trace := by simp [afterWrite, writesEvents]
  chip := by simp [afterWrite, boardAfterWrite, writesChip, Nat.mod_eq_of_lt ha]
  diag := (List.append_nil _).symm

/-! ### Frames of valid pairs -/

theorem validPairs_cons (a d : Byte) (rest : List Byte) :
    validPairs (a :: d :: rest) = true ↔ a.toNat < 32 ∧ validPairs rest = true := by
  have unfolded : validPairs (a :: d :: rest) = (addressValid a && validPairs rest) := rfl
  rw [unfolded, Bool.and_eq_true, addressValid, decide_eq_true_iff]
  rfl

theorem pairsOf_cons (a d : Byte) (rest : List Byte) : pairsOf (a :: d :: rest) = (a, d) :: pairsOf rest := rfl

/-- Among valid pairs there is no first illegal one (R98). -/
theorem firstIllegal_of_validPairs {frame : List Byte} (h : validPairs frame = true) (k : Nat) :
    firstIllegal k (decompose frame) = none := by
  induction frame using decompose.induct generalizing k with
  | case1 => rfl
  | case2 b => cases h
  | case3 a d rest ih =>
    obtain ⟨ha, hrest⟩ := (validPairs_cons a d rest).1 h
    rw [decompose_pair, firstIllegal, if_pos (by exact ha)]
    exact ih hrest (k + 1)

/-! ### The steps of a run that is not cut -/

theorem step_accept {s : State} {b : Byte} {events : List InputEvent} (hcut : s.cut = false) (hc : s.ctrl = .accum)
    (hi : s.input = .byte b :: events) (hb : ¬ (b = Config.sentinel ∧ s.buf.length % 2 = 0))
    (hcap : s.params.bufCap = none) :
    step s = .next { s with input := events, pos := s.pos + 1, buf := s.buf ++ [b] } := by
  rw [step_of_uncut hcut]
  simp [fetchAction, hc, fetchEvent, hi, decodeArriving_eq, and_comm, hb, runPass, acceptByte, appendByte, bufFull,
    takeByte, takeEvent, hcap]

theorem step_end {s : State} {events : List InputEvent} (hcut : s.cut = false) (hc : s.ctrl = .accum)
    (hi : s.input = .byte Config.sentinel :: events) (hb : s.buf.length % 2 = 0) :
    step s = .next (emitFrame { s with input := events, pos := s.pos + 1 }) := by
  rw [step_of_uncut hcut]
  simp [fetchAction, hc, fetchEvent, hi, decodeArriving_eq, hb, exec, execEndFrame, takeByte, takeEvent]

/-- DRAIN's head on a frame of valid pairs passes the whole-frame check under every policy (R98, R105, R106). -/
theorem step_drainHead {s : State} (hcut : s.cut = false) (hc : s.ctrl = .emit) (hm : s.micro = .entry)
    (hv : validPairs s.frame = true) :
    step s = .next { s with
      diag := s.diag ++ (if s.params.debug then [.frameDump s.frame] else []), idx := 0, micro := .walk } := by
  rw [step_of_uncut hcut]
  simp [fetchAction, hc, hm, runPass, drainHead, dumpFrame_eq, checkWholeFrame, firstIllegal_of_validPairs hv]

theorem step_pair {s : State} {a d : Byte} {rest : List Byte} (hcut : s.cut = false) (hc : s.ctrl = .emit)
    (hm : s.micro = .walk) (hf : s.frame.drop s.idx = a :: d :: rest) (ha : a.toNat < 32) :
    step s = .next ((writeRegister a d s).andThen nextItem).state := by
  have hx := exec_decodePair a d s
  rw [if_pos ha] at hx
  rw [step_of_uncut hcut, ← hx]
  simp [fetchAction, hc, hm, fetchItem, hf]

theorem step_drainEnd {s : State} (hcut : s.cut = false) (hc : s.ctrl = .emit) (hm : s.micro = .walk)
    (hf : s.frame.drop s.idx = []) (hn : s.params.progressN = none) :
    step s = .next { s with ctrl := .accum, micro := .entry } := by
  rw [step_of_uncut hcut]
  simp [fetchAction, hc, hm, fetchItem, hf, runPass, drainEnd, reportProgress, hn]

/-! ### One frame -/

/-- Where the reader stands: what a walk over a frame leaves as it is (R105, R110). -/
structure SameReader (s t : State) : Prop where
  input : t.input = s.input
  buf : t.buf = s.buf
  pos : t.pos = s.pos
  nframes : t.nframes = s.nframes

/-- The walk over the rest of a frame of valid pairs makes one register write for each and comes back to ACCUM. -/
theorem walk_drives {rest : List Byte} {s : State} (hcut : s.cut = false) (hc : s.ctrl = .emit) (hm : s.micro = .walk)
    (hready : ReadyLive s) (hnever : NeverDisturbed s) (hn : s.params.progressN = none)
    (hf : s.frame.drop s.idx = rest) (hv : validPairs rest = true) :
    ∃ n t, Sys2Proof.core.run n s = .next t ∧ t.ctrl = .accum ∧ SameReader s t ∧ Drove s t (pairsOf rest) [] := by
  induction rest using decompose.induct generalizing s with
  | case1 =>
    refine ⟨1, _, run_step (step_drainEnd hcut hc hm hf hn) 0, rfl, ⟨rfl, rfl, rfl, rfl⟩, ?_⟩
    exact ⟨rfl, hcut, rfl, rfl, hready, Nat.le_refl _, (List.append_nil _).symm, rfl, (List.append_nil _).symm⟩
  | case2 b => cases hv
  | case3 a d rest ih =>
    obtain ⟨ha, hrest⟩ := (validPairs_cons a d rest).1 hv
    have hstep := step_pair hcut hc hm hf ha
    rw [writeRegister_ready a d hready (hnever.undisturbed _)] at hstep
    have hwrite := afterWrite_drove d (s.idx + 2) hcut hready ha
    have hf' : s.frame.drop (s.idx + 2) = rest := by rw [← List.drop_drop, hf]; rfl
    obtain ⟨n, t, hrun, haccum, hreader, hdrove⟩ :=
      ih (s := { afterWrite a d s with idx := s.idx + 2 }) hcut hc hm hwrite.ready (hwrite.neverDisturbed hnever) hn hf'
        hrest
    obtain ⟨hinput, hbuf, hpos, hnframes⟩ := hreader
    rw [pairsOf_cons]
    exact ⟨n + 1, t, (run_step hstep n).trans hrun, haccum, ⟨hinput, hbuf, hpos, hnframes⟩, hwrite.trans hdrove⟩

/-! ### The stream -/

/-- In ACCUM with idle pins and a host that lets the run go on, BUF unbounded and no progress counter. -/
structure Streaming (s : State) : Prop where
  cut : s.cut = false
  ctrl : s.ctrl = .accum
  ready : ReadyLive s
  never : NeverDisturbed s
  bufCap : s.params.bufCap = none
  progressN : s.params.progressN = none

/-- The reports of DEBUG on frames (R106). -/
def dumps (p : Params) (frames : List (List Byte)) : List DiagEvent :=
  if p.debug then frames.map .frameDump else []

theorem dumps_append (p : Params) (fs gs : List (List Byte)) : dumps p (fs ++ gs) = dumps p fs ++ dumps p gs := by
  unfold dumps
  split
  · exact List.map_append
  · rfl

/-- `t` is reached from `s`, in ACCUM again, `count` bytes taken and `frames` ended and driven. -/
structure Streamed (s t : State) (count : Nat) (frames : List (List Byte)) : Prop where
  reached : ∃ n, Sys2Proof.core.run n s = .next t
  ctrl : t.ctrl = .accum
  pos : t.pos = s.pos + count
  nframes : t.nframes = s.nframes + frames.length
  drove : Drove s t (frames.flatMap pairsOf) (dumps s.params frames)

theorem Streamed.refl {s : State} (h : Streaming s) : Streamed s s 0 [] where
  reached := ⟨0, rfl⟩
  ctrl := h.ctrl
  pos := rfl
  nframes := rfl
  drove := ⟨rfl, h.cut, rfl, rfl, h.ready, Nat.le_refl _, (List.append_nil _).symm, rfl, by simp [dumps]⟩

theorem Streamed.trans {s t u : State} {m n : Nat} {fs gs : List (List Byte)} (h : Streamed s t m fs)
    (k : Streamed t u n gs) : Streamed s u (m + n) (fs ++ gs) where
  reached := by
    obtain ⟨i, hi⟩ := h.reached
    obtain ⟨j, hj⟩ := k.reached
    exact ⟨i + j, (run_add hi j).trans hj⟩
  ctrl := k.ctrl
  pos := by rw [k.pos, h.pos, Nat.add_assoc]
  nframes := by rw [k.nframes, h.nframes, List.length_append, Nat.add_assoc]
  drove := by
    have hk := k.drove
    rw [h.drove.params] at hk
    rw [List.flatMap_append, dumps_append]
    exact h.drove.trans hk

theorem Streamed.streaming {s t : State} {count : Nat} {frames : List (List Byte)} (h : Streamed s t count frames)
    (hs : Streaming s) : Streaming t where
  cut := h.drove.cut
  ctrl := h.ctrl
  ready := h.drove.ready
  never := h.drove.neverDisturbed hs.never
  bufCap := by rw [h.drove.params, hs.bufCap]
  progressN := by rw [h.drove.params, hs.progressN]

/-- A byte that ends no frame is accumulated (R87). -/
theorem byte_streamed {s : State} {b : Byte} {events : List InputEvent} (hs : Streaming s)
    (hi : s.input = .byte b :: events) (hb : ¬ (b = Config.sentinel ∧ s.buf.length % 2 = 0)) :
    Streamed s { s with input := events, pos := s.pos + 1, buf := s.buf ++ [b] } 1 [] where
  reached := ⟨1, run_step (step_accept hs.cut hs.ctrl hi hb hs.bufCap) 0⟩
  ctrl := hs.ctrl
  pos := rfl
  nframes := rfl
  drove := ⟨rfl, hs.cut, rfl, rfl, hs.ready, Nat.le_refl _, (List.append_nil _).symm, rfl, by simp [dumps]⟩

/-- An END releases the accumulated frame, and the drain drives its pairs (R88, R105). -/
theorem end_streamed {s : State} {events : List InputEvent} (hs : Streaming s)
    (hi : s.input = .byte Config.sentinel :: events) (hb : s.buf.length % 2 = 0) (hv : validPairs s.buf = true) :
    ∃ t, Streamed s t 1 [s.buf] ∧ t.input = events ∧ t.buf = [] := by
  have hend := step_end hs.cut hs.ctrl hi hb
  have hhead := step_drainHead (s := emitFrame { s with input := events, pos := s.pos + 1 }) hs.cut rfl rfl hv
  obtain ⟨n, t, hrun, haccum, ⟨hinput, hbuf, hpos, hnframes⟩, hdrove⟩ :=
    walk_drives (s := { emitFrame { s with input := events, pos := s.pos + 1 } with
      diag := s.diag ++ dumps s.params [s.buf], idx := 0, micro := .walk })
      hs.cut rfl rfl hs.ready ⟨hs.never.1, hs.never.2⟩ hs.progressN rfl hv
  refine ⟨t, ⟨⟨n + 1 + 1, ?_⟩, haccum, hpos, hnframes, ?_⟩, hinput, hbuf⟩
  · rw [run_step hend, run_step hhead]
    exact hrun
  · obtain ⟨hparams, hcut, hexit, hfault, hready, hwrites, htrace, hchip, hdiag⟩ := hdrove
    rw [List.flatMap_singleton]
    exact ⟨hparams, hcut, hexit, hfault, hready, hwrites, htrace, hchip, hdiag.trans (List.append_nil _)⟩

/-- Every stream of bytes whose ended frames hold valid pairs is consumed and driven. -/
theorem stream_streamed {bytes : List Byte} {s : State} (hs : Streaming s) (hi : s.input = bytes.map .byte)
    (hv : ∀ f ∈ (splitFrames s.buf bytes).1, validPairs f = true) :
    ∃ t, Streamed s t bytes.length (splitFrames s.buf bytes).1 ∧ t.input = [] ∧ t.buf = (splitFrames s.buf bytes).2 := by
  induction bytes generalizing s with
  | nil => exact ⟨s, Streamed.refl hs, hi, rfl⟩
  | cons b bytes ih =>
    rw [List.length_cons, Nat.add_comm]
    by_cases hb : b = Config.sentinel ∧ s.buf.length % 2 = 0
    · rw [splitFrames, if_pos hb] at hv ⊢
      obtain ⟨hvbuf, hvrest⟩ := List.forall_mem_cons.1 hv
      rw [hb.1] at hi
      obtain ⟨t, hend, hinput, hbuf⟩ := end_streamed hs hi hb.2 hvbuf
      rw [← hbuf] at hvrest ⊢
      obtain ⟨u, hrest, hu⟩ := ih (hend.streaming hs) hinput hvrest
      exact ⟨u, hend.trans hrest, hu⟩
    · rw [splitFrames, if_neg hb] at hv ⊢
      have hbyte := byte_streamed hs hi hb
      obtain ⟨u, hrest, hu⟩ := ih (hbyte.streaming hs) rfl hv
      exact ⟨u, hbyte.trans hrest, hu⟩

end Sys2Proof.Machine

namespace Sys2Proof.Proofs

open Sys2Proof.Machine Sys2Proof.Safety

/-- Settles O60: by induction on the bytes; an END drives the accumulated pairs, every other byte is accumulated. -/
theorem streamIsDrivenPairByPair : Obligations.StreamIsDrivenPairByPair := by
  intro s bytes frames tail hcut hctrl hinput hready hfail hcutAt hcap hprogress hsplit hvalid
  have hs : Streaming s := ⟨hcut, hctrl, hready, ⟨hfail, hcutAt⟩, hcap, hprogress⟩
  obtain ⟨t, ⟨⟨n, hrun⟩, haccum, hpos, hnframes, hdrove⟩, hconsumed, hbuf⟩ :=
    stream_streamed hs hinput (by rw [hsplit]; exact hvalid)
  rw [hsplit] at hnframes hdrove hbuf
  exact ⟨n, t, hrun, haccum, hconsumed, hbuf, hpos, hnframes, hdrove.trace, hdrove.chip, hdrove.diag, hdrove.exit,
    hdrove.fault, hdrove.cut, hdrove.ready⟩

end Sys2Proof.Proofs
end

