-- ==== Sys2Proof/Proofs/Encoding.lean ====
section
/-! SUPPORT. The round trips between tokens and bytes (30_encoding.md R51 to R57): the row that an address byte's range
names (O3), what the decoder can answer, decoding after encoding (O1, O7) and encoding after decoding (O2). -/

namespace Sys2Proof

/-! ### The row of an address byte -/

theorem decodePair_of_lt {a : Byte} (d : Byte) (h : a.toNat < 32) :
    decodePair a d = .wr (a.setWidth Config.addrBits) d := by
  rcases decodePair_cases a d with ⟨-, e⟩ | ⟨_, -, -⟩ | ⟨_, -, -⟩ | ⟨_, -⟩
  · exact e
  all_goals omega

theorem decodePair_of_32_63 {a : Byte} (d : Byte) (hl : 32 ≤ a.toNat) (hu : a.toNat < 64) :
    decodePair a d = .wrIllegal32To63 a d := by
  rcases decodePair_cases a d with ⟨_, -⟩ | ⟨-, -, e⟩ | ⟨_, -, -⟩ | ⟨_, -⟩
  case inr.inl => exact e
  all_goals omega

theorem decodePair_of_64_127 {a : Byte} (d : Byte) (hl : 64 ≤ a.toNat) (hu : a.toNat < 128) :
    decodePair a d = .wrIllegal64To127 a d := by
  rcases decodePair_cases a d with ⟨_, -⟩ | ⟨-, _, -⟩ | ⟨-, -, e⟩ | ⟨_, -⟩
  case inr.inr.inl => exact e
  all_goals omega

theorem decodePair_of_ge_128 {a : Byte} (d : Byte) (h : 128 ≤ a.toNat) :
    decodePair a d = .wrIllegal128To254 a d := by
  rcases decodePair_cases a d with ⟨_, -⟩ | ⟨-, _, -⟩ | ⟨-, _, -⟩ | ⟨-, e⟩
  case inr.inr.inr => exact e
  all_goals omega

/-- The five-bit field of an address, widened and decoded, is the address again (R56). -/
theorem decodePair_setWidth (addr : Address) (d : Data) : decodePair (addr.setWidth 8) d = .wr addr d := by
  have hlt : (addr.setWidth 8).toNat < 32 := by
    rw [setWidth_toNat]
    exact addr.isLt
  have hback : (addr.setWidth 8).setWidth Config.addrBits = addr := BitVec.setWidth_setWidth_of_le addr (by decide)
  rw [decodePair_of_lt d hlt, hback]

/-! ### What the decoder of a pair answers -/

/-- No bits of a pair are lost in its token (R53, R56), 255 as the address byte included (R96). -/
theorem encode_decodePair (a d : Byte) : encode (decodePair a d) = [a, d] := by
  rcases decodePair_cases a d with ⟨h, e⟩ | ⟨-, -, e⟩ | ⟨-, -, e⟩ | ⟨-, e⟩ <;> rw [e]
  case inl => rw [encode, setWidth_back h]
  all_goals rfl

/-- Only the sentinel as an address byte makes a token that is not well-formed (R57). -/
theorem decodePair_wf {a : Byte} (d : Byte) (ha : a ≠ Config.sentinel) : (decodePair a d).wf = true := by
  rcases decodePair_cases a d with ⟨-, e⟩ | ⟨hl, hu, e⟩ | ⟨hl, hu, e⟩ | ⟨hl, e⟩ <;> rw [e]
  · rfl
  · exact decide_eq_true ⟨hl, hu⟩
  · exact decide_eq_true ⟨hl, hu⟩
  · exact decide_eq_true ⟨hl, ha⟩

/-- A well-formed token but END is the token of two bytes, and the first does not read as an END (R52, R53, R57). -/
theorem exists_pair_of_wf {i : Instr} (hw : i.wf = true) (hi : i ≠ .endFrame) :
    ∃ a d, a ≠ Config.sentinel ∧ encode i = [a, d] ∧ decodePair a d = i := by
  cases i with
  | endFrame => exact absurd rfl hi
  | wr addr d => exact ⟨_, d, setWidth_ne_sentinel addr, rfl, decodePair_setWidth addr d⟩
  | wrIllegal32To63 a d =>
    obtain ⟨hl, hu⟩ := of_decide_eq_true hw
    exact ⟨a, d, ne_sentinel (by omega), rfl, decodePair_of_32_63 d hl hu⟩
  | wrIllegal64To127 a d =>
    obtain ⟨hl, hu⟩ := of_decide_eq_true hw
    exact ⟨a, d, ne_sentinel (by omega), rfl, decodePair_of_64_127 d hl hu⟩
  | wrIllegal128To254 a d =>
    obtain ⟨hl, hs⟩ := of_decide_eq_true hw
    exact ⟨a, d, hs, rfl, decodePair_of_ge_128 d hl⟩

/-! ### The token decoder -/

@[simp] theorem decodeToken_end (rest : List Byte) : decodeToken (Config.sentinel :: rest) = .token .endFrame rest := by
  cases rest <;> rfl

/-- Everything the decoder can read: an END, or a pair that does not begin with the sentinel (R52, R53, R122). -/
theorem decodeToken_eq_token {bytes rest : List Byte} {i : Instr} (h : decodeToken bytes = .token i rest) :
    (bytes = Config.sentinel :: rest ∧ i = .endFrame) ∨
    (∃ a d, a ≠ Config.sentinel ∧ bytes = a :: d :: rest ∧ i = decodePair a d) := by
  match bytes with
  | [] => cases h
  | [b] =>
    by_cases hb : b = Config.sentinel
    · subst hb
      cases h
      exact .inl ⟨rfl, rfl⟩
    · rw [decodeToken, if_neg hb] at h
      cases h
  | b :: d :: rest' =>
    by_cases hb : b = Config.sentinel
    · subst hb
      cases h
      exact .inl ⟨rfl, rfl⟩
    · rw [decodeToken_pair d rest' hb] at h
      cases h
      exact .inr ⟨b, d, hb, rfl, rfl⟩

theorem decodeToken_encode {i : Instr} (rest : List Byte) (hw : i.wf = true) :
    decodeToken (encode i ++ rest) = .token i rest := by
  by_cases hi : i = .endFrame
  · subst hi
    exact decodeToken_end rest
  · obtain ⟨a, d, ha, henc, hdec⟩ := exists_pair_of_wf hw hi
    rw [henc, ← hdec]
    exact decodeToken_pair d rest ha

/-- A word of the opcode table whose bytes begin with the encoding of a well-formed token stands for that token. -/
theorem decodeTableWord_of_encode {nbits w : Nat} {i : Instr} (rest : List Byte) (hw : i.wf = true)
    (h : tableBytes nbits w = encode i ++ rest) : decodeTableWord nbits w = some i := by
  rw [decodeTableWord, h, decodeToken_encode rest hw]

end Sys2Proof

namespace Sys2Proof.Proofs

/-- Settles O1: END is one sentinel; every other well-formed token is read from two bytes as the pair it is. -/
theorem decodeOfEncodeIsTheToken : Obligations.DecodeOfEncodeIsTheToken :=
  fun _ rest hw => decodeToken_encode rest hw

/-- Settles O2: the decoder answers END or the token of a pair, and that token keeps both bytes. -/
theorem decodedBytesAreTheEncoding : Obligations.DecodedBytesAreTheEncoding := by
  intro bytes i rest h
  rcases decodeToken_eq_token h with ⟨rfl, rfl⟩ | ⟨a, d, ha, rfl, rfl⟩
  · exact ⟨rfl, rfl⟩
  · exact ⟨decodePair_wf d ha, by rw [encode_decodePair]; rfl⟩

/-- Settles O3: the reader's END by offset and value, and the row of each range of the address byte. -/
theorem byteClassByOffsetParity : Obligations.ByteClassByOffsetParity := by
  intro n b d
  simp only [decodeArriving_eq]
  refine ⟨fun hn => if_neg ?_, fun hn hb => if_pos ⟨hn, hb⟩, fun _ hb => if_neg fun h => hb h.2,
    decodePair_of_lt d, decodePair_of_32_63 d, decodePair_of_64_127 d, decodePair_of_ge_128 d⟩
  omega

/-- Settles O7: each word is the encoding of its token, and the byte 0 that `tableBytes` appends. -/
theorem tableWordsDecodeToTheirRows : Obligations.TableWordsDecodeToTheirRows :=
  ⟨decodeTableWord_of_encode [0] rfl rfl, decodeTableWord_of_encode [0] rfl rfl,
    decodeTableWord_of_encode [0] rfl rfl, decodeTableWord_of_encode [0] rfl rfl,
    decodeTableWord_of_encode [0] rfl rfl⟩

end Sys2Proof.Proofs
end

