-- ==== Sys2Proof/Proofs/Framing.lean ====
section
/-! SUPPORT. The framing of a byte sequence (30_encoding.md R55): the framing function loses no byte, finds clean frames only,
and finds every clean parse; hence the parse is unique (O6). -/

namespace Sys2Proof

open Sys2Proof.Safety

/-- One more byte keeps the even offsets free of the sentinel unless it ends a frame (R52, R92). -/
theorem noSentinelAtEven_snoc (xs : List Byte) (b : Byte) :
    noSentinelAtEven (xs ++ [b]) = true ↔
      noSentinelAtEven xs = true ∧ ¬ (b = Config.sentinel ∧ xs.length % 2 = 0) := by
  induction xs using noSentinelAtEven.induct with
  | case1 => simp [noSentinelAtEven]
  | case2 x => simp [noSentinelAtEven]
  | case3 x d rest ih =>
    simp only [List.cons_append, noSentinelAtEven, Bool.and_eq_true, ih, List.length_cons, and_assoc,
      Nat.add_assoc, Nat.reduceAdd, Nat.add_mod_right]

/-! ### The steps of the framing function -/

@[simp] theorem splitFrames_nil (buf : List Byte) : splitFrames buf [] = ([], buf) := rfl

theorem splitFrames_end {buf : List Byte} (bytes : List Byte) (h : buf.length % 2 = 0) :
    splitFrames buf (Config.sentinel :: bytes) = (buf :: (splitFrames [] bytes).1, (splitFrames [] bytes).2) :=
  if_pos ⟨rfl, h⟩

theorem splitFrames_byte {buf : List Byte} {b : Byte} (bytes : List Byte)
    (h : ¬ (b = Config.sentinel ∧ buf.length % 2 = 0)) :
    splitFrames buf (b :: bytes) = splitFrames (buf ++ [b]) bytes :=
  if_neg h

/-- Bytes that leave the even offsets free of the sentinel are all accumulated. -/
theorem splitFrames_append {buf : List Byte} (xs bytes : List Byte) (h : noSentinelAtEven (buf ++ xs) = true) :
    splitFrames buf (xs ++ bytes) = splitFrames (buf ++ xs) bytes := by
  induction xs using List.reverseRecOn generalizing bytes with
  | nil => rw [List.append_nil, List.nil_append]
  | append_singleton xs b ih =>
    rw [← List.append_assoc] at h
    obtain ⟨hclean, hb⟩ := (noSentinelAtEven_snoc _ b).1 h
    rw [List.append_assoc, ih _ hclean, List.singleton_append, splitFrames_byte bytes hb, List.append_assoc]

/-! ### Streams -/

/-- The bytes of a stream: each frame with its END, then the tail (R55). -/
def joinFrames (frames : List (List Byte)) (tail : List Byte) : List Byte :=
  frames.flatMap (fun f => f ++ [Config.sentinel]) ++ tail

/-- A frame as the grammar has it: even length, no sentinel at an even offset (R55). -/
def CleanFrame (f : List Byte) : Prop := f.length % 2 = 0 ∧ noSentinelAtEven f = true

theorem joinFrames_nil (tail : List Byte) : joinFrames [] tail = tail := rfl

theorem joinFrames_cons (f : List Byte) (frames : List (List Byte)) (tail : List Byte) :
    joinFrames (f :: frames) tail = f ++ Config.sentinel :: joinFrames frames tail := by
  simp only [joinFrames, List.flatMap_cons, List.append_assoc, List.cons_append, List.nil_append]

/-- Framing loses no byte, whatever is in the buffer. -/
theorem joinFrames_splitFrames (buf bytes : List Byte) :
    joinFrames (splitFrames buf bytes).1 (splitFrames buf bytes).2 = buf ++ bytes := by
  induction bytes generalizing buf with
  | nil => rw [splitFrames_nil, joinFrames_nil, List.append_nil]
  | cons b bytes ih =>
    by_cases hb : b = Config.sentinel ∧ buf.length % 2 = 0
    · obtain ⟨rfl, heven⟩ := hb
      rw [splitFrames_end bytes heven, joinFrames_cons, ih, List.nil_append]
    · rw [splitFrames_byte bytes hb, ih, List.append_assoc, List.singleton_append]

/-- From a clean buffer the framing function ends clean frames only and leaves a clean tail (R92). -/
theorem splitFrames_clean {buf : List Byte} (bytes : List Byte) (h : noSentinelAtEven buf = true) :
    (∀ f ∈ (splitFrames buf bytes).1, CleanFrame f) ∧ noSentinelAtEven (splitFrames buf bytes).2 = true := by
  induction bytes generalizing buf with
  | nil => exact ⟨List.forall_mem_nil _, h⟩
  | cons b bytes ih =>
    by_cases hb : b = Config.sentinel ∧ buf.length % 2 = 0
    · obtain ⟨rfl, heven⟩ := hb
      obtain ⟨hframes, htail⟩ := ih (buf := []) rfl
      rw [splitFrames_end bytes heven]
      exact ⟨List.forall_mem_cons.2 ⟨⟨heven, h⟩, hframes⟩, htail⟩
    · rw [splitFrames_byte bytes hb]
      exact ih ((noSentinelAtEven_snoc buf b).2 ⟨h, hb⟩)

/-- The framing function finds every parse into clean frames and a clean tail. -/
theorem splitFrames_joinFrames {frames : List (List Byte)} {tail : List Byte} (hframes : ∀ f ∈ frames, CleanFrame f)
    (htail : noSentinelAtEven tail = true) : splitFrames [] (joinFrames frames tail) = (frames, tail) := by
  induction frames with
  | nil =>
    have htaken := splitFrames_append (buf := []) tail [] htail
    rwa [List.append_nil] at htaken
  | cons f frames ih =>
    obtain ⟨⟨heven, hclean⟩, hrest⟩ := List.forall_mem_cons.1 hframes
    rw [joinFrames_cons, splitFrames_append (buf := []) f _ hclean, List.nil_append, splitFrames_end _ heven, ih hrest]

end Sys2Proof

namespace Sys2Proof.Proofs

open Sys2Proof.Safety

/-- Settles O6: what the framing function finds is a clean parse of all the bytes, and any clean parse is what it finds. -/
theorem everyStreamParsesInOneWay : Obligations.EveryStreamParsesInOneWay := by
  intro bytes frames tail
  constructor
  · intro h
    have hjoin := joinFrames_splitFrames [] bytes
    have hclean := splitFrames_clean (buf := []) bytes rfl
    rw [h] at hjoin hclean
    exact ⟨hjoin.symm, hclean⟩
  · rintro ⟨rfl, hframes, htail⟩
    exact splitFrames_joinFrames hframes htail

end Sys2Proof.Proofs
end

