-- ==== Sys2Proof/Proofs/Backends.lean ====
section
/-! SUPPORT. The two backends side by side (40_pin_interface.md R66, O59): every operation upstream of the Pin Interface
commutes with taking the pins away, a register write that nothing hinders does too, and so does the step. -/

namespace Sys2Proof.Machine

open Sys2Proof.Safety

/-! ### A flow seen through a view -/

/-- A flow with its state seen through a view: complete stays complete, abandoned stays abandoned. -/
def Flow.seen (view : State → State) : Flow → Flow
  | .go s => .go (view s)
  | .abandoned s => .abandoned (view s)

@[simp] theorem seen_go (view : State → State) (s : State) : (Flow.go s).seen view = .go (view s) := rfl

@[simp] theorem seen_abandoned (view : State → State) (s : State) :
    (Flow.abandoned s).seen view = .abandoned (view s) := rfl

@[simp] theorem seen_state (view : State → State) (f : Flow) : (f.seen view).state = view f.state := by
  cases f <;> rfl

/-! ### Upstream of the Pin Interface -/

/-- An operation upstream of the Pin Interface: it does to the block without its pins what it does to the block (R66). -/
def Upstream (op : State → Flow) : Prop := ∀ s, op (asNoop s) = (op s).seen asNoop

theorem Upstream.outcome {op : State → Flow} (h : Upstream op) (s : State) :
    (op (asNoop s)).outcome = viewed asNoop (op s).outcome := by
  rw [h s, flow_outcome, flow_outcome, seen_state]
  rfl

/-- What follows upstream may follow after the pins were taken away as well. -/
theorem Upstream.andThen_seen {next : State → Flow} (h : Upstream next) (f : Flow) :
    (f.seen asNoop).andThen next = (f.andThen next).seen asNoop := by
  cases f with
  | go t => exact h t
  | abandoned t => rfl

theorem Upstream.andThen {op next : State → Flow} (h : Upstream op) (k : Upstream next) :
    Upstream (fun s => (op s).andThen next) := by
  intro s
  show (op (asNoop s)).andThen next = _
  rw [h s, k.andThen_seen]

theorem upstream_raise (r : Raised) : Upstream (raise r) := by
  intro s
  rw [raise_eq, raise_eq, show (asNoop s).params = s.params from rfl]
  split <;> rfl

theorem upstream_nextItem : Upstream nextItem := fun _ => rfl

theorem upstream_illegalPair (a d : Byte) : Upstream (illegalPair a d) :=
  fun s => (upstream_raise (.addressOutOfRange a d (pairIndex s))).andThen upstream_nextItem s

theorem upstream_danglingByte (b : Byte) : Upstream (danglingByte b) :=
  (upstream_raise (.danglingByte b)).andThen upstream_nextItem

theorem upstream_acceptByte (b : Byte) : Upstream (acceptByte b) := by
  intro s
  have hfull : bufFull (takeByte (asNoop s)) = bufFull (takeByte s) := rfl
  rw [acceptByte, acceptByte, appendByte, appendByte, hfull]
  split
  · exact upstream_raise .bufferOverflow (takeByte s)
  · rfl

theorem upstream_ioError : Upstream ioError := fun s => upstream_raise .streamIoError { takeEvent s with buf := [] }

theorem upstream_demoEnd (repeats : Bool) : Upstream (demoEnd repeats) := by
  intro s
  cases repeats <;> rfl

theorem upstream_checkWholeFrame : Upstream checkWholeFrame := by
  intro s
  rw [checkWholeFrame, checkWholeFrame, show (asNoop s).params = s.params from rfl,
    show (asNoop s).frame = s.frame from rfl]
  split
  · split
    · exact upstream_raise _ s
    · rfl
  · rfl

theorem dumpFrame_asNoop (s : State) : dumpFrame (asNoop s) = asNoop (dumpFrame s) := by
  rw [dumpFrame_eq, dumpFrame_eq]
  rfl

theorem upstream_drainHead : Upstream drainHead := by
  have walk : Upstream (fun t => .go { t with idx := 0, micro := .walk }) := fun _ => rfl
  intro s
  rw [drainHead, drainHead, dumpFrame_asNoop]
  exact upstream_checkWholeFrame.andThen walk (dumpFrame s)

theorem reportProgress_asNoop (s : State) : reportProgress (asNoop s) = asNoop (reportProgress s) := by
  rw [reportProgress, reportProgress, show (asNoop s).params = s.params from rfl]
  split
  · rw [show (asNoop s).nframes = s.nframes from rfl]
    split <;> rfl
  · rfl

theorem drainEnd_asNoop (s : State) : drainEnd (asNoop s) = asNoop (drainEnd s) := by
  rw [drainEnd, reportProgress_asNoop]
  rfl

/-! ### Where the pins can hinder nothing -/

/-- Under LIVE, initialised and all pins outputs, with no pin write that fails and no cut (R69, R118, R142). -/
structure Unhindered (s : State) : Prop where
  live : s.backend = .live
  initialized : s.initialized = true
  outputs : s.board.pinMode = .all .output
  pinFail : s.params.pinFail = []
  cutAt : s.params.cutAt = none

theorem Unhindered.undisturbed {s : State} (h : Unhindered s) (es : List PinEvent) : Undisturbed es s := by
  refine ⟨fun k _ => ?_, fun k _ => ?_⟩
  · rw [h.pinFail]
    exact List.not_mem_nil
  · rw [h.cutAt]
    exact nofun

/-- The 37 events of a register write without the pins are its one Hold, which is all that NOOP does (R66). -/
theorem writeRegister_asNoop (a d : Byte) {s : State} (h : Unhindered s) :
    writeRegister a d (asNoop s) = (writeRegister a d s).seen asNoop := by
  have uncut : NoCut 1 (asNoop s) := fun _ _ hc => nomatch h.cutAt.symm.trans hc
  rw [writeRegister_noop a d (asNoop s) rfl h.initialized uncut,
    writeRegister_live_go a d h.live h.initialized h.outputs (h.undisturbed _), seen_go]
  simp [asNoop, drivenLive, holds_register]

/-- A register write and what follows it upstream. -/
theorem writeRegister_andThen_asNoop (a d : Byte) {next : State → Flow} (hn : Upstream next) {s : State}
    (h : Unhindered s) :
    ((writeRegister a d (asNoop s)).andThen next).outcome =
      viewed asNoop ((writeRegister a d s).andThen next).outcome := by
  rw [writeRegister_asNoop a d h, hn.andThen_seen, flow_outcome, flow_outcome, seen_state]
  rfl

/-! ### The step -/

theorem exec_asNoop (i : Instr) {s : State} (h : Unhindered s) : exec i (asNoop s) = viewed asNoop (exec i s) := by
  cases i with
  | endFrame => rfl
  | wr addr data => exact writeRegister_andThen_asNoop (addressOperand addr) data upstream_nextItem h
  | wrIllegal32To63 a d | wrIllegal64To127 a d | wrIllegal128To254 a d => exact (upstream_illegalPair a d).outcome s

theorem demoStep_asNoop (k : Nat) {s : State} (h : Unhindered s) :
    demoStep k (asNoop s) = viewed asNoop (demoStep k s) := by
  have next : Upstream (fun t => .go { t with micro := .demo (k + 1) }) := fun _ => rfl
  rw [demoStep, demoStep, show (asNoop s).params = s.params from rfl]
  split
  · split
    · split
      · exact writeRegister_andThen_asNoop _ _ next h
      · rfl
    · exact (upstream_demoEnd _).outcome s
  · rfl

/-- Of the passes only STARTUP, which chooses the backend, sees which one it is. -/
theorem runPass_asNoop {p : Pass} (hp : p ≠ .startup) {s : State} (h : Unhindered s) :
    runPass p (asNoop s) = viewed asNoop (runPass p s) := by
  cases p with
  | startup => exact absurd rfl hp
  | demo k => exact demoStep_asNoop k h
  | accept b => exact (upstream_acceptByte b).outcome s
  | ioError => exact upstream_ioError.outcome s
  | drainHead => exact upstream_drainHead.outcome s
  | dangling b => exact (upstream_danglingByte b).outcome s
  | drainEnd => exact congrArg Host.Outcome.next (drainEnd_asNoop s)
  | _ => rfl

/-- What comes next is read from registers that the view keeps (R104). -/
theorem fetch_asNoop (s : State) : fetch (asNoop s) = fetch s := rfl

theorem fetchEvent_ne_startup (s : State) : fetchEvent s ≠ .pass .startup := by
  unfold fetchEvent
  split
  · nofun
  · split <;> nofun
  · nofun
  · nofun

theorem fetchItem_ne_startup (s : State) : fetchItem s ≠ .pass .startup := by
  unfold fetchItem
  split <;> nofun

/-- A block that is past STARTUP does not run it again (R103). -/
theorem fetch_ne_startup {s : State} (h : running s = true) : fetch s ≠ .pass .startup := by
  unfold fetch
  split
  · nofun
  · unfold fetchAction
    cases hc : s.ctrl with
    | off =>
      cases hm : s.micro with
      | demo k => nofun
      | entry | walk => simp [running, hc, hm] at h
    | accum => exact fetchEvent_ne_startup s
    | emit =>
      cases hm : s.micro with
      | walk => exact fetchItem_ne_startup s
      | entry | demo k => nofun
    | done | halt => nofun

theorem step_asNoop {s : State} (hrun : running s = true) (h : Unhindered s) :
    step (asNoop s) = viewed asNoop (step s) := by
  have hne := fetch_ne_startup hrun
  rw [step, step, fetch_asNoop]
  cases hf : fetch s with
  | token i => exact exec_asNoop i h
  | pass p => exact runPass_asNoop (fun hp => hne (by rw [hf, hp])) h

end Sys2Proof.Machine

namespace Sys2Proof.Proofs

open Sys2Proof.Machine

/-- Settles O59: the block fetches the same under both backends, and every action of a running block but a register write is
upstream of the Pin Interface; a register write that nothing hinders leaves its Hold in the view. -/
theorem noopBehavesAsLiveUpstream : Obligations.NoopBehavesAsLiveUpstream :=
  fun _ live hrun initialized outputs pinFail cutAt =>
    step_asNoop hrun { live, initialized, outputs, pinFail, cutAt }

end Sys2Proof.Proofs
end

