-- ==== Sys2Proof/Proofs/PinInterface.lean ====
section
/-! SUPPORT. The three primitives under each backend (40_pin_interface.md R63 to R66: O9, O10, O11), WR under NOOP (O28), and
where STARTUP stops (R69, R142: O23). -/

namespace Sys2Proof.Machine

open Sys2Proof.Safety

/-! ### The primitives, one equation for each way to end -/

theorem setMode_live {s : State} (p : Pin) (hb : s.backend = .live) : setMode p s = .go (emit (.mode p) s) := by
  simp only [setMode, hb]

theorem setMode_noop {s : State} (p : Pin) (hb : s.backend = .noop) : setMode p s = .go s := by
  simp only [setMode, hb]

theorem hold_live {s : State} (t : Duration) (hb : s.backend = .live) : hold t s = .go (emit (.hold t) s) := by
  simp only [hold, hb]

theorem hold_noop {s : State} (t : Duration) (hb : s.backend = .noop) :
    hold t s = .go { s with trace := s.trace ++ [.hold t] } := by
  simp only [hold, hb]

theorem pinWrite_noop {s : State} (p : Pin) (l : Level) (hb : s.backend = .noop) : pinWrite p l s = .go s := by
  simp only [pinWrite, hb]

theorem pinWrite_drives {s : State} {p : Pin} (l : Level) (hb : s.backend = .live)
    (hm : s.board.pinMode.get p = .output) (hf : s.pinWrites + 1 ∉ s.params.pinFail) :
    pinWrite p l s = .go (emit (.write p l) { s with pinWrites := s.pinWrites + 1 }) := by
  simp only [pinWrite, hb, if_pos hm, if_neg hf]

/-- A failing write is fatal under every address policy (R69, R112). -/
theorem pinWrite_fails {s : State} {p : Pin} (l : Level) (hb : s.backend = .live)
    (hm : s.board.pinMode.get p = .output) (hf : s.pinWrites + 1 ∈ s.params.pinFail) :
    pinWrite p l s = .abandoned (halted (.pinWriteFailure p l) { s with pinWrites := s.pinWrites + 1 }) := by
  simp only [pinWrite, hb, if_pos hm, if_pos hf]
  exact raise_fatal rfl

theorem pinWrite_unconfigured {s : State} {p : Pin} (l : Level) (hb : s.backend = .live)
    (hm : s.board.pinMode.get p ≠ .output) : pinWrite p l s = .abandoned (halted .notInitialized s) := by
  simp only [pinWrite, hb, if_neg hm]
  exact raise_fatal rfl

/-! ### WR under NOOP -/

/-- WR is the register write of its address operand and then the next item (R94). -/
theorem exec_wr (addr : Address) (data : Data) (s : State) :
    exec (.wr addr data) s = .next ((writeRegister (addressOperand addr) data s).andThen nextItem).state := rfl

/-! ### STARTUP -/

/-- The step of a block that has not started is STARTUP (R103). -/
theorem step_notStarted {s : State} (h : notStarted s = true) : step s = startup s := by
  have hc := notStarted_off h
  cases hm : s.micro with
  | demo k => simp [notStarted, hc, hm] at h
  | entry | walk =>
    have hcut : s.cut = false := by simpa [notStarted, hc, hm] using h
    rw [step_of_uncut hcut, fetchAction, hc, hm]
    rfl

/-- A STARTUP that is not refused and whose INITIALIZE stops, stops there: the loop is not entered. -/
theorem step_startup_stops {s t : State} {b : Backend} (h : notStarted s = true) (hd : DemoReady s)
    (hs : selectBackend s = .go { s with backend := b })
    (hi : initializeBlock { s with backend := b } = .abandoned t) : step s = .next t := by
  rw [step_notStarted h, startup_ready hd, startupFlow, hs, andThen_go, hi, andThen_abandoned, flow_state_abandoned]

theorem selectBackend_noop {s : State} (hd : s.params.disableHw = true) :
    selectBackend s = .go { s with backend := .noop } := by
  rw [selectBackend, if_pos hd]

theorem selectBackend_live {s : State} (hd : s.params.disableHw = false) (hh : s.params.hwAvailable = true) :
    selectBackend s = .go { s with backend := .live } := by
  rw [selectBackend, hd, if_neg Bool.false_ne_true, if_pos hh]

/-- STARTUP under LIVE stops at the first of the 15 events that does (R69, R142). -/
theorem step_startup_stops_live {s : State} {before after : List PinEvent} {e : PinEvent} {why : Option Raised}
    (h : notStarted s = true) (hd : DemoReady s) (hdis : s.params.disableHw = false) (hhw : s.params.hwAvailable = true)
    (hl : initializeEvents = before ++ e :: after) (hu : Undisturbed before s)
    (hstop : StopsLive e why (drivenLive before s)) :
    step s = .next (stopNow why (drivenLive before { s with backend := .live })) :=
  step_startup_stops h hd (selectBackend_live hdis hhw)
    (initializeBlock_live_stop (s := { s with backend := .live }) rfl ⟨e, after, hl, hu, hstop⟩)

end Sys2Proof.Machine

namespace Sys2Proof.Proofs

open Sys2Proof.Machine Sys2Proof.Safety

/-- Settles O9, from the two branches of SET_MODE. -/
theorem setModeConfiguresOnlyUnderLive : Obligations.SetModeConfiguresOnlyUnderLive :=
  fun p _ => ⟨setMode_live p, setMode_noop p⟩

/-- Settles O10: one clause for each way a PIN_WRITE can end once a backend is chosen. -/
theorem pinWriteDrivesFailsOrHalts : Obligations.PinWriteDrivesFailsOrHalts :=
  fun p l _ => ⟨pinWrite_drives l, pinWrite_fails l, pinWrite_unconfigured l, pinWrite_noop p l⟩

/-- Settles O11: both branches of HOLD record it, and the devices only note that it lay in a pulse. -/
theorem holdIsRecordedUnderBothBackends : Obligations.HoldIsRecordedUnderBothBackends :=
  fun t _ => ⟨hold_live t, hold_noop t, rfl, rfl, rfl⟩

/-- Settles O28: under NOOP the one event of a register write is the Hold of its select pulse, and a run can be cut only
there. -/
theorem wrUnderNoopOnlyHolds : Obligations.WrUnderNoopOnlyHolds := by
  intro addr data s hb hi
  refine ⟨fun hc => ?_, fun hc => ?_⟩
  · rw [exec_wr, writeRegister_noop _ data s hb hi hc]
    rfl
  · rw [exec_wr, writeRegister_noop_cut _ data s hb hi hc]
    rfl

/-- Settles O23: INITIALIZE stops at the event where a write fails or the run is cut, and STARTUP with it. -/
theorem startupStopsWhereAWriteFailsOrTheRunIsCut : Obligations.StartupStopsWhereAWriteFailsOrTheRunIsCut := by
  intro s hns hd
  refine ⟨fun before after e hdis hhw hl hf hc => ?_, fun hdis hcut => ?_⟩
  · have hlen : (drivenLive before s).trace.length = s.trace.length + before.length := List.length_append
    refine ⟨fun p l he hnc hfail => ?_, fun hcut => ?_⟩
    · exact step_startup_stops_live hns hd hdis hhw hl ⟨hf, hc⟩
        (.inr ⟨p, l, he, rfl, by rw [hlen]; exact hnc, hfail⟩)
    · exact step_startup_stops_live hns hd hdis hhw hl ⟨hf, hc⟩ (.inl ⟨rfl, by rw [hlen]; exact hcut⟩)
  · exact step_startup_stops hns hd (selectBackend_noop hdis)
      (initializeBlock_noop_cut (s := { s with backend := .noop }) rfl hcut)

end Sys2Proof.Proofs
end

