-- ==== Sys2Proof/Proofs/RegisterWrite.lean ====
section
/-! SUPPORT. WRITE_REGISTER and WR (41_bus_driver.md): the level of a bit (O8), the complete register write under LIVE (O27,
O33), where WR stops (O30), and what WR leaves alone in every state (O34). -/

namespace Sys2Proof.Machine

open Sys2Proof.Safety

/-! ### Bits -/

/-- Bit `i` of a byte is its quotient by `2 ^ i`, modulo 2 (R70). -/
theorem bit_toNat (v : Byte) (i : Fin 8) : (bit v i).toNat = v.toNat / 2 ^ i.val % 2 :=
  Nat.toNat_testBit v.toNat i.val

/-! ### The complete register write -/

/-- The premises on the host for a whole register write, as the premises on the run of `registerWriteEvents` (R69, R142). -/
theorem undisturbed_register {s : State} (a d : Byte) (hf : NoPinFailure 36 s) (hc : NoCut 37 s) :
    Undisturbed (registerWriteEvents a d) s := by
  rw [Undisturbed, countWrites_register, length_register]
  exact ⟨hf, hc⟩

theorem afterWrite_ready {s : State} (a d : Byte) (h : ReadyLive s) : ReadyLive (afterWrite a d s) := by
  obtain ⟨hlive, hinit, hidle⟩ := h
  exact ⟨hlive, hinit, boardAfterWrite_idle a d hidle⟩

/-- The 37 events of one register write, counted pin by pin (R76, S1). -/
theorem countsOfOneWrite_register (a d : Byte) : CountsOfOneWrite a d (registerWriteEvents a d) :=
  ⟨length_register a d, countWrites_register a d, holds_register a d, rfl, rfl, rfl, rfl, rfl, rfl, rfl, rfl⟩

/-! ### Where WR stops -/

/-- WR under LIVE stops where its register write does, before the next item (R79, R142). -/
theorem exec_wr_stops {addr : Address} {data : Data} {s : State} {before after : List PinEvent} {e : PinEvent}
    {why : Option Raised} (hb : s.backend = .live) (hi : s.initialized = true) (hm : s.board.pinMode = .all .output)
    (hl : registerWriteEvents (addressOperand addr) data = before ++ e :: after) (hu : Undisturbed before s)
    (hstop : StopsLive e why (drivenLive before s)) :
    exec (.wr addr data) s =
      .next (stopNow why (drivenLive before { s with
        a := addressOperand addr, d := data, i := Fin.ofNat 8 (7 - before.length / 4) })) := by
  rw [exec_wr, writeRegister_live_stop _ data hb hi hm ⟨e, after, hl, hu, hstop⟩, andThen_abandoned,
    flow_state_abandoned]

/-! ### What WR leaves alone -/

/-- What only RES_N and SH_MR_N reach on the board: their own levels and the chip's reset (R40, R85). -/
structure ResetPinsKept (b c : Board) : Prop where
  resN : c.pinLevel.resN = b.pinLevel.resN
  shMrN : c.pinLevel.shMrN = b.pinLevel.shMrN
  chipInReset : c.chipInReset = b.chipInReset

theorem needClock_chipInReset (b : Board) : b.needClock.chipInReset = b.chipInReset := by
  rcases needClock_cases b with e | e <;> simp [e]

theorem doubtCell_chipInReset (b : Board) : b.doubtCell.chipInReset = b.chipInReset := by
  rcases doubtCell_chip b with e | e | ⟨k, e⟩ <;> simp [e]

theorem takeWrite_chipInReset (b : Board) : b.takeWrite.chipInReset = b.chipInReset := by
  rcases takeWrite_cases b with e | ⟨k, -, e⟩ | ⟨k, v, -, -, e⟩ <;> simp [e]

theorem closeSelect_chipInReset (b : Board) : b.closeSelect.chipInReset = b.chipInReset := by
  rcases closeSelect_cases b with e | e | e <;> simp [e, takeWrite_chipInReset]

/-- Only a write of RES_N puts the chip into reset or takes it out (R40). -/
theorem reactWrite_chipInReset {p : Pin} (b : Board) (l : Level) (hp : p ≠ .resN) :
    (b.reactWrite p l).chipInReset = b.chipInReset := by
  cases p with
  | addrSer | dataSer => rfl
  | shClk =>
    simp only [Board.reactWrite, Board.writeShClk]
    split <;> (try split) <;> rfl
  | shLatch =>
    simp only [Board.reactWrite, Board.writeShLatch]
    split <;> rfl
  | shMrN => cases l <;> rfl
  | csN =>
    simp only [Board.reactWrite, Board.writeCsN]
    split
    · rfl
    · rw [needClock_chipInReset, doubtCell_chipInReset]
    · rw [needClock_chipInReset, closeSelect_chipInReset]
    · split <;> rfl
    · rfl
  | resN => exact absurd rfl hp

/-- No event of a register write reaches the reset pins (R85). -/
theorem react_steady_resetPins {e : PinEvent} (b : Board) (h : steadyEvent e = true) : ResetPinsKept b (b.react e) := by
  cases e with
  | mode p => cases h
  | hold t => exact ⟨rfl, rfl, rfl⟩
  | write p l =>
    have hchip : (b.react (.write p l)).chipInReset = b.chipInReset :=
      reactWrite_chipInReset b l (by rintro rfl; cases h)
    have hlevel := react_write_pinLevel b p l
    cases p with
    | shMrN | resN => cases h
    | _ => exact ⟨by rw [hlevel]; rfl, by rw [hlevel]; rfl, hchip⟩

theorem replay_steady_resetPins {es : List PinEvent} (b : Board) (h : ∀ e ∈ es, steadyEvent e = true) :
    ResetPinsKept b (b.replay es) := by
  induction es generalizing b with
  | nil => exact ⟨rfl, rfl, rfl⟩
  | cons e es ih =>
    obtain ⟨he, hes⟩ := List.forall_mem_cons.1 h
    obtain ⟨hres, hmr, hchip⟩ := react_steady_resetPins b he
    obtain ⟨hres', hmr', hchip'⟩ := ih (b.react e) hes
    exact ⟨hres'.trans hres, hmr'.trans hmr, hchip'.trans hchip⟩

/-- What steady driving does, complete or stopped: the setup and the reset pins stay, TRACE and DIAG grow. -/
structure SteadilyDriven (s t : State) : Prop where
  setup : SetupKept s t
  resetPins : ResetPinsKept s.board t.board
  trace : ∃ events, t.trace = s.trace ++ events
  diag : ∃ reports, t.diag = s.diag ++ reports

theorem steadilyDriven_drivenBy {es : List PinEvent} (n : Nat) (s : State) (h : ∀ e ∈ es, steadyEvent e = true) :
    SteadilyDriven s (drivenBy es n s) := by
  refine ⟨drivenBy_setupKept n s h, ?_, ⟨recorded s es, rfl⟩, [], (List.append_nil _).symm⟩
  by_cases hb : s.backend = .live
  · rw [drivenBy_live hb]
    exact replay_steady_resetPins s.board h
  · rw [drivenBy_other hb]
    exact ⟨rfl, rfl, rfl⟩

/-- Neither a fatal fault nor the host's cut drives anything; a fault is reported (R121, R142). -/
theorem SteadilyDriven.stopped {s t : State} (h : SteadilyDriven s t) (why : Option Raised) :
    SteadilyDriven s (stopped why t) := by
  obtain ⟨hsetup, hpins, htrace, reports, hdiag⟩ := h
  have hkept := hsetup.trans (stopped_setupKept why t)
  cases why with
  | none => exact ⟨hkept, hpins, htrace, reports, hdiag⟩
  | some r =>
    refine ⟨hkept, hpins, htrace, reports ++ [.fault r], ?_⟩
    show t.diag ++ [.fault r] = _
    rw [hdiag, List.append_assoc]

/-- A and D take the operands and I counts the slots; none of it is driven (R18). -/
theorem SteadilyDriven.from_operands {s t : State} {a d : Byte} {i : Fin 8}
    (h : SteadilyDriven (withOperands a d i s) t) : SteadilyDriven s t := by
  obtain ⟨⟨⟨hparams, hclk⟩, hbackend, hinit, hmode⟩, ⟨hres, hmr, hreset⟩, htrace, hdiag⟩ := h
  exact ⟨⟨⟨hparams, hclk⟩, hbackend, hinit, hmode⟩, ⟨hres, hmr, hreset⟩, htrace, hdiag⟩

/-- A register write in any state, complete or stopped at any of its events (R75, R79). -/
theorem writeRegister_steadilyDriven (a d : Byte) (s : State) : SteadilyDriven s (writeRegister a d s).state := by
  have steady := registerWriteEvents_steady a d
  rcases writeRegister_any a d s with ⟨-, h⟩ | ⟨-, n, i, h⟩ | ⟨-, pre, ev, post, why, n, i, hl, -, h⟩ <;> rw [h]
  · have nothing : SteadilyDriven s s :=
      ⟨⟨⟨rfl, rfl⟩, rfl, rfl, rfl⟩, ⟨rfl, rfl, rfl⟩, ⟨[], (List.append_nil _).symm⟩, [], (List.append_nil _).symm⟩
    exact nothing.stopped (some .notInitialized)
  · exact (steadilyDriven_drivenBy n _ steady).from_operands
  · have preSteady : ∀ e ∈ pre, steadyEvent e = true := fun e he => steady e (hl ▸ List.mem_append_left _ he)
    exact ((steadilyDriven_drivenBy n _ preSteady).stopped why).from_operands

/-- `IDX <- IDX + 2` is all that a WR adds to its register write (R105). -/
theorem andThen_nextItem_state (f : Flow) : ∃ idx, (f.andThen nextItem).state = { f.state with idx := idx } := by
  cases f with
  | go t => exact ⟨t.idx + 2, rfl⟩
  | abandoned t => exact ⟨t.idx, rfl⟩

end Sys2Proof.Machine

namespace Sys2Proof.Proofs

open Sys2Proof.Machine Sys2Proof.Safety

/-- Settles O8: the bit as a number, and the two values of LEVEL. -/
theorem levelIsTheExtractedBit : Obligations.LevelIsTheExtractedBit := by
  intro v i
  have hbit := bit_toNat v i
  rw [Nat.and_one_is_mod, Nat.shiftRight_eq_div_pow, ← hbit]
  cases bit v i <;> exact ⟨rfl, rfl⟩

/-- Settles O27: the complete register write from idle pins; the chip's address bus carries the low five bits. -/
theorem busDriverWritesTheLowFiveBits : Obligations.BusDriverWritesTheLowFiveBits := by
  intro a d s hready hfail hcut
  refine ⟨_, writeRegister_ready a d hready (undisturbed_register a d hfail hcut), rfl, rfl, rfl, fun x => ?_,
    afterWrite_ready a d hready⟩
  exact memory_read_write s.board.chip (a.toNat % 32) d x

/-- Settles O30: WR stops with its register write, at the event where a pin write fails or the run is cut. -/
theorem wrStopsWhereAWriteFailsOrTheRunIsCut : Obligations.WrStopsWhereAWriteFailsOrTheRunIsCut := by
  intro addr data s before after e hb hi hm hl hf hc
  have hlen : (drivenLive before s).trace.length = s.trace.length + before.length := List.length_append
  refine ⟨fun p l he hnc hfail => ?_, fun hcut => ?_⟩
  · exact exec_wr_stops hb hi hm hl ⟨hf, hc⟩ (.inr ⟨p, l, he, rfl, by rw [hlen]; exact hnc, hfail⟩)
  · exact exec_wr_stops hb hi hm hl ⟨hf, hc⟩ (.inl ⟨rfl, by rw [hlen]; exact hcut⟩)

/-- Settles O33: both operations append `registerWriteEvents` of their operands, and those are counted. -/
theorem registerWriteHasEightClockPulses : Obligations.RegisterWriteHasEightClockPulses := by
  intro s hready hfail hcut
  have writes := fun a d => writeRegister_ready a d hready (undisturbed_register a d hfail hcut)
  refine ⟨fun a d => ⟨_, _, writes a d, rfl, countsOfOneWrite_register a d⟩, fun addr data => ?_⟩
  refine ⟨{ afterWrite (addressOperand addr) data s with idx := s.idx + 2 }, _, ?_, rfl,
    countsOfOneWrite_register (addressOperand addr) data⟩
  rw [exec_wr, writes]
  rfl

/-- Settles O34: a register write touches neither the reader nor the options, and drives none but steady events. -/
theorem wrLeavesTheReaderAndTheResetPins : Obligations.WrLeavesTheReaderAndTheResetPins := by
  intro addr data s t h
  obtain ⟨hparams, hbackend, hinit, hmicro, hbuf, hframe, -, hpos, hnframes, hinput⟩ :=
    onlyWritten_writeRegister (addressOperand addr) data s
  obtain ⟨⟨⟨-, hclk⟩, -, -, hmode⟩, ⟨hres, hmr, hreset⟩, htrace, hdiag⟩ :=
    writeRegister_steadilyDriven (addressOperand addr) data s
  obtain ⟨idx, hnext⟩ := andThen_nextItem_state (writeRegister (addressOperand addr) data s)
  rw [exec_wr, hnext] at h
  cases h
  exact ⟨hparams, hbackend, hinit, hbuf, hframe, hpos, hnframes, hinput, hmicro, hmode, hres, hmr, hreset, hclk, htrace,
    hdiag⟩

end Sys2Proof.Proofs
end

