-- ==== Sys2Proof/Proofs/IdlePins.lean ====
section
/-! SUPPORT. Between steps a running block is initialised and its pins are idle, and NotInitialized is never reported (R77,
R82, R118; O49). -/

namespace Sys2Proof.Machine

open Sys2Proof.Safety

/-! ### The invariant past STARTUP -/

/-- What the invariant asks of a running block: WR has its preconditions (R77, R82), or the pins are NOOP's. -/
abbrev ReadyForWrites (s : State) : Prop :=
  s.initialized = true ∧ ((s.backend = .live ∧ BoardIdle s.board) ∨ s.backend = .noop)

theorem pinsReady_of_readyForWrites {s : State} (h : ReadyForWrites s) : PinsReady s := by
  obtain ⟨-, ⟨hlive, hidle⟩ | hnoop⟩ := h
  · exact .inr ⟨hlive, hidle.1⟩
  · exact .inl hnoop

theorem notStarted_of_ctrl {s : State} (h : s.ctrl ≠ .off) : notStarted s = false := by
  cases hn : notStarted s
  · rfl
  · exact absurd (notStarted_off hn) h

theorem notStarted_of_cut {s : State} (h : s.cut = true) : notStarted s = false := by
  unfold notStarted
  split
  · rfl
  · rw [h]
    rfl
  · rfl

theorem notStarted_of_demo {s : State} {k : Nat} (hm : s.micro = .demo k) : notStarted s = false := by
  cases hc : s.ctrl <;> simp [notStarted, hc, hm]

theorem running_of_cut {s : State} (h : s.cut = true) : running s = false := by
  unfold running
  split <;> simp [h]

/-- In the loop a run that is not cut is running. -/
theorem running_in_loop {s : State} (hcut : s.cut = false) (hc : s.ctrl = .accum ∨ s.ctrl = .emit) :
    running s = true := by
  rcases hc with hc | hc <;> simp [running, hc, hcut]

theorem running_in_demo {s : State} {k : Nat} (hcut : s.cut = false) (hc : s.ctrl = .off) (hm : s.micro = .demo k) :
    running s = true := by
  simp [running, hc, hm, hcut]

theorem running_of_writeDue {s : State} (hcut : s.cut = false) (h : WriteDue s) : running s = true := by
  rcases h with ⟨hc, -⟩ | ⟨hc, k, hm⟩
  · exact running_in_loop hcut (.inr hc)
  · exact running_in_demo hcut hc hm

theorem notStarted_of_running {s : State} (h : running s = true) : notStarted s = false := by
  cases hc : s.ctrl with
  | off =>
    cases hm : s.micro with
    | demo k => exact notStarted_of_demo hm
    | entry | walk => simp [running, hc, hm] at h
  | accum | emit | done | halt => exact notStarted_of_ctrl (by rw [hc]; decide)

/-- A running block meets the invariant if it is ready for writes. -/
theorem idle_running {t : State} (hrun : running t = true) (hready : ReadyForWrites t)
    (hdiag : DiagEvent.fault .notInitialized ∉ t.diag) : IdleBetweenSteps t :=
  ⟨fun hn => absurd hn (ne_true_of_eq_false (notStarted_of_running hrun)), fun _ => hready, hdiag⟩

/-- A block that is past STARTUP and does not run meets the invariant whatever its pins hold. -/
theorem idle_ended {t : State} (hstarted : notStarted t = false) (hended : running t = false)
    (hdiag : DiagEvent.fault .notInitialized ∉ t.diag) : IdleBetweenSteps t :=
  ⟨fun hn => absurd hn (ne_true_of_eq_false hstarted), fun hr => absurd hr (ne_true_of_eq_false hended), hdiag⟩

/-- Reporting anything but NotInitialized keeps it out of DIAG. -/
theorem notInitialized_unreported {diag reports : List DiagEvent} (h : DiagEvent.fault .notInitialized ∉ diag)
    (hr : ∀ e ∈ reports, e ≠ .fault .notInitialized) : DiagEvent.fault .notInitialized ∉ diag ++ reports := by
  rw [List.mem_append]
  rintro (hmem | hmem)
  · exact h hmem
  · exact hr _ hmem rfl

/-- HALT by any fault but NotInitialized (R121). -/
theorem idle_halted {r : Raised} {s : State} (hr : r ≠ .notInitialized)
    (hdiag : DiagEvent.fault .notInitialized ∉ s.diag) : IdleBetweenSteps (halted r s) :=
  idle_ended rfl rfl (notInitialized_unreported hdiag (by simpa using hr))

/-- A stop at a primitive whose pins were ready is no NotInitialized (R69, R142). -/
theorem idle_stopped {why : Option Raised} {s : State} (hr : why ≠ some .notInitialized)
    (hdiag : DiagEvent.fault .notInitialized ∉ s.diag) : IdleBetweenSteps (stopped why s) := by
  cases why with
  | none => exact idle_ended (notStarted_of_cut rfl) (running_of_cut rfl) hdiag
  | some r => exact idle_halted (fun h => hr (congrArg some h)) hdiag

theorem stopsWith_ready {s : State} {ev : PinEvent} {why : Option Raised} (h : StopsWith s ev why) (hs : PinsReady s) :
    why ≠ some .notInitialized := by
  rintro rfl
  rcases h with h | ⟨p, l, r, -, h, rfl | ⟨-, hnot⟩⟩
  · cases h
  · cases h
  · exact hnot hs

/-! ### What STARTUP and a register write leave -/

/-- INITIALIZE from power-on leaves the block ready (R84). -/
theorem initialize_ready {s : State} {b : Backend} (n : Nat) (c : Ctrl) (m : Micro) (hboard : s.board = .powerOn)
    (hb : b = .live ∨ b = .noop) :
    ReadyForWrites { drivenBy initializeEvents n { s with backend := b } with
      initialized := true, ctrl := c, micro := m } := by
  refine ⟨rfl, ?_⟩
  rcases hb with rfl | rfl
  · left
    have hreplay : Board.powerOn.replay initializeEvents = boardAfterInitialize := rfl
    rw [drivenBy_live rfl, hboard, hreplay]
    exact ⟨rfl, rfl, rfl, rfl, rfl, rfl, rfl, rfl, rfl, rfl, rfl⟩
  · exact .inr rfl

/-- A complete register write leaves the block ready again (R77). -/
theorem write_ready {s : State} (a d : Byte) (n : Nat) (i : Fin 8) (m : Micro) (idx : Nat) (h : ReadyForWrites s) :
    ReadyForWrites { drivenBy (registerWriteEvents a d) n (withOperands a d i s) with micro := m, idx := idx } := by
  obtain ⟨hinit, ⟨hlive, hidle⟩ | hnoop⟩ := h
  · refine ⟨hinit, .inl ⟨hlive, ?_⟩⟩
    have hreplay := replay_registerWrite s.board a d hidle
    rw [drivenBy_live (by exact hlive)]
    show BoardIdle (s.board.replay (registerWriteEvents a d))
    rw [hreplay]
    exact boardAfterWrite_idle a d hidle
  · exact ⟨hinit, .inr hnoop⟩

/-! ### Every step -/

theorem stepEffect_idle {s t : State} (hcut : s.cut = false) (hs : IdleBetweenSteps s) (h : StepEffect s t) :
    IdleBetweenSteps t := by
  obtain ⟨hfresh, hready, hdiag⟩ := hs
  have readyInLoop : s.ctrl = .accum ∨ s.ctrl = .emit → ReadyForWrites s := fun hc => hready (running_in_loop hcut hc)
  have readyForDue : WriteDue s → ReadyForWrites s := fun hr => hready (running_of_writeDue hcut hr)
  cases h with
  | wait _ _ e => exact e ▸ ⟨hfresh, hready, hdiag⟩
  | startup b n c m hn hb hm e =>
    obtain ⟨hboard, -, -, -, -⟩ := hfresh hn
    subst e
    refine idle_running ?_ (initialize_ready n c m hboard (hb.imp And.left And.left)) hdiag
    rcases hm with ⟨rfl, rfl⟩ | ⟨rfl, rfl⟩
    · exact running_in_loop hcut (.inl rfl)
    · exact running_in_demo hcut rfl rfl
  | startupStops _ _ _ _ _ _ _ _ hw _ e =>
    subst e
    refine idle_stopped ?_ hdiag
    rcases hw with rfl | ⟨p, l, -, rfl⟩ <;> nofun
  | demoEnds k hc hm e =>
    rcases e with rfl | rfl
    · exact idle_ended rfl rfl hdiag
    · exact idle_running (running_in_demo hcut hc rfl) (readyForDue (.inr ⟨hc, k, hm⟩)) hdiag
  | write a d n i m idx _ _ hr e =>
    subst e
    rcases hr with ⟨hc, hm, -⟩ | ⟨hc, k, hm, rfl, -⟩
    · exact idle_running (running_in_loop hcut (.inr hc)) (write_ready a d n i m idx (readyInLoop (.inr hc))) hdiag
    · exact idle_running (running_in_demo hcut hc rfl)
        (write_ready a d n i _ idx (readyForDue (.inr ⟨hc, k, hm⟩))) hdiag
  | writeStops _ _ _ _ _ _ _ _ _ _ hr _ hstop e =>
    subst e
    exact idle_stopped (stopsWith_ready hstop (pinsReady_of_readyForWrites (readyForDue hr))) hdiag
  | writeBeforeInitialize hi hr =>
    obtain ⟨hinit, -⟩ := readyForDue hr
    rw [hi] at hinit
    cases hinit
  | hardwareUnavailable _ e | overflow _ _ _ _ e | ioError _ _ _ e | illegal _ _ _ _ _ _ e =>
    subst e
    exact idle_halted nofun hdiag
  | frameRefused _ _ _ _ _ _ _ hd e =>
    subst e
    refine idle_halted nofun (notInitialized_unreported hdiag ?_)
    rcases hd with rfl | rfl <;> simp
  | endOfStream _ _ _ e =>
    subst e
    exact idle_ended rfl rfl hdiag
  | endToken _ hc _ _ e =>
    subst e
    exact idle_running (running_in_loop hcut (.inr rfl)) (readyInLoop (.inl hc)) hdiag
  | accept _ _ hc _ _ _ e =>
    subst e
    exact idle_running (running_in_loop hcut (.inl hc)) (readyInLoop (.inl hc)) hdiag
  | drainHead _ hc _ hd e =>
    subst e
    refine idle_running (running_in_loop hcut (.inr hc)) (readyInLoop (.inr hc)) (notInitialized_unreported hdiag ?_)
    rcases hd with rfl | rfl <;> simp
  | illegalSkipped _ _ _ hc _ e | dangling _ _ hc _ _ e =>
    subst e
    exact idle_running (running_in_loop hcut (.inr hc)) (readyInLoop (.inr hc))
      (notInitialized_unreported hdiag (by simp))
  | drainEnd _ hc _ hd e =>
    subst e
    refine idle_running (running_in_loop hcut (.inl rfl)) (readyInLoop (.inr hc)) (notInitialized_unreported hdiag ?_)
    rcases hd with rfl | rfl <;> simp

end Sys2Proof.Machine

namespace Sys2Proof.Proofs

open Sys2Proof.Machine Sys2Proof.Safety

/-- Settles O49: INITIALIZE from power-on makes the block ready, every complete register write leaves it so, and every other
effect of a step keeps the pins or ends the run; a write of a ready block never finds a pin that is no output. -/
theorem stepKeepsPinsIdleBetweenSteps : Obligations.StepKeepsPinsIdleBetweenSteps :=
  fun _ _ hs h => stepEffect_idle (uncut_of_step h) hs (step_effect h)

end Sys2Proof.Proofs
end

