-- ==== Sys2Proof/Proofs/ChipLifecycle.lean ====
section
/-! SUPPORT. RESET and INITIALIZE (42_chip_lifecycle.md R80 to R85): what their events do to idle pins (O19, O21) and from
power-on (O20), the register write before INITIALIZE (O29), and what a step appends to TRACE and DIAG (O55). -/

namespace Sys2Proof.Machine

open Sys2Proof.Safety

/-! ### Writes that change no level -/

theorem perPin_set_get {α : Type} {m : PerPin α} {p : Pin} {v : α} (h : m.get p = v) : m.set p v = m := by
  subst h
  cases p <;> rfl

theorem setLevel_same {b : Board} {p : Pin} {l : Level} (h : b.pinLevel.get p = some l) : b.setLevel p l = b := by
  rw [Board.setLevel, perPin_set_get h]

theorem setLevel_setLevel (b : Board) (p : Pin) (l m : Level) : (b.setLevel p l).setLevel p m = b.setLevel p m := by
  cases p <;> rfl

/-- A write of CS_N High while it is High is no event of the chip (R39). -/
theorem react_select_stays_high {b : Board} (h : b.pinLevel.csN = some .high) : b.react (.write .csN .high) = b := by
  have keeps : b.writeCsN .high = b := by simp only [Board.writeCsN, h]
  rw [Board.react, Board.reactWrite, keeps, setLevel_same (p := .csN) h]

/-- Outside a Low time of CS_N there is no select pulse to spoil (R39). -/
theorem spoilSelect_none {b : Board} (h : b.select = none) : b.spoilSelect = b := by
  simp only [Board.spoilSelect, h, Option.map_none]
  rw [← h]

/-- A write of SH_CLK Low while it is Low is no edge (R36). -/
theorem react_clock_stays_low {b : Board} (h : b.pinLevel.shClk = some .low) : b.react (.write .shClk .low) = b := by
  rw [react_clock_keeps (.inl rfl), setLevel_same (p := .shClk) h]

/-- A write of SH_LATCH Low while it is Low is no latch event, and outside a select pulse it spoils none (R38, R39). -/
theorem react_latch_stays_low {b : Board} (h : b.pinLevel.shLatch = some .low) (hsel : b.select = none) :
    b.react (.write .shLatch .low) = b := by
  rw [react_latch_keeps (.inl rfl), spoilSelect_none hsel, setLevel_same (p := .shLatch) h]

/-! ### The events of RESET and INITIALIZE from idle pins -/

/-- The board while RESET holds RES_N Low, outside a select pulse (R40, R80). -/
def resetOpen (held : Bool) (b : Board) : Board :=
  { b with chip := [], chipInReset := some true, resetHeld := held }.setLevel .resN .low

/-- The board after RESET from idle pins (R40, R80). -/
def boardAfterReset (b : Board) : Board := { b with chip := [], resetHeld := false }

theorem boardAfterReset_idle {b : Board} (h : BoardIdle b) : BoardIdle (boardAfterReset b) := by
  obtain ⟨hmode, -, hrest⟩ := h
  exact ⟨hmode, memory_nil_wf, hrest⟩

theorem react_reset_opens {b : Board} (hres : b.pinLevel.resN = some .high) (hsel : b.select = none) :
    b.react (.write .resN .low) = resetOpen false b := by
  rw [react_reset_falls hres, spoilSelect_none (by exact hsel)]
  rfl

/-- A Hold of T_RES_MIN is long enough for the reset pulse (R138). -/
theorem resetOpen_hold {b : Board} (hsel : b.select = none) :
    (resetOpen false b).react (.hold .resMin) = resetOpen true b := by
  simp [Board.react, Board.holdFor, resetOpen, Board.setLevel, PerPin.set, hsel, Duration.ns, Config.tResMin]

theorem resetOpen_closes {b : Board} (hres : b.pinLevel.resN = some .high) (hreset : b.chipInReset = some false)
    (hsel : b.select = none) (hrun : b.chipClk = .running) :
    (resetOpen true b).react (.write .resN .high) = boardAfterReset b := by
  rw [react_reset_rises (b := resetOpen true b) rfl rfl hrun, spoilSelect_none (by exact hsel), ← hreset]
  calc
    _ = ((boardAfterReset b).setLevel .resN .low).setLevel .resN .high := rfl
    _ = (boardAfterReset b).setLevel .resN .high := setLevel_setLevel ..
    _ = boardAfterReset b := setLevel_same (p := .resN) hres

/-- RESET from idle pins: the pulse of RES_N forgets every register, and CS_N is High already (R40, R80). -/
theorem replay_reset {b : Board} (h : BoardIdle b) : b.replay resetEvents = boardAfterReset b := by
  obtain ⟨-, -, -, -, -, hcs, hres, hreset, hsel, hrun⟩ := h
  rw [resetEvents, replay_cons, react_reset_opens hres hsel, replay_cons, resetOpen_hold hsel, replay_cons,
    resetOpen_closes hres hreset hsel hrun, replay_cons, react_select_stays_high (b := boardAfterReset b) hcs,
    replay_nil]

/-- Configuring the pins again changes nothing: every one is an output (R63, R83). -/
theorem replay_modes {b : Board} (h : b.pinMode = .all .output) (ps : List Pin) : b.replay (ps.map .mode) = b := by
  induction ps with
  | nil => rfl
  | cons p ps ih =>
    have keeps : b.react (.mode p) = b := by
      rw [Board.react, Board.setOutput, perPin_set_get (by rw [h, perPin_get_all])]
    rw [List.map_cons, replay_cons, keeps, ih]

/-- A board with both shift stages clear (R37). -/
def withClearStages (b : Board) : Board := { b with asr := Stage.ofByte 0, dsr := Stage.ofByte 0 }

/-- From idle pins SH_MR_N clears both stages, and no other write of INITIALIZE's last four is an edge (R37, R81). -/
theorem replay_clear {b : Board} (h : BoardIdle b) : b.replay clearEvents = withClearStages b := by
  obtain ⟨-, -, hclk, hlatch, hmr, -, -, -, hsel, -⟩ := h
  have falls : b.react (.write .shMrN .low) = (withClearStages b).setLevel .shMrN .low := react_clear b
  have rises : ((withClearStages b).setLevel .shMrN .low).react (.write .shMrN .high) = withClearStages b :=
    (setLevel_setLevel (withClearStages b) .shMrN .low .high).trans (setLevel_same (p := .shMrN) hmr)
  rw [clearEvents, replay_cons, falls, replay_cons, react_clock_stays_low (by exact hclk), replay_cons,
    react_latch_stays_low (by exact hlatch) (by exact hsel), replay_cons, rises, replay_nil]

/-- INITIALIZE from idle pins (R83). -/
theorem replay_initialize {b : Board} (h : BoardIdle b) :
    b.replay initializeEvents = withClearStages (boardAfterReset b) := by
  rw [initializeEvents_split, replay_append, replay_append, modeEvents, replay_modes h.1, replay_reset h,
    replay_clear (boardAfterReset_idle h)]

/-- INITIALIZE from power-on ends in the table of R84. -/
theorem replay_initialize_powerOn : Board.powerOn.replay initializeEvents = boardAfterInitialize := rfl

/-! ### RESET and WRITE_REGISTER -/

/-- RESET of an initialised block under LIVE, undisturbed, is its four events (R80). -/
theorem resetChip_live_go {s : State} (h : ReadyLive s) (hu : Undisturbed resetEvents s) :
    resetChip s = .go (drivenLive resetEvents s) := by
  obtain ⟨hlive, hinit, hmode, -⟩ := h
  rw [resetChip, if_pos hinit, drive_live_go hlive hmode hu]

/-- The precondition INITIALIZED fails before any event (R82, R118). -/
theorem writeRegister_uninitialized {s : State} (a d : Byte) (h : s.initialized = false) :
    writeRegister a d s = .abandoned (halted .notInitialized s) := by
  rw [writeRegister, h, if_neg Bool.false_ne_true, raise_fatal rfl]

/-! ### What a step appends to TRACE and DIAG -/

/-- A backend records no event that was not driven (R66). -/
theorem mem_of_mem_recorded {s : State} {es : List PinEvent} {e : PinEvent} (h : e ∈ recorded s es) : e ∈ es := by
  unfold recorded at h
  split at h
  · exact h
  · exact List.mem_of_mem_filter h

theorem stopped_trace (why : Option Raised) (s : State) : (stopped why s).trace = s.trace := by
  cases why <;> rfl

/-- A fault is reported after what DIAG holds; a cut reports nothing (R121, R142). -/
theorem stopped_diag {s u : State} (why : Option Raised) (h : u.diag = s.diag) :
    ∃ reports, (stopped why u).diag = s.diag ++ reports := by
  rw [← h]
  cases why with
  | none => exact ⟨[], (List.append_nil _).symm⟩
  | some r => exact ⟨[.fault r], rfl⟩

/-- A step makes no pin event and leaves the board alone, or it is STARTUP, or it records some of the events of one register
write, outside ACCUM (R85, R110). -/
theorem stepEffect_trace {s t : State} (h : StepEffect s t) :
    (t.trace = s.trace ∧ t.board = s.board) ∨
    (s.ctrl ≠ .accum ∧ ∃ events, t.trace = s.trace ++ events ∧
      (notStarted s = true ∨ ∃ a d, ∀ e ∈ events, e ∈ registerWriteEvents a d)) := by
  have off : notStarted s = true → s.ctrl ≠ .accum := fun hn => by rw [notStarted_off hn]; nofun
  have due : WriteDue s → s.ctrl ≠ .accum := fun hr => by rcases writeDue_ctrl hr with hc | hc <;> rw [hc] <;> nofun
  cases h with
  | startup _ _ _ _ hn _ _ e =>
    subst e
    exact .inr ⟨off hn, _, rfl, .inl hn⟩
  | startupStops _ _ _ _ _ _ hn _ _ _ e =>
    subst e
    exact .inr ⟨off hn, _, stopped_trace .., .inl hn⟩
  | write a d _ _ _ _ _ _ hr e =>
    have hc : s.ctrl ≠ .accum := by rcases hr with ⟨hc, -⟩ | ⟨hc, -⟩ <;> rw [hc] <;> nofun
    subst e
    exact .inr ⟨hc, _, rfl, .inr ⟨a, d, fun _ => mem_of_mem_recorded⟩⟩
  | writeStops a d pre _ _ _ _ _ _ _ hr hl _ e =>
    subst e
    exact .inr ⟨due hr, _, stopped_trace .., .inr ⟨a, d, fun _ he =>
      hl ▸ List.mem_append_left _ (mem_of_mem_recorded he)⟩⟩
  | demoEnds _ _ _ e => rcases e with rfl | rfl <;> exact .inl ⟨rfl, rfl⟩
  | wait _ _ e | hardwareUnavailable _ e | writeBeforeInitialize _ _ e | endToken _ _ _ _ e | accept _ _ _ _ _ _ e
  | overflow _ _ _ _ e | endOfStream _ _ _ e | ioError _ _ _ e | drainHead _ _ _ _ e | frameRefused _ _ _ _ _ _ _ _ e
  | illegal _ _ _ _ _ _ e | illegalSkipped _ _ _ _ _ e | dangling _ _ _ _ _ e | drainEnd _ _ _ _ e =>
    subst e
    exact .inl ⟨rfl, rfl⟩

/-- No step takes a report back (R24). -/
theorem stepEffect_diag {s t : State} (h : StepEffect s t) : ∃ reports, t.diag = s.diag ++ reports := by
  have nothing : ∃ reports, s.diag = s.diag ++ reports := ⟨[], (List.append_nil _).symm⟩
  cases h with
  | startupStops _ _ _ _ why _ _ _ _ _ e | writeStops _ _ _ _ _ why _ _ _ _ _ _ _ e =>
    subst e
    exact stopped_diag why rfl
  | demoEnds _ _ _ e => rcases e with rfl | rfl <;> exact nothing
  | wait _ _ e | startup _ _ _ _ _ _ _ e | write _ _ _ _ _ _ _ _ _ e | endToken _ _ _ _ e | accept _ _ _ _ _ _ e
  | endOfStream _ _ _ e =>
    subst e
    exact nothing
  | frameRefused _ _ _ dump _ _ _ _ e =>
    subst e
    exact ⟨dump ++ [_], List.append_assoc ..⟩
  | hardwareUnavailable _ e | writeBeforeInitialize _ _ e | overflow _ _ _ _ e | ioError _ _ _ e | drainHead _ _ _ _ e
  | illegal _ _ _ _ _ _ e | illegalSkipped _ _ _ _ _ e | dangling _ _ _ _ _ e | drainEnd _ _ _ _ e =>
    subst e
    exact ⟨_, rfl⟩

end Sys2Proof.Machine

namespace Sys2Proof.Proofs

open Sys2Proof.Machine Sys2Proof.Safety

/-- Settles O55: past STARTUP only register writes make events, all of them steady and none in ACCUM; reports are only
added. -/
theorem streamReachesOnlyTheFivePins : Obligations.StreamReachesOnlyTheFivePins := by
  intro s t h
  have effect := step_effect h
  refine ⟨?_, stepEffect_diag effect⟩
  rcases stepEffect_trace effect with ⟨htrace, hboard⟩ | ⟨hctrl, events, htrace, hevents⟩
  · exact ⟨[], by rw [htrace, List.append_nil], fun _ => rfl, fun _ => ⟨rfl, hboard⟩⟩
  · refine ⟨events, htrace, fun hstarted => ?_, fun haccum => absurd haccum hctrl⟩
    rcases hevents with hn | ⟨a, d, hwrite⟩
    · exact absurd hn (ne_true_of_eq_false hstarted)
    · exact List.all_eq_true.2 fun e he => registerWriteEvents_steady a d e (hwrite e he)

/-- Settles O19: the four events of RESET, and what they do to idle pins. -/
theorem resetForgetsTheChipOnly : Obligations.ResetForgetsTheChipOnly := by
  intro s hready hfail hcut
  rw [resetChip_live_go hready ⟨hfail, hcut⟩, drivenLive, replay_reset hready.2.2]
  rfl

/-- Settles O20: the 15 events of INITIALIZE, replayed on the board at power-on. -/
theorem initializeEndsInTheIdleBoard : Obligations.InitializeEndsInTheIdleBoard := by
  intro s hlive hboard hfail hcut
  rw [initializeBlock_live_go hlive ⟨hfail, hcut⟩, drivenLive, hboard, replay_initialize_powerOn, countWrites_initialize]

/-- Settles O21: the 15 events again, from idle pins; INITIALIZED is true already. -/
theorem repeatedInitializeClearsStagesAndChip : Obligations.RepeatedInitializeClearsStagesAndChip := by
  intro s hready hfail hcut
  obtain ⟨hlive, hinit, hidle⟩ := hready
  rw [initializeBlock_live_go hlive ⟨hfail, hcut⟩, drivenLive, replay_initialize hidle, countWrites_initialize, ← hinit]
  rfl

/-- Settles O29: WR is a register write, and that needs INITIALIZED. -/
theorem wrBeforeInitializeIsNotInitialized : Obligations.WrBeforeInitializeIsNotInitialized := by
  intro addr data s hinit
  rw [exec_wr, writeRegister_uninitialized _ _ hinit, andThen_abandoned, flow_state_abandoned]

end Sys2Proof.Proofs
end

