-- ==== Sys2Proof/Proofs/Decompose.lean ====
section
/-! SUPPORT. DECOMPOSE (43_frame_reader.md R93): how many items a frame has and what they are (O4), where the walk can meet a
dangling byte, and the frame that carries a sequence of register writes (O5). -/

namespace Sys2Proof

open Sys2Proof.Safety

/-! ### The items of a frame -/

theorem length_decompose (frame : List Byte) : (decompose frame).length = frame.length / 2 + frame.length % 2 := by
  induction frame using decompose.induct with
  | case1 | case2 b => simp
  | case3 a d rest ih =>
    simp only [decompose_pair, List.length_cons, ih]
    omega

/-- Two bytes more of the frame are one item more. -/
theorem getElem?_decompose {frame : List Byte} {k : Nat} {a d : Byte} (ha : frame[2 * k]? = some a)
    (hd : frame[2 * k + 1]? = some d) : (decompose frame)[k]? = some (.pair a d) := by
  induction frame using decompose.induct generalizing k with
  | case1 => cases ha
  | case2 b => cases hd
  | case3 a' d' rest ih =>
    cases k with
    | zero =>
      cases ha
      cases hd
      rfl
    | succ k => exact ih ha hd

theorem getLast?_decompose_of_odd {frame : List Byte} {b : Byte} (hodd : frame.length % 2 = 1)
    (hb : frame.getLast? = some b) : (decompose frame).getLast? = some (.dangling b) := by
  induction frame using decompose.induct with
  | case1 => cases hb
  | case2 b' =>
    cases hb
    rfl
  | case3 a d rest ih =>
    cases rest with
    | nil => exact absurd hodd (by simp)
    | cons x xs =>
      have hrest := ih ((Nat.add_mod_right ..).symm.trans hodd) hb
      rw [decompose_pair, List.getLast?_cons, hrest]
      rfl

/-- A dangling byte comes first only where one byte is left (R93). -/
theorem eq_singleton_of_decompose {bytes : List Byte} {b : Byte} {rest : List Item}
    (h : decompose bytes = .dangling b :: rest) : bytes = [b] := by
  match bytes with
  | [] | _ :: _ :: _ => cases h
  | [b'] =>
    cases h
    rfl

/-- From an even offset of a frame of even length the walk meets no dangling byte (R92, R115). -/
theorem drop_ne_singleton {frame : List Byte} {n : Nat} (hframe : frame.length % 2 = 0) (hn : n % 2 = 0) (b : Byte) :
    frame.drop n ≠ [b] := by
  intro h
  have hlen := congrArg List.length h
  rw [List.length_drop, List.length_singleton] at hlen
  omega

/-! ### The frame of a sequence of register writes -/

theorem encodeBody_cons (w : Address × Data) (writes : List (Address × Data)) :
    encodeBody (w :: writes) = w.1.setWidth 8 :: w.2 :: encodeBody writes := rfl

/-- The address bytes are below 32, so none of them is read as an END (R61, R92). -/
theorem encodeBody_clean (writes : List (Address × Data)) : CleanFrame (encodeBody writes) := by
  induction writes with
  | nil => exact ⟨rfl, rfl⟩
  | cons w writes ih =>
    obtain ⟨heven, hclean⟩ := ih
    rw [encodeBody_cons]
    refine ⟨(Nat.add_mod_right ..).trans heven, ?_⟩
    rw [noSentinelAtEven, hclean, decide_eq_true (setWidth_ne_sentinel w.1)]
    rfl

theorem decompose_encodeBody (writes : List (Address × Data)) :
    decompose (encodeBody writes) = writes.map (fun w => Item.pair (w.1.setWidth 8) w.2) := by
  induction writes with
  | nil => rfl
  | cons w writes ih => rw [encodeBody_cons, decompose_pair, ih, List.map_cons]

theorem validPairs_encodeBody (writes : List (Address × Data)) : validPairs (encodeBody writes) = true := by
  induction writes with
  | nil => rfl
  | cons w writes ih =>
    rw [encodeBody_cons, Machine.validPairs_cons, setWidth_toNat]
    exact ⟨w.1.isLt, ih⟩

theorem splitFrames_encodeFrame (writes : List (Address × Data)) :
    splitFrames [] (encodeFrame writes) = ([encodeBody writes], []) := by
  have hjoin : encodeFrame writes = joinFrames [encodeBody writes] [] := by
    rw [joinFrames_cons, joinFrames_nil, encodeFrame, encode]
  rw [hjoin]
  exact splitFrames_joinFrames (List.forall_mem_singleton.2 (encodeBody_clean writes)) rfl

end Sys2Proof

namespace Sys2Proof.Proofs

/-- Settles O4, by the recursion of DECOMPOSE, two bytes at a time. -/
theorem decomposeTakesTwoBytesAtATime : Obligations.DecomposeTakesTwoBytesAtATime :=
  fun frame => ⟨length_decompose frame, fun _ _ _ => getElem?_decompose, fun _ => getLast?_decompose_of_odd⟩

/-- Settles O5: the body is a clean frame, so the framing function ends it at the appended END only. -/
theorem framedWritesReadBackExactly : Obligations.FramedWritesReadBackExactly :=
  fun writes => ⟨splitFrames_encodeFrame writes, decompose_encodeBody writes,
    Machine.firstIllegal_of_validPairs (validPairs_encodeBody writes) 0⟩

end Sys2Proof.Proofs
end

