-- ==== Sys2Proof/Proofs/FrameReader.lean ====
section
/-! SUPPORT. The Frame Reader and the decoder step by step (43_frame_reader.md): what the reader keeps of BUF, FRAME and IDX
(O51, O53), its steps in ACCUM (O38 to O41), the steps of the walk (O37, O43) and the tokens (O25, O26, O31, O32). -/

namespace Sys2Proof.Machine

open Sys2Proof.Safety

/-! ### BUF -/

/-- What a step can do to BUF: leave it, empty it, or append a byte that ends no frame and for which there is room (R87,
R90, R102). -/
theorem stepEffect_buf {s t : State} (h : StepEffect s t) :
    t.buf = s.buf ∨ t.buf = [] ∨
    (∃ b, t.buf = s.buf ++ [b] ∧ ¬ (b = Config.sentinel ∧ s.buf.length % 2 = 0) ∧
      s.params.bufCap ≠ some s.buf.length) := by
  cases h with
  | accept b _ _ _ hp hn e =>
    subst e
    exact .inr (.inr ⟨b, rfl, fun h => hp h.symm, hn⟩)
  | endToken _ _ _ _ e | endOfStream _ _ _ e | ioError _ _ _ e =>
    subst e
    exact .inr (.inl rfl)
  | startupStops _ _ _ _ why _ _ _ _ _ e | writeStops _ _ _ _ _ why _ _ _ _ _ _ _ e =>
    subst e
    cases why <;> exact .inl rfl
  | demoEnds _ _ _ e => rcases e with rfl | rfl <;> exact .inl rfl
  | wait _ _ e | startup _ _ _ _ _ _ _ e | hardwareUnavailable _ e | write _ _ _ _ _ _ _ _ _ e
  | writeBeforeInitialize _ _ e | overflow _ _ _ _ e | drainHead _ _ _ _ e | frameRefused _ _ _ _ _ _ _ _ e
  | illegal _ _ _ _ _ _ e | illegalSkipped _ _ _ _ _ e | dangling _ _ _ _ _ e | drainEnd _ _ _ _ e =>
    subst e
    exact .inl rfl

theorem stepEffect_params {s t : State} (h : StepEffect s t) : t.params = s.params := by
  rcases stepEffect_keeps h with ⟨-, hkept⟩ | hkept
  · exact hkept.params
  · exact hkept.params

theorem stepEffect_bufferWithinCap {s t : State} (hs : BufferWithinCap s) (h : StepEffect s t) : BufferWithinCap t := by
  intro n hcap
  rw [stepEffect_params h] at hcap
  have hle := hs n hcap
  rcases stepEffect_buf h with e | e | ⟨b, e, -, hroom⟩ <;> rw [e]
  · exact hle
  · exact Nat.zero_le n
  · have hne : s.buf.length ≠ n := fun heq => hroom (by rw [hcap, heq])
    rw [List.length_append, List.length_singleton]
    omega

/-- Only a 0xFF at an even offset would put a sentinel there, and that is an END (R88, R92). -/
theorem stepEffect_buf_clean {s t : State} (hs : noSentinelAtEven s.buf = true) (h : StepEffect s t) :
    noSentinelAtEven t.buf = true := by
  rcases stepEffect_buf h with e | e | ⟨b, e, hb, -⟩ <;> rw [e]
  · exact hs
  · rfl
  · exact (noSentinelAtEven_snoc _ b).2 ⟨hs, hb⟩

/-! ### FRAME and IDX -/

/-- What the reader guarantees of the frame being drained (R92). -/
abbrev FrameWhole (s : State) : Prop :=
  s.frame.length % 2 = 0 ∧ noSentinelAtEven s.frame = true ∧ (s.micro = .walk → s.idx % 2 = 0)

/-- A step that ends in EMIT released an accumulated frame of even length, its walk to begin; or it was in EMIT, and the
walk begins, stays at its item or goes on by two bytes (R87, R105). -/
theorem stepEffect_emit {s t : State} (h : StepEffect s t) (ht : t.ctrl = .emit) :
    (s.buf.length % 2 = 0 ∧ t.frame = s.buf ∧ t.micro ≠ .walk) ∨
    (s.ctrl = .emit ∧ t.frame = s.frame ∧
      (t.idx = 0 ∨ (s.micro = .walk ∧ (t.idx = s.idx ∨ t.idx = s.idx + 2)))) := by
  have notOff : s.ctrl = .off → s.ctrl ≠ .emit := fun hoff => by rw [hoff]; nofun
  cases h with
  | endToken _ _ _ hp e =>
    subst e
    exact .inl ⟨hp, rfl, nofun⟩
  | drainHead _ hc _ _ e =>
    subst e
    exact .inr ⟨hc, rfl, .inl rfl⟩
  | write _ _ _ _ _ _ _ _ hr e =>
    subst e
    rcases hr with ⟨hc, hm, -, hidx⟩ | ⟨hc, -⟩
    · exact .inr ⟨hc, rfl, .inr ⟨hm, .inr hidx⟩⟩
    · exact absurd ht (notOff hc)
  | writeStops _ _ _ _ _ why _ _ _ _ hr _ _ e =>
    subst e
    cases why with
    | some r => cases ht
    | none =>
      rcases hr with ⟨hc, hm⟩ | ⟨hc, -⟩
      · exact .inr ⟨hc, rfl, .inr ⟨hm, .inl rfl⟩⟩
      · exact absurd ht (notOff hc)
  | illegalSkipped _ _ _ hc hm e | dangling _ _ hc hm _ e =>
    subst e
    exact .inr ⟨hc, rfl, .inr ⟨hm, .inr rfl⟩⟩
  | startup _ _ _ _ _ _ hn e =>
    subst e
    rcases hn with ⟨rfl, -⟩ | ⟨rfl, -⟩ <;> cases ht
  | startupStops _ _ _ _ why _ hn _ _ _ e =>
    subst e
    cases why with
    | some r => cases ht
    | none => exact absurd ht (notOff (notStarted_off hn))
  | demoEnds _ hc _ e =>
    rcases e with rfl | rfl
    · cases ht
    · exact absurd ht (notOff hc)
  | wait hc _ e | accept _ _ hc _ _ _ e =>
    subst e
    cases hc.symm.trans ht
  | hardwareUnavailable _ e | writeBeforeInitialize _ _ e | overflow _ _ _ _ e | endOfStream _ _ _ e | ioError _ _ _ e
  | frameRefused _ _ _ _ _ _ _ _ e | illegal _ _ _ _ _ _ e | drainEnd _ _ _ _ e =>
    subst e
    cases ht

theorem stepEffect_frameWhole {s t : State} (hbuf : noSentinelAtEven s.buf = true) (hs : s.ctrl = .emit → FrameWhole s)
    (h : StepEffect s t) (ht : t.ctrl = .emit) : FrameWhole t := by
  rcases stepEffect_emit h ht with ⟨heven, hframe, hentry⟩ | ⟨hc, hframe, hidx⟩
  · rw [FrameWhole, hframe]
    exact ⟨heven, hbuf, fun hm => absurd hm hentry⟩
  · obtain ⟨heven, hclean, hwalk⟩ := hs hc
    rw [FrameWhole, hframe]
    refine ⟨heven, hclean, fun _ => ?_⟩
    rcases hidx with hidx | ⟨hm, hidx | hidx⟩ <;> rw [hidx]
    · exact hwalk hm
    · rw [Nat.add_mod_right, hwalk hm]

/-! ### The report of a dangling byte -/

/-- DIAG holds no report of a dangling byte. -/
def DanglingUnreported (diag : List DiagEvent) : Prop := ∀ b, DiagEvent.fault (.danglingByte b) ∉ diag

theorem danglingUnreported_append {diag reports : List DiagEvent} :
    DanglingUnreported (diag ++ reports) ↔ DanglingUnreported diag ∧ DanglingUnreported reports := by
  simp only [DanglingUnreported, List.mem_append, not_or, forall_and]

/-- The one fault that is recoverable under every policy is DanglingByte (R112). -/
theorem danglingUnreported_fatal {r : Raised} {p : AddrPolicy} (hr : r.fatal p = true) :
    DanglingUnreported [.fault r] := by
  intro b hmem
  cases List.mem_singleton.1 hmem
  cases hr

theorem danglingUnreported_halted {r : Raised} {p : AddrPolicy} {s : State} (hr : r.fatal p = true)
    (h : DanglingUnreported s.diag) : DanglingUnreported (halted r s).diag :=
  danglingUnreported_append.2 ⟨h, danglingUnreported_fatal hr⟩

theorem danglingUnreported_stopped {why : Option Raised} {s : State}
    (hw : ∀ r, why = some r → r.fatal .fatal = true) (h : DanglingUnreported s.diag) :
    DanglingUnreported (stopped why s).diag := by
  cases why with
  | none => exact h
  | some r => exact danglingUnreported_halted (hw r rfl) h

/-- A dangling byte is reported only by the step that meets one (R95). -/
theorem stepEffect_danglingUnreported {s t : State} (hs : DanglingUnreported s.diag)
    (hwalk : s.ctrl = .emit → s.micro = .walk → ∀ b, s.frame.drop s.idx ≠ [b]) (h : StepEffect s t) :
    DanglingUnreported t.diag := by
  have dumped : ∀ dump, dump = [] ∨ dump = [DiagEvent.frameDump s.frame] → DanglingUnreported (s.diag ++ dump) := by
    rintro _ (rfl | rfl) <;> exact danglingUnreported_append.2 ⟨hs, by simp [DanglingUnreported]⟩
  cases h with
  | dangling b _ hc hm hd => exact absurd (eq_singleton_of_decompose hd) (hwalk hc hm b)
  | illegalSkipped a d k _ _ e =>
    subst e
    exact danglingUnreported_append.2 ⟨hs, danglingUnreported_fatal (p := .fatal) rfl⟩
  | drainHead dump _ _ hd e =>
    subst e
    exact dumped dump hd
  | frameRefused _ _ _ dump _ _ _ hd e =>
    subst e
    exact danglingUnreported_halted (p := .fatal) rfl (dumped dump hd)
  | drainEnd progress _ _ hd e =>
    subst e
    rcases hd with rfl | rfl <;> exact danglingUnreported_append.2 ⟨hs, by simp [DanglingUnreported]⟩
  | startupStops _ _ ev _ why _ _ _ hw _ e =>
    subst e
    have hstop : StopsWith s ev why := hw.imp_right fun ⟨p, l, hev, hr⟩ => ⟨p, l, _, hev, hr, .inl rfl⟩
    exact danglingUnreported_stopped (stopsWith_fatal hstop _) hs
  | writeStops _ _ _ _ _ _ _ _ _ _ _ _ hw e =>
    subst e
    exact danglingUnreported_stopped (stopsWith_fatal hw _) hs
  | hardwareUnavailable _ e | writeBeforeInitialize _ _ e | overflow _ _ _ _ e | ioError _ _ _ e
  | illegal _ _ _ _ _ _ e =>
    subst e
    exact danglingUnreported_halted (p := .fatal) rfl hs
  | demoEnds _ _ _ e => rcases e with rfl | rfl <;> exact hs
  | wait _ _ e | startup _ _ _ _ _ _ _ e | write _ _ _ _ _ _ _ _ _ e | endToken _ _ _ _ e | accept _ _ _ _ _ _ e
  | endOfStream _ _ _ e =>
    subst e
    exact hs

theorem stepEffect_framesWhole {s t : State} (hs : FramesWhole s) (h : StepEffect s t) : FramesWhole t := by
  obtain ⟨hbuf, hframe, hdiag⟩ := hs
  refine ⟨stepEffect_buf_clean hbuf h, stepEffect_frameWhole hbuf hframe h,
    stepEffect_danglingUnreported hdiag (fun hc hm => ?_) h⟩
  obtain ⟨heven, -, hwalk⟩ := hframe hc
  exact drop_ne_singleton heven (hwalk hm)

/-! ### From the fetched action to the step -/

theorem step_of_token {s : State} {i : Instr} (hcut : s.cut = false) (h : fetchAction s = .token i) :
    step s = exec i s := by
  rw [step_of_uncut hcut, h]

theorem step_of_pass {s : State} {p : Pass} (hcut : s.cut = false) (h : fetchAction s = .pass p) :
    step s = runPass p s := by
  rw [step_of_uncut hcut, h]

/-- In ACCUM the event at the input port decides (R104). -/
theorem fetchAction_accum {s : State} (hc : s.ctrl = .accum) : fetchAction s = fetchEvent s := by
  rw [fetchAction, hc]

/-- In the walk the first item from IDX on decides (R93, R105). -/
theorem fetchAction_walk {s : State} (hc : s.ctrl = .emit) (hm : s.micro = .walk) : fetchAction s = fetchItem s := by
  rw [fetchAction, hc, hm]

/-! ### The steps of the reader in ACCUM -/

/-- A byte that is no END token is accepted (R87, R89). -/
theorem step_acceptByte {s : State} {b : Byte} {events : List InputEvent} (hcut : s.cut = false) (hc : s.ctrl = .accum)
    (hi : s.input = .byte b :: events) (hb : ¬ (b = Config.sentinel ∧ s.buf.length % 2 = 0)) :
    step s = (acceptByte b s).outcome := by
  have hnone : decodeArriving s.buf.length b = none := by
    rw [decodeArriving_eq, if_neg fun h => hb h.symm]
  exact step_of_pass (p := .accept b) hcut (by simp only [fetchAction_accum hc, fetchEvent, hi, hnone])

theorem takeEvent_eq {s : State} {e : InputEvent} {events : List InputEvent} (hi : s.input = e :: events) :
    takeEvent s = { s with input := events } := by
  rw [takeEvent, hi]
  rfl

theorem takeByte_eq {s : State} {e : InputEvent} {events : List InputEvent} (hi : s.input = e :: events) :
    takeByte s = { s with input := events, pos := s.pos + 1 } := by
  rw [takeByte, takeEvent_eq hi]

theorem acceptByte_appends {s : State} {b : Byte} {e : InputEvent} {events : List InputEvent} (hc : s.ctrl = .accum)
    (hi : s.input = e :: events) (hroom : s.params.bufCap ≠ some s.buf.length) :
    acceptByte b s = .go { s with input := events, pos := s.pos + 1, buf := s.buf ++ [b] } := by
  have hfits : bufFull (takeByte s) = false := decide_eq_false hroom
  rw [acceptByte, appendByte, hfits, if_neg Bool.false_ne_true, takeByte_eq hi, ← hc]

theorem acceptByte_overflows {s : State} {b : Byte} {e : InputEvent} {events : List InputEvent}
    (hi : s.input = e :: events) (hfull : s.params.bufCap = some s.buf.length) :
    acceptByte b s = .abandoned (halted .bufferOverflow { s with input := events, pos := s.pos + 1 }) := by
  have hrefused : bufFull (takeByte s) = true := decide_eq_true hfull
  rw [acceptByte, appendByte, hrefused, if_pos rfl, takeByte_eq hi, raise_fatal rfl]

/-- One byte more in BUF is the other parity (R22). -/
theorem parity_append_byte {s t : State} {b : Byte} (h : t.buf = s.buf ++ [b]) : t.parity = 1 - s.parity := by
  rw [State.parity, State.parity, h, List.length_append, List.length_singleton]
  omega

theorem step_wait {s : State} (hcut : s.cut = false) (hc : s.ctrl = .accum) (hi : s.input = []) : step s = .next s :=
  step_of_pass (p := .wait) hcut (by simp only [fetchAction_accum hc, fetchEvent, hi])

theorem step_endOfStream {s : State} {events : List InputEvent} (hcut : s.cut = false) (hc : s.ctrl = .accum)
    (hi : s.input = .endOfStream :: events) : step s = .next (endOfStream s) :=
  step_of_pass (p := .endOfStream) hcut (by simp only [fetchAction_accum hc, fetchEvent, hi])

theorem step_ioError {s : State} {events : List InputEvent} (hcut : s.cut = false) (hc : s.ctrl = .accum)
    (hi : s.input = .ioError :: events) : step s = (ioError s).outcome :=
  step_of_pass (p := .ioError) hcut (by simp only [fetchAction_accum hc, fetchEvent, hi])

/-- In DONE and in HALT there is no step (R111, R124). -/
theorem step_of_ended {s : State} (hcut : s.cut = false) (hc : s.ctrl = .done ∨ s.ctrl = .halt) :
    step s = .fault .runOver := by
  refine step_of_pass (p := .over) hcut ?_
  rcases hc with hc | hc <;> rw [fetchAction, hc]

theorem done_iff (s : State) : s.done = true ↔ s.ctrl = .done := decide_eq_true_iff

theorem halted_iff (s : State) : s.halted = true ↔ s.ctrl = .halt := decide_eq_true_iff

/-! ### The steps of the walk -/

/-- A complete pair runs the token it decodes to (R94, R96). -/
theorem step_token {s : State} {a d : Byte} {rest : List Byte} (hcut : s.cut = false) (hc : s.ctrl = .emit)
    (hm : s.micro = .walk) (hf : s.frame.drop s.idx = a :: d :: rest) : step s = exec (decodePair a d) s :=
  step_of_token hcut (by simp only [fetchAction_walk hc hm, fetchItem, hf, decompose_pair])

theorem step_dangling {s : State} {b : Byte} (hcut : s.cut = false) (hc : s.ctrl = .emit) (hm : s.micro = .walk)
    (hf : s.frame.drop s.idx = [b]) : step s = (danglingByte b s).outcome :=
  step_of_pass (p := .dangling b) hcut (by simp only [fetchAction_walk hc hm, fetchItem, hf, decompose_single])

/-! ### The illegal tokens -/

theorem illegalPair_halts {s : State} (a d : Byte) (hp : s.params.addrPolicy = .fatal) :
    illegalPair a d s = .abandoned (halted (.addressOutOfRange a d (s.idx / 2)) s) := by
  rw [illegalPair_eq, if_pos hp]

theorem illegalPair_skips {s : State} (a d : Byte) (hp : s.params.addrPolicy = .skip) :
    illegalPair a d s =
      .go { s with diag := s.diag ++ [.fault (.addressOutOfRange a d (s.idx / 2))], idx := s.idx + 2 } := by
  rw [illegalPair_eq, if_neg (by rw [hp]; nofun)]

/-- Each illegal row has the meaning of an illegal pair (R96). -/
theorem exec_illegal (a d : Byte) (s : State) :
    exec (.wrIllegal32To63 a d) s = (illegalPair a d s).outcome ∧
    exec (.wrIllegal64To127 a d) s = (illegalPair a d s).outcome ∧
    exec (.wrIllegal128To254 a d) s = (illegalPair a d s).outcome := ⟨rfl, rfl, rfl⟩

end Sys2Proof.Machine

namespace Sys2Proof.Proofs

open Sys2Proof.Machine Sys2Proof.Safety

/-- Settles O51: BUF takes a sentinel at odd offsets only, an END releases a frame of even length, and from there the walk
goes on by two bytes, so that it never comes to a last single byte. -/
theorem stepKeepsFramesWhole : Obligations.StepKeepsFramesWhole :=
  fun _ _ hs h => stepEffect_framesWhole hs (step_effect h)

/-- Settles O53: BUF grows by one byte at a time, and only below BUF_CAP, which no step changes. -/
theorem stepKeepsBufferWithinCap : Obligations.StepKeepsBufferWithinCap :=
  fun _ _ hs h => stepEffect_bufferWithinCap hs (step_effect h)

/-- Settles O26: the complete register write from idle pins, then the next item. -/
theorem wrDrivesOneRegisterWrite : Obligations.WrDrivesOneRegisterWrite := by
  intro addr data s hready hfail hcut
  rw [exec_wr, writeRegister_ready _ data hready (undisturbed_register _ data hfail hcut)]
  rfl

/-- Settles O25: END takes its byte and releases what BUF holds. -/
theorem endReleasesTheAccumulatedFrame : Obligations.EndReleasesTheAccumulatedFrame :=
  fun s => ⟨emitFrame (takeByte s), rfl, rfl, by rw [← List.drop_one]; rfl⟩

/-- Settles O31: the three rows are illegal pairs, and under `fatal` the fault of one halts. -/
theorem illegalAddressHaltsUnderFatal : Obligations.IllegalAddressHaltsUnderFatal := by
  intro a d s hp
  obtain ⟨h32, h64, h128⟩ := exec_illegal a d s
  rw [h32, h64, h128, illegalPair_halts a d hp]
  exact ⟨rfl, rfl, rfl⟩

/-- Settles O32: the three rows are illegal pairs, and under `skip` the next item follows the report. -/
theorem illegalAddressIsSkippedUnderSkip : Obligations.IllegalAddressIsSkippedUnderSkip := by
  intro a d s hp
  obtain ⟨h32, h64, h128⟩ := exec_illegal a d s
  rw [h32, h64, h128, illegalPair_skips a d hp]
  exact ⟨rfl, rfl, rfl⟩

/-- Settles O37: the walk decodes the two bytes of a pair back to their token; in ACCUM the sentinel at an even offset is
END. -/
theorem stepRunsTheDecodedToken : Obligations.StepRunsTheDecodedToken := by
  refine ⟨fun s i rest hcut hw hi hc hm hf => ?_, fun s events hcut hc hp hinput => ?_⟩
  · obtain ⟨a, d, -, henc, hdec⟩ := exists_pair_of_wf hw hi
    rw [henc] at hf
    rw [step_token hcut hc hm hf, hdec]
  · rw [step_end hcut hc hinput hp, ← takeByte_eq hinput]
    rfl

/-- Settles O38: the byte is accepted; BUF has room for it or not. -/
theorem otherBytesAccumulate : Obligations.OtherBytesAccumulate := by
  intro s b events hcut hc hi hb
  rw [step_acceptByte hcut hc hi hb]
  refine ⟨fun hroom => ?_, fun hfull => ?_⟩
  · rw [acceptByte_appends hc hi hroom]
    exact ⟨_, rfl, parity_append_byte rfl, rfl⟩
  · rw [acceptByte_overflows hi hfull]
    rfl

/-- Settles O39: the reader's END_OF_STREAM is the step. -/
theorem endOfStreamEndsTheRunCleanly : Obligations.EndOfStreamEndsTheRunCleanly := by
  intro s events hcut hc hi
  rw [step_endOfStream hcut hc hi, endOfStream, takeEvent_eq hi]

/-- Settles O40: the reader's IO_ERROR is the step, and StreamIoError is fatal under every policy. -/
theorem streamErrorHalts : Obligations.StreamErrorHalts := by
  intro s events hcut hc hi
  rw [step_ioError hcut hc hi, ioError, takeEvent_eq hi, raise_fatal rfl, flow_outcome, flow_state_abandoned]

/-- Settles O41: the wait of ACCUM, and the states from which there is no step. -/
theorem waitingKeepsTheStateAndEndsHaveNoStep : Obligations.WaitingKeepsTheStateAndEndsHaveNoStep := by
  intro s
  have ended : s.done = true ∨ s.halted = true → s.ctrl = .done ∨ s.ctrl = .halt :=
    Or.imp (done_iff s).1 (halted_iff s).1
  exact ⟨step_wait, done_iff s, halted_iff s, fun hcut h => step_of_ended hcut (ended h), step_of_cut⟩

/-- Settles O43: DanglingByte is recoverable, so the next item follows. -/
theorem danglingByteIsReportedAndPassed : Obligations.DanglingByteIsReportedAndPassed := by
  intro s b hcut hc hm hf
  rw [step_dangling hcut hc hm hf, danglingByte_eq]
  rfl

end Sys2Proof.Proofs
end

