-- ==== Sys2Proof/Proofs/Diagnostics.lean ====
section
/-! SUPPORT. The diagnostic options (44_orchestrator.md R106, R107; O58): no operation of the block reads DIAG, only the head
and the end of DRAIN read DEBUG and PROGRESS_N, and those only to append to DIAG. -/

namespace Sys2Proof.Machine

open Sys2Proof.Safety

/-! ### What the view keeps -/

@[simp] theorem withoutDiagnostics_addrPolicy (s : State) :
    (withoutDiagnostics s).params.addrPolicy = s.params.addrPolicy := rfl

@[simp] theorem withoutDiagnostics_validateMode (s : State) :
    (withoutDiagnostics s).params.validateMode = s.params.validateMode := rfl

@[simp] theorem withoutDiagnostics_disableHw (s : State) :
    (withoutDiagnostics s).params.disableHw = s.params.disableHw := rfl

@[simp] theorem withoutDiagnostics_hwAvailable (s : State) :
    (withoutDiagnostics s).params.hwAvailable = s.params.hwAvailable := rfl

@[simp] theorem withoutDiagnostics_demoMode (s : State) :
    (withoutDiagnostics s).params.demoMode = s.params.demoMode := rfl

@[simp] theorem withoutDiagnostics_demoSeq (s : State) :
    (withoutDiagnostics s).params.demoSeq = s.params.demoSeq := rfl

@[simp] theorem withoutDiagnostics_demoRepeat (s : State) :
    (withoutDiagnostics s).params.demoRepeat = s.params.demoRepeat := rfl

@[simp] theorem withoutDiagnostics_backend (s : State) : (withoutDiagnostics s).backend = s.backend := rfl

@[simp] theorem withoutDiagnostics_initialized (s : State) :
    (withoutDiagnostics s).initialized = s.initialized := rfl

@[simp] theorem withoutDiagnostics_frame (s : State) : (withoutDiagnostics s).frame = s.frame := rfl

/-- What comes next is read from none of the diagnostics (R104). -/
theorem fetch_withoutDiagnostics (s : State) : fetch (withoutDiagnostics s) = fetch s := rfl

/-- The frame dump is in DIAG alone (R106). -/
theorem withoutDiagnostics_dumpFrame (s : State) : withoutDiagnostics (dumpFrame s) = withoutDiagnostics s := by
  rw [dumpFrame_eq]
  rfl

/-- The progress report is in DIAG alone (R107). -/
theorem withoutDiagnostics_reportProgress (s : State) :
    withoutDiagnostics (reportProgress s) = withoutDiagnostics s := by
  obtain ⟨progress, -, e⟩ := reportProgress_eq s
  rw [e]
  rfl

/-! ### Operations that do not see the diagnostics -/

/-- An operation that does the same whatever DEBUG, PROGRESS_N and DIAG are, as far as the rest of the state shows. -/
def DiagnosticsBlind (op : State → Flow) : Prop :=
  ∀ s, (op s).seen withoutDiagnostics = (op (withoutDiagnostics s)).seen withoutDiagnostics

/-- Two states that agree but for the diagnostics are taken to flows that agree so. -/
theorem DiagnosticsBlind.agree {op : State → Flow} (h : DiagnosticsBlind op) {s t : State}
    (hst : withoutDiagnostics s = withoutDiagnostics t) :
    (op s).seen withoutDiagnostics = (op t).seen withoutDiagnostics := by
  rw [h s, h t, hst]

/-- What follows flows that agree but for the diagnostics leaves them agreeing so. -/
theorem DiagnosticsBlind.andThen_agree {next : State → Flow} (h : DiagnosticsBlind next) {f g : Flow}
    (hfg : f.seen withoutDiagnostics = g.seen withoutDiagnostics) :
    (f.andThen next).seen withoutDiagnostics = (g.andThen next).seen withoutDiagnostics := by
  cases f with
  | go s =>
    cases g with
    | go t => exact h.agree (Flow.go.inj hfg)
    | abandoned t => cases hfg
  | abandoned s =>
    cases g with
    | go t => cases hfg
    | abandoned t => exact hfg

theorem DiagnosticsBlind.andThen {op next : State → Flow} (h : DiagnosticsBlind op) (k : DiagnosticsBlind next) :
    DiagnosticsBlind (fun s => (op s).andThen next) :=
  fun s => k.andThen_agree (h s)

/-- A step that consists of such an operation shows nothing of the diagnostics either. -/
theorem viewed_outcome_agree {f g : Flow} (h : f.seen withoutDiagnostics = g.seen withoutDiagnostics) :
    viewed withoutDiagnostics f.outcome = viewed withoutDiagnostics g.outcome := by
  have hstate := congrArg Flow.state h
  rw [seen_state, seen_state] at hstate
  exact congrArg Host.Outcome.next hstate

theorem DiagnosticsBlind.outcome {op : State → Flow} (h : DiagnosticsBlind op) (s : State) :
    viewed withoutDiagnostics (op s).outcome = viewed withoutDiagnostics (op (withoutDiagnostics s)).outcome :=
  viewed_outcome_agree (h s)

/-! ### Faults and pins -/

/-- A fault is taken as ADDR_POLICY says; its report is in DIAG alone (R121, R130). -/
theorem blind_raise (r : Raised) : DiagnosticsBlind (raise r) := by
  intro s
  rw [raise_eq, raise_eq, withoutDiagnostics_addrPolicy]
  split <;> rfl

theorem pinWrite_unready {s : State} (p : Pin) (l : Level)
    (h : s.backend = .live ∧ s.board.pinMode.get p ≠ .output ∨ s.backend = .notYetChosen) :
    pinWrite p l s = .abandoned (halted .notInitialized s) := by
  rcases h with ⟨hb, hm⟩ | hb
  · exact pinWrite_unconfigured l hb hm
  · simp only [pinWrite, hb]
    exact raise_fatal rfl

/-- How a PIN_WRITE ends is decided by the backend, the pin's mode and PINFAIL, which the view keeps (R64, R69). -/
theorem blind_pinWrite (p : Pin) (l : Level) : DiagnosticsBlind (pinWrite p l) := by
  intro s
  rcases pinWrite_cases p l s with ⟨hb, h⟩ | ⟨hb, hm, hf, h⟩ | ⟨hb, hm, hf, h⟩ | ⟨hb, h⟩ <;> rw [h]
  · rw [pinWrite_noop (s := withoutDiagnostics s) p l hb]
    rfl
  · rw [pinWrite_drives (s := withoutDiagnostics s) l hb hm hf]
    rfl
  · rw [pinWrite_fails (s := withoutDiagnostics s) l hb hm hf]
    rfl
  · rw [pinWrite_unready (s := withoutDiagnostics s) p l hb]
    rfl

theorem blind_primitive (e : PinEvent) : DiagnosticsBlind (primitive e) := by
  intro s
  cases e with
  | mode p =>
    simp only [primitive, setMode, withoutDiagnostics_backend]
    split <;> rfl
  | hold t =>
    simp only [primitive, hold, withoutDiagnostics_backend]
    split <;> rfl
  | write p l => exact blind_pinWrite p l s

theorem blind_perform (e : PinEvent) : DiagnosticsBlind (perform e) := by
  intro s
  rw [perform, perform, show cutDue e (withoutDiagnostics s) = cutDue e s from rfl]
  split
  · rfl
  · exact blind_primitive e s

theorem blind_drive (es : List PinEvent) : DiagnosticsBlind (drive es) := by
  induction es with
  | nil => exact fun _ => rfl
  | cons e es ih => exact (blind_perform e).andThen ih

/-! ### The Bus Driver -/

theorem blind_shiftSlots (n : Nat) : DiagnosticsBlind (shiftSlots n) := by
  induction n with
  | zero => exact fun _ => rfl
  | succ n ih =>
    intro s
    rw [shiftSlots_succ, shiftSlots_succ]
    exact ih.andThen_agree (blind_drive (slotEvents s.a s.d (Fin.ofNat 8 n)) { s with i := Fin.ofNat 8 n })

theorem blind_writeRegister (a d : Byte) : DiagnosticsBlind (writeRegister a d) := by
  intro s
  rw [writeRegister, writeRegister, withoutDiagnostics_initialized]
  split
  · exact ((blind_shiftSlots _).andThen (blind_drive _) |>.andThen (blind_drive _)) { s with a := a, d := d }
  · exact blind_raise _ s

/-! ### The decoder and the reader -/

theorem blind_nextItem : DiagnosticsBlind nextItem := fun _ => rfl

theorem blind_illegalPair (a d : Byte) : DiagnosticsBlind (illegalPair a d) :=
  fun s => blind_nextItem.andThen_agree (blind_raise (.addressOutOfRange a d (pairIndex s)) s)

theorem blind_danglingByte (b : Byte) : DiagnosticsBlind (danglingByte b) :=
  (blind_raise (.danglingByte b)).andThen blind_nextItem

theorem blind_acceptByte (b : Byte) : DiagnosticsBlind (acceptByte b) := by
  intro s
  rw [acceptByte, acceptByte, appendByte, appendByte,
    show bufFull (takeByte (withoutDiagnostics s)) = bufFull (takeByte s) from rfl]
  split
  · exact blind_raise .bufferOverflow (takeByte s)
  · rfl

theorem blind_ioError : DiagnosticsBlind ioError := fun s => blind_raise .streamIoError { takeEvent s with buf := [] }

/-- The meaning of each token (R94, R96, R87). -/
theorem exec_blind (i : Instr) (s : State) :
    viewed withoutDiagnostics (exec i s) = viewed withoutDiagnostics (exec i (withoutDiagnostics s)) := by
  cases i with
  | endFrame => rfl
  | wr addr data => exact ((blind_writeRegister (addressOperand addr) data).andThen blind_nextItem).outcome s
  | wrIllegal32To63 a d | wrIllegal64To127 a d | wrIllegal128To254 a d => exact (blind_illegalPair a d).outcome s

/-! ### The Orchestrator -/

theorem blind_initializeBlock : DiagnosticsBlind initializeBlock :=
  (((blind_drive _).andThen (blind_drive _)).andThen (blind_drive _)).andThen fun _ => rfl

theorem blind_selectBackend : DiagnosticsBlind selectBackend := by
  intro s
  rw [selectBackend, selectBackend, withoutDiagnostics_disableHw, withoutDiagnostics_hwAvailable]
  split
  · rfl
  · split
    · rfl
    · exact blind_raise _ s

theorem blind_enterLoop : DiagnosticsBlind enterLoop := by
  intro s
  rw [enterLoop, enterLoop, withoutDiagnostics_demoMode]
  split <;> rfl

theorem blind_startupFlow : DiagnosticsBlind startupFlow :=
  (blind_selectBackend.andThen blind_initializeBlock).andThen blind_enterLoop

theorem startup_blind (s : State) :
    viewed withoutDiagnostics (startup s) = viewed withoutDiagnostics (startup (withoutDiagnostics s)) := by
  have flow := blind_startupFlow.outcome s
  rw [startup, startup, withoutDiagnostics_demoMode, withoutDiagnostics_demoSeq, withoutDiagnostics_demoRepeat]
  split
  · split
    · split
      · exact flow
      · rfl
    · rfl
  · exact flow

theorem blind_demoEnd (repeats : Bool) : DiagnosticsBlind (demoEnd repeats) := by
  intro s
  cases repeats <;> rfl

theorem demoStep_blind (k : Nat) (s : State) :
    viewed withoutDiagnostics (demoStep k s) = viewed withoutDiagnostics (demoStep k (withoutDiagnostics s)) := by
  have next : DiagnosticsBlind (fun t => .go { t with micro := .demo (k + 1) }) := fun _ => rfl
  rw [demoStep, demoStep, withoutDiagnostics_demoSeq, withoutDiagnostics_demoRepeat]
  split
  · split
    · split
      · exact ((blind_writeRegister _ _).andThen next).outcome s
      · rfl
    · exact (blind_demoEnd _).outcome s
  · rfl

theorem blind_checkWholeFrame : DiagnosticsBlind checkWholeFrame := by
  intro s
  rw [checkWholeFrame, checkWholeFrame, withoutDiagnostics_addrPolicy, withoutDiagnostics_validateMode,
    withoutDiagnostics_frame]
  split
  · split
    · exact blind_raise _ s
    · rfl
  · rfl

theorem blind_drainHead : DiagnosticsBlind drainHead := by
  have walk : DiagnosticsBlind (fun t => .go { t with idx := 0, micro := .walk }) := fun _ => rfl
  intro s
  refine (blind_checkWholeFrame.andThen walk).agree ?_
  rw [withoutDiagnostics_dumpFrame, withoutDiagnostics_dumpFrame]
  rfl

theorem drainEnd_blind (s : State) :
    withoutDiagnostics (drainEnd s) = withoutDiagnostics (drainEnd (withoutDiagnostics s)) := by
  have ends : ∀ t, withoutDiagnostics (drainEnd t) = { withoutDiagnostics t with ctrl := .accum, micro := .entry } := by
    intro t
    rw [← withoutDiagnostics_reportProgress t]
    rfl
  rw [ends, ends]
  rfl

/-! ### The step -/

theorem runPass_blind (p : Pass) (s : State) :
    viewed withoutDiagnostics (runPass p s) = viewed withoutDiagnostics (runPass p (withoutDiagnostics s)) := by
  cases p with
  | startup => exact startup_blind s
  | demo k => exact demoStep_blind k s
  | accept b => exact (blind_acceptByte b).outcome s
  | ioError => exact blind_ioError.outcome s
  | drainHead => exact blind_drainHead.outcome s
  | dangling b => exact (blind_danglingByte b).outcome s
  | drainEnd => exact congrArg Host.Outcome.next (drainEnd_blind s)
  | _ => rfl

theorem step_blind (s : State) :
    viewed withoutDiagnostics (step s) = viewed withoutDiagnostics (step (withoutDiagnostics s)) := by
  rw [step, step, fetch_withoutDiagnostics]
  cases fetch s with
  | token i => exact exec_blind i s
  | pass p => exact runPass_blind p s

end Sys2Proof.Machine

namespace Sys2Proof.Proofs

open Sys2Proof.Machine

/-- Settles O58: a step seen without the diagnostics is the step of the state without them, so states that agree but for
them step alike. -/
theorem diagnosticsDoNotInterfere : Obligations.DiagnosticsDoNotInterfere := by
  intro s s' h
  rw [step_blind s, step_blind s', h]

end Sys2Proof.Proofs
end

