-- ==== Sys2Proof/Proofs/Orchestrator.lean ====
section
/-! SUPPORT. The Orchestrator (44_orchestrator.md): STARTUP to its end (O22), the demonstration (O24), the head of DRAIN with
the check of the whole frame (O42) and its end (O44). -/

namespace Sys2Proof.Machine

open Sys2Proof.Safety

/-! ### STARTUP -/

/-- A STARTUP that is not refused and whose INITIALIZE is complete enters the loop or the demonstration (R103, R108). -/
theorem step_startup_completes {s u : State} {b : Backend} (h : notStarted s = true) (hd : DemoReady s)
    (hs : selectBackend s = .go { s with backend := b })
    (hi : initializeBlock { s with backend := b } = .go { u with initialized := true }) :
    step s = .next (afterStartup u) := by
  rw [step_notStarted h, startup_ready hd, startupFlow, hs, andThen_go, hi, andThen_go, enterLoop_eq, flow_state_go]

/-- With no hardware STARTUP halts before INITIALIZE (R67, R113). -/
theorem step_startup_unavailable {s : State} (h : notStarted s = true) (hd : DemoReady s)
    (hdis : s.params.disableHw = false) (hhw : s.params.hwAvailable = false) :
    step s = .next (halted .hardwareUnavailable s) := by
  have hs : selectBackend s = .abandoned (halted .hardwareUnavailable s) := by
    rw [selectBackend, hdis, if_neg Bool.false_ne_true, hhw, if_neg Bool.false_ne_true, raise_fatal rfl]
  rw [step_notStarted h, startup_ready hd, startupFlow, hs, andThen_abandoned, andThen_abandoned, flow_state_abandoned]

/-- Without its data the demonstration is refused (R108). -/
theorem startup_demo_not_given {s : State} (hd : s.params.demoMode = true)
    (h : s.params.demoSeq = none ∨ s.params.demoRepeat = none) : startup s = .refused .demoNotGiven := by
  rw [startup, if_pos hd]
  split
  · rename_i hseq hagain
    rcases h with h | h
    · cases hseq.symm.trans h
    · cases hagain.symm.trans h
  · rfl

/-- One address of 32 or more in DEMO_SEQ and the demonstration is refused (R78, R108). -/
theorem startup_demo_out_of_range {s : State} {seq : List (Byte × Byte)} {again : Bool} {w : Byte × Byte}
    (hd : s.params.demoMode = true) (hseq : s.params.demoSeq = some seq) (hagain : s.params.demoRepeat = some again)
    (hw : w ∈ seq) (ha : 32 ≤ w.1.toNat) : startup s = .refused .demoAddressOutOfRange := by
  have hinvalid : ¬ demoAddressesValid seq = true := fun hv =>
    Nat.not_lt.2 ha (of_decide_eq_true (List.all_eq_true.1 hv w hw))
  rw [startup, if_pos hd, hseq, hagain]
  exact if_neg hinvalid

/-! ### The demonstration -/

/-- In OFF, once STARTUP has begun the demonstration, its next write comes next (R108). -/
theorem step_demo {s : State} {k : Nat} (hcut : s.cut = false) (hc : s.ctrl = .off) (hm : s.micro = .demo k) :
    step s = demoStep k s :=
  step_of_pass (p := .demo k) hcut (by rw [fetchAction, hc, hm])

/-- Where the demonstration stands: STATE still OFF, write `k` of DEMO_SEQ next, the run not cut (R108). -/
structure Demonstrating (s : State) (seq : List (Byte × Byte)) (again : Bool) (k : Nat) : Prop where
  uncut : s.cut = false
  off : s.ctrl = .off
  next : s.micro = .demo k
  seq : s.params.demoSeq = some seq
  again : s.params.demoRepeat = some again

section

variable {s : State} {seq : List (Byte × Byte)} {again : Bool} {k : Nat} {a d : Byte}

/-- Write `k` of the demonstration is a register write, and then write `k + 1` is next (R108). -/
theorem Demonstrating.step_write (h : Demonstrating s seq again k) (hw : seq[k]? = some (a, d))
    (ha : a.toNat < 32) :
    step s = ((writeRegister a d s).andThen (fun t => .go { t with micro := .demo (k + 1) })).outcome := by
  have hvalid : addressValid a = true := decide_eq_true ha
  rw [step_demo h.uncut h.off h.next]
  simp only [demoStep, h.seq, h.again, hw, hvalid, if_true]

/-- A register write that is complete is a complete step of the demonstration. -/
theorem Demonstrating.step_completes {t : State} (h : Demonstrating s seq again k) (hw : seq[k]? = some (a, d))
    (ha : a.toNat < 32) (ht : writeRegister a d s = .go t) : step s = .next { t with micro := .demo (k + 1) } := by
  rw [h.step_write hw ha, ht, andThen_go, flow_outcome, flow_state_go]

/-- The demonstration stops where its register write does (R79, R142). -/
theorem Demonstrating.step_stops {before after : List PinEvent} {e : PinEvent} {why : Option Raised}
    (h : Demonstrating s seq again k) (hw : seq[k]? = some (a, d)) (ha : a.toNat < 32) (hready : ReadyLive s)
    (hl : registerWriteEvents a d = before ++ e :: after) (hu : Undisturbed before s)
    (hstop : StopsLive e why (drivenLive before s)) :
    step s =
      .next (stopNow why (drivenLive before { s with a := a, d := d, i := Fin.ofNat 8 (7 - before.length / 4) })) := by
  obtain ⟨hlive, hinit, hmode, -⟩ := hready
  rw [h.step_write hw ha, writeRegister_live_stop a d hlive hinit hmode ⟨e, after, hl, hu, hstop⟩, andThen_abandoned,
    flow_outcome, flow_state_abandoned]

/-- Past the last write of DEMO_SEQ comes the end of the demonstration (R108). -/
theorem Demonstrating.step_past_last (h : Demonstrating s seq again k) (hk : seq.length ≤ k) :
    step s = (demoEnd again s).outcome := by
  rw [step_demo h.uncut h.off h.next]
  simp only [demoStep, h.seq, h.again, List.getElem?_eq_none hk]

end

/-! ### The check of the whole frame -/

theorem firstIllegal_pair_valid {a : Byte} (d : Byte) (rest : List Item) (n : Nat) (h : a.toNat < 32) :
    firstIllegal n (.pair a d :: rest) = firstIllegal (n + 1) rest := if_pos h

theorem firstIllegal_pair_illegal {a : Byte} (d : Byte) (rest : List Item) (n : Nat) (h : 32 ≤ a.toNat) :
    firstIllegal n (.pair a d :: rest) = some (a, d, n) := if_neg (Nat.not_lt.2 h)

/-- The least index of an illegal address with a data byte after it is the first illegal pair (R98). -/
theorem firstIllegal_of_least {frame : List Byte} {k : Nat} {a d : Byte} (n : Nat) (ha : frame[2 * k]? = some a)
    (hd : frame[2 * k + 1]? = some d) (hout : 32 ≤ a.toNat)
    (hleast : ∀ j b, j < k → frame[2 * j]? = some b → b.toNat < 32) :
    firstIllegal n (decompose frame) = some (a, d, n + k) := by
  induction frame using decompose.induct generalizing k n with
  | case1 => cases ha
  | case2 b => cases hd
  | case3 a' d' rest ih =>
    rw [decompose_pair]
    cases k with
    | zero =>
      cases ha
      cases hd
      exact firstIllegal_pair_illegal d _ n hout
    | succ k =>
      rw [firstIllegal_pair_valid d' _ n (hleast 0 a' k.succ_pos rfl),
        ih (n + 1) ha hd (fun j b hj hb => hleast (j + 1) b (Nat.succ_lt_succ hj) hb), Nat.add_right_comm n 1 k]
      rfl

/-- A frame whose complete pairs all have valid addresses has no first illegal one; a dangling byte is not checked (R98). -/
theorem firstIllegal_eq_none {frame : List Byte} (n : Nat)
    (h : ∀ (k : Nat) (a d : Byte), frame[2 * k]? = some a → frame[2 * k + 1]? = some d → a.toNat < 32) :
    firstIllegal n (decompose frame) = none := by
  induction frame using decompose.induct generalizing n with
  | case1 | case2 b => rfl
  | case3 a d rest ih =>
    rw [decompose_pair, firstIllegal_pair_valid d _ n (h 0 a d rfl rfl)]
    exact ih (n + 1) fun k b c hb hc => h (k + 1) b c hb hc

/-- Under `fatal` and `whole_frame` the first illegal pair halts (R98). -/
theorem checkWholeFrame_halts {s : State} {a d : Byte} {k : Nat} (hp : s.params.addrPolicy = .fatal)
    (hv : s.params.validateMode = .wholeFrame) (h : firstIllegal 0 (decompose s.frame) = some (a, d, k)) :
    checkWholeFrame s = .abandoned (halted (.addressOutOfRange a d k) s) := by
  rw [checkWholeFrame, if_pos ⟨hp, hv⟩, h]
  exact raise_fatal (decide_eq_true hp)

/-- The check is not made, or finds nothing (R98). -/
theorem checkWholeFrame_passes {s : State}
    (h : s.params.addrPolicy = .skip ∨ s.params.validateMode = .perPair ∨
      firstIllegal 0 (decompose s.frame) = none) : checkWholeFrame s = .go s := by
  rw [checkWholeFrame]
  split
  · rename_i hcheck
    rcases h with h | h | h
    · cases hcheck.1.symm.trans h
    · cases hcheck.2.symm.trans h
    · rw [h]
  · rfl

/-! ### DRAIN -/

/-- In EMIT before the walk the head of DRAIN comes next (R105). -/
theorem step_before_walk {s : State} (hcut : s.cut = false) (hc : s.ctrl = .emit) (hm : s.micro ≠ .walk) :
    step s = (drainHead s).outcome := by
  refine step_of_pass (p := .drainHead) hcut ?_
  rw [fetchAction, hc]
  cases hmicro : s.micro with
  | walk => exact absurd hmicro hm
  | entry | demo k => rfl

@[simp] theorem dumpFrame_params (s : State) : (dumpFrame s).params = s.params := by rw [dumpFrame_eq]

@[simp] theorem dumpFrame_frame (s : State) : (dumpFrame s).frame = s.frame := by rw [dumpFrame_eq]

/-- The frame is dumped and then found illegal: no pair is driven (R98, R105, R106). -/
theorem drainHead_halts {s : State} {a d : Byte} {k : Nat} (hp : s.params.addrPolicy = .fatal)
    (hv : s.params.validateMode = .wholeFrame) (h : firstIllegal 0 (decompose s.frame) = some (a, d, k)) :
    drainHead s = .abandoned (halted (.addressOutOfRange a d k) (dumpFrame s)) := by
  rw [← dumpFrame_params] at hp hv
  rw [← dumpFrame_frame] at h
  rw [drainHead, checkWholeFrame_halts hp hv h, andThen_abandoned]

/-- The frame is dumped and the walk begins at its first item (R105, R106). -/
theorem drainHead_walks {s : State}
    (h : s.params.addrPolicy = .skip ∨ s.params.validateMode = .perPair ∨
      firstIllegal 0 (decompose s.frame) = none) :
    drainHead s = .go { dumpFrame s with idx := 0, micro := .walk } := by
  rw [← dumpFrame_params, ← dumpFrame_frame] at h
  rw [drainHead, checkWholeFrame_passes h, andThen_go]

/-- After the last item the end of DRAIN comes next (R105). -/
theorem step_after_walk {s : State} (hcut : s.cut = false) (hc : s.ctrl = .emit) (hm : s.micro = .walk)
    (hf : s.frame.drop s.idx = []) : step s = .next (drainEnd s) :=
  step_of_pass (p := .drainEnd) hcut (by simp only [fetchAction_walk hc hm, fetchItem, hf, decompose_nil])

theorem reportProgress_due {s : State} {n : Nat} (hn : s.params.progressN = some n) (hdue : s.nframes % n = 0) :
    reportProgress s = { s with diag := s.diag ++ [.progress s.nframes] } := by
  simp only [reportProgress, hn, if_pos hdue, report]

theorem reportProgress_not_due {s : State} {n : Nat} (hn : s.params.progressN = some n) (hdue : s.nframes % n ≠ 0) :
    reportProgress s = s := by
  simp only [reportProgress, hn, if_neg hdue]

theorem reportProgress_left_out {s : State} (hn : s.params.progressN = none) : reportProgress s = s := by
  simp only [reportProgress, hn]

end Sys2Proof.Machine

namespace Sys2Proof.Proofs

open Sys2Proof.Machine Sys2Proof.Safety

/-- Settles O22: the three ways to choose a backend, each with the INITIALIZE that follows it. -/
theorem startupSelectsTheBackendOnce : Obligations.StartupSelectsTheBackendOnce := by
  intro s h hd
  refine ⟨fun hdis hc => ?_, step_startup_unavailable h hd, fun hdis hhw hboard hf hc => ?_⟩
  · exact step_startup_completes h hd (selectBackend_noop hdis)
      (initializeBlock_noop (s := { s with backend := .noop }) rfl hc)
  · refine step_startup_completes h hd (selectBackend_live hdis hhw) ?_
    rw [initializeBlock_live_go (s := { s with backend := .live }) rfl ⟨hf, hc⟩, drivenLive, hboard,
      replay_initialize_powerOn, countWrites_initialize]

/-- Settles O24: STARTUP refuses a demonstration it cannot run; each step of one that it can is a register write, complete or
stopped, or its end. -/
theorem demonstrationDrivesItsSequence : Obligations.DemonstrationDrivesItsSequence := by
  refine ⟨fun s h hd => ⟨fun hnone => ?_, fun seq again hseq hagain ⟨w, hw, ha⟩ => ?_⟩, ?_⟩
  · rw [step_notStarted h, startup_demo_not_given hd hnone]
  · rw [step_notStarted h, startup_demo_out_of_range hd hseq hagain hw ha]
  intro s seq again k hcut hc hm hseq hagain
  have demo : Demonstrating s seq again k := ⟨hcut, hc, hm, hseq, hagain⟩
  refine ⟨fun a d hw ha hready => ⟨fun hf hc => ?_, fun before after e hl hf hc => ?_⟩,
    fun a d hw ha hb hi hc => ?_, fun hk hagain => ?_, fun hk hagain => ?_⟩
  · exact demo.step_completes hw ha (writeRegister_ready a d hready (undisturbed_register a d hf hc))
  · have hlen : (drivenLive before s).trace.length = s.trace.length + before.length := List.length_append
    refine ⟨fun p l he hnc hfail => ?_, fun hcut => ?_⟩
    · exact demo.step_stops hw ha hready hl ⟨hf, hc⟩ (.inr ⟨p, l, he, rfl, by rw [hlen]; exact hnc, hfail⟩)
    · exact demo.step_stops hw ha hready hl ⟨hf, hc⟩ (.inl ⟨rfl, by rw [hlen]; exact hcut⟩)
  · exact demo.step_completes hw ha (writeRegister_noop a d s hb hi hc)
  · rw [demo.step_past_last hk, hagain]
    rfl
  · rw [demo.step_past_last hk, hagain]
    rfl

/-- Settles O42: the dump, then the check; the walk over FRAME finds the least illegal index if there is one. -/
theorem drainHeadDumpsAndChecks : Obligations.DrainHeadDumpsAndChecks := by
  intro s hcut hc hm
  rw [step_before_walk hcut hc hm, ← dumpFrame_eq]
  refine ⟨fun hp hv k a d ha hd hout hleast => ?_, fun hpass => ?_⟩
  · have hfirst := firstIllegal_of_least 0 ha hd hout hleast
    rw [Nat.zero_add] at hfirst
    rw [drainHead_halts hp hv hfirst, flow_outcome, flow_state_abandoned]
  · rw [drainHead_walks (hpass.imp_right (Or.imp_right (firstIllegal_eq_none 0))), flow_outcome, flow_state_go,
      dumpFrame_eq]

/-- Settles O44: nothing is left of the frame, and the end of DRAIN is the step. -/
theorem drainEndsInAccumulating : Obligations.DrainEndsInAccumulating := by
  intro s hcut hc hm hidx
  rw [step_after_walk hcut hc hm (List.drop_eq_nil_of_le hidx), drainEnd]
  refine ⟨fun n hn hdue => ?_, fun n hn hdue => ?_, fun hn => ?_⟩
  · rw [reportProgress_due hn hdue]
  · rw [reportProgress_not_due hn hdue]
  · rw [reportProgress_left_out hn]

end Sys2Proof.Proofs
end

