-- ==== Sys2Proof/Proofs/Exceptions.lean ====
section
/-! SUPPORT. Taking a fault (60_exceptions.md R112, R121: O12), and what a run leaves behind the pins wherever it stops: the
board that the events in TRACE produce from power-on (R66, R123, R135, R142: O48). -/

namespace Sys2Proof.Machine

open Sys2Proof.Safety

/-! ### Severity -/

/-- The recoverable faults of R112: DanglingByte, and AddressOutOfRange under `skip`. -/
theorem fatal_eq_false_iff (r : Raised) (policy : AddrPolicy) :
    r.fatal policy = false ↔
      (∃ b, r = .danglingByte b) ∨ ((∃ a d k, r = .addressOutOfRange a d k) ∧ policy = .skip) := by
  cases r with
  | danglingByte b => exact iff_of_true rfl (.inl ⟨b, rfl⟩)
  | addressOutOfRange a d k => cases policy <;> simp [Raised.fatal]
  | hardwareUnavailable | streamIoError | pinWriteFailure | notInitialized | bufferOverflow => simp [Raised.fatal]

/-! ### STARTUP runs once -/

/-- An operation that stops has begun, so STARTUP is not to run after it (R121, R142). -/
theorem notStarted_stopped (why : Option Raised) (s : State) : notStarted (stopped why s) = false := by
  cases why with
  | none => exact notStarted_of_cut rfl
  | some r => rfl

/-- After a step, whatever it was, STARTUP is not to run any more (R15, R103). -/
theorem stepEffect_started {s t : State} (h : StepEffect s t) : notStarted t = false := by
  have inLoop : s.ctrl = .accum ∨ s.ctrl = .emit → s.ctrl ≠ .off := by rintro (hc | hc) <;> rw [hc] <;> nofun
  cases h with
  | wait hc _ e =>
    subst e
    exact notStarted_of_ctrl (inLoop (.inl hc))
  | startup _ _ _ _ _ _ hn e =>
    subst e
    rcases hn with ⟨rfl, -⟩ | ⟨rfl, rfl⟩ <;> rfl
  | startupStops _ _ _ _ _ _ _ _ _ _ e | writeStops _ _ _ _ _ _ _ _ _ _ _ _ _ e =>
    subst e
    exact notStarted_stopped _ _
  | demoEnds _ _ _ e =>
    rcases e with rfl | rfl
    · rfl
    · exact notStarted_of_demo rfl
  | write _ _ _ _ _ _ _ _ hr e =>
    subst e
    rcases hr with ⟨hc, -⟩ | ⟨-, k, -, rfl, -⟩
    · exact notStarted_of_ctrl (inLoop (.inr hc))
    · exact notStarted_of_demo rfl
  | accept _ _ hc _ _ _ e =>
    subst e
    exact notStarted_of_ctrl (inLoop (.inl hc))
  | drainHead _ hc _ _ e | illegalSkipped _ _ _ hc _ e | dangling _ _ hc _ _ e =>
    subst e
    exact notStarted_of_ctrl (inLoop (.inr hc))
  | hardwareUnavailable _ e | writeBeforeInitialize _ _ e | endToken _ _ _ _ e | overflow _ _ _ _ e
  | endOfStream _ _ _ e | ioError _ _ _ e | frameRefused _ _ _ _ _ _ _ _ e | illegal _ _ _ _ _ _ e
  | drainEnd _ _ _ _ e =>
    subst e
    rfl

/-! ### The board that TRACE produces -/

/-- The invariant without its part about the time before STARTUP: the board is the replay of TRACE, and untouched unless the
backend is LIVE (R66, R123). -/
abbrev BoardReplaysTrace (s : State) : Prop :=
  s.board = Board.powerOn.replay s.trace ∧ (s.backend ≠ .live → s.board = .powerOn)

/-- A Hold at power-on lies in no pulse: no Low time is open and RES_N is not Low (R39, R40). -/
theorem react_hold_powerOn (t : Duration) : Board.powerOn.react (.hold t) = .powerOn := rfl

/-- The Holds that a backend other than LIVE records do nothing to the board at power-on (R65, R66). -/
theorem replay_holds_powerOn (es : List PinEvent) : Board.powerOn.replay (es.filter isHold) = .powerOn := by
  induction es with
  | nil => rfl
  | cons e es ih =>
    cases e with
    | hold t => rw [List.filter_cons_of_pos rfl, replay_cons, react_hold_powerOn, ih]
    | mode p | write p l => exact ih

/-- What is driven is recorded in the same order that the board reacts in; unless LIVE, what is recorded does nothing. -/
theorem drivenBy_replaysTrace {s : State} (es : List PinEvent) (n : Nat) (h : BoardReplaysTrace s) :
    BoardReplaysTrace (drivenBy es n s) := by
  obtain ⟨hreplay, hsilent⟩ := h
  by_cases hb : s.backend = .live
  · rw [drivenBy_live hb]
    refine ⟨?_, fun hn => absurd hb hn⟩
    show s.board.replay es = Board.powerOn.replay (s.trace ++ es)
    rw [replay_append, ← hreplay]
  · rw [drivenBy_other hb]
    have hboard := hsilent hb
    refine ⟨?_, fun _ => hboard⟩
    show s.board = Board.powerOn.replay (s.trace ++ es.filter isHold)
    rw [replay_append, ← hreplay, hboard, replay_holds_powerOn]

/-- Neither a fatal fault nor the host's cut makes an event, touches the pins or changes the backend (R121, R142). -/
theorem stopped_replaysTrace {s : State} (why : Option Raised) (h : BoardReplaysTrace s) :
    BoardReplaysTrace (stopped why s) := by
  cases why <;> exact h

/-- Before STARTUP whichever backend is chosen finds the power-on board and no event (R31, R67). -/
theorem fresh_replaysTrace {s : State} (backend : Backend) (hs : FreshBeforeStartup s) (h : notStarted s = true) :
    BoardReplaysTrace { s with backend := backend } := by
  obtain ⟨hboard, -, -, htrace, -⟩ := hs h
  refine ⟨?_, fun _ => hboard⟩
  show s.board = Board.powerOn.replay s.trace
  rw [hboard, htrace, replay_nil]

theorem stepEffect_replaysTrace {s t : State} (hfresh : FreshBeforeStartup s) (hs : BoardReplaysTrace s)
    (h : StepEffect s t) : BoardReplaysTrace t := by
  cases h with
  | startup backend n _ _ h _ _ e =>
    exact e ▸ drivenBy_replaysTrace initializeEvents n (fresh_replaysTrace backend hfresh h)
  | startupStops backend pre _ _ why n h _ _ _ e =>
    exact e ▸ stopped_replaysTrace why (drivenBy_replaysTrace pre n (fresh_replaysTrace backend hfresh h))
  | write a d n i _ _ _ _ _ e =>
    exact e ▸ drivenBy_replaysTrace (s := withOperands a d i s) (registerWriteEvents a d) n hs
  | writeStops a d pre _ _ why n i _ _ _ _ _ e =>
    exact e ▸ stopped_replaysTrace why (drivenBy_replaysTrace (s := withOperands a d i s) pre n hs)
  | demoEnds _ _ _ e => rcases e with rfl | rfl <;> exact hs
  | wait _ _ e | hardwareUnavailable _ e | writeBeforeInitialize _ _ e | endToken _ _ _ _ e | accept _ _ _ _ _ _ e
  | overflow _ _ _ _ e | endOfStream _ _ _ e | ioError _ _ _ e | drainHead _ _ _ _ e | frameRefused _ _ _ _ _ _ _ _ e
  | illegal _ _ _ _ _ _ e | illegalSkipped _ _ _ _ _ e | dangling _ _ _ _ _ e | drainEnd _ _ _ _ e =>
    subst e
    exact hs

end Sys2Proof.Machine

namespace Sys2Proof.Proofs

open Sys2Proof.Machine Sys2Proof.Safety

/-- Settles O48: the board reacts to exactly the events that TRACE records, complete or stopped; under NOOP those are Holds,
which the power-on board ignores; and after a step STARTUP is not to run any more. -/
theorem stepKeepsBoardFollowingTrace : Obligations.StepKeepsBoardFollowingTrace := by
  intro s t ⟨hfresh, hreplays⟩ h
  have he := step_effect h
  exact ⟨fun hn => absurd hn (ne_true_of_eq_false (stepEffect_started he)), stepEffect_replaysTrace hfresh hreplays he⟩

/-- Settles O12: `raise` takes its way by the severity of the fault; the codes and the information are the table's. -/
theorem faultEntryReportsAndHalts : Obligations.FaultEntryReportsAndHalts := by
  refine ⟨fun r s => ?_, ⟨rfl, rfl⟩, ⟨rfl, rfl⟩, fun _ => ⟨rfl, rfl⟩, fun _ _ _ => ⟨rfl, rfl⟩, fun _ _ => ⟨rfl, rfl⟩,
    ⟨rfl, rfl⟩, ⟨rfl, rfl⟩⟩
  rw [← fatal_eq_false_iff]
  exact ⟨raise_recoverable, fun h => raise_fatal (Bool.eq_true_of_not_eq_false h)⟩

end Sys2Proof.Proofs
end

