-- ==== Sys2Proof/Proofs/PulsesSafe.lean ====
section
/-! SUPPORT. The select and reset pulses in TRACE, as the monitor of Safety.lean reads them (R74, R137, R138, R140; O52): the
operations of the block open a pulse only to hold it long enough and close it, so where one stops, TRACE is safe so far. -/

namespace Sys2Proof.Machine

open Sys2Proof.Safety

/-! ### The monitor -/

/-- The monitor after the events `es`, begun from `m`. -/
abbrev monitorFrom (m : Monitor) (es : List PinEvent) : Monitor := es.foldl Monitor.next m

/-- All was as R137, R138 and R140 ask, and neither pulse is open. -/
structure PulsesClosed (m : Monitor) : Prop where
  ok : m.ok = true
  csHigh : m.csLow = false
  resHigh : m.resLow = false

theorem monitorFrom_append (m : Monitor) (es fs : List PinEvent) :
    monitorFrom m (es ++ fs) = monitorFrom (monitorFrom m es) fs := List.foldl_append

theorem monitor_append (trace es : List PinEvent) : monitor (trace ++ es) = monitorFrom (monitor trace) es :=
  monitorFrom_append Monitor.start trace es

theorem monitor_nil_closed : PulsesClosed (monitor []) := ⟨rfl, rfl, rfl⟩

/-- What the monitor has once found wrong stays wrong. -/
theorem ok_of_next {m : Monitor} {e : PinEvent} (h : (m.next e).ok = true) : m.ok = true := by
  cases e with
  | hold t => exact h
  | mode p => exact (Bool.and_eq_true_iff.1 h).1
  | write p l =>
    cases p with
    | csN | resN =>
      cases l <;>
        · simp only [Monitor.next, Bool.and_eq_true, and_assoc] at h
          exact h.1
    | addrSer | dataSer | shClk | shLatch | shMrN => exact (Bool.and_eq_true_iff.1 h).1

theorem ok_of_monitorFrom {m : Monitor} {es : List PinEvent} (h : (monitorFrom m es).ok = true) : m.ok = true := by
  induction es generalizing m with
  | nil => exact h
  | cons e es ih => exact ok_of_next (ih h)

/-! ### Complete pulses -/

/-- The writes that take CS_N or RES_N Low. -/
def opensPulse : PinEvent → Bool
  | .write .csN .low => true
  | .write .resN .low => true
  | _ => false

/-- Every pulse that `es` opens it holds long enough and closes, nothing else being touched in a select pulse. -/
def PulsesComplete (es : List PinEvent) : Prop := ∀ m, PulsesClosed m → PulsesClosed (monitorFrom m es)

theorem pulsesComplete_append {es fs : List PinEvent} (he : PulsesComplete es) (hf : PulsesComplete fs) :
    PulsesComplete (es ++ fs) := by
  intro m hm
  rw [monitorFrom_append]
  exact hf _ (he m hm)

/-- With both pulses closed, an event that opens none is allowed and leaves them closed. -/
theorem next_closed {m : Monitor} {e : PinEvent} (he : opensPulse e = false) (hm : PulsesClosed m) :
    PulsesClosed (m.next e) := by
  obtain ⟨hok, hcs, hres⟩ := hm
  cases e with
  | hold t => exact ⟨hok, hcs, hres⟩
  | mode p => exact ⟨by simp [Monitor.next, hok, hcs], hcs, hres⟩
  | write p l =>
    cases p with
    | csN =>
      cases l with
      | low => cases he
      | high => exact ⟨by simp [Monitor.next, hok, hcs], rfl, hres⟩
    | resN =>
      cases l with
      | low => cases he
      | high => exact ⟨by simp [Monitor.next, hok, hcs, hres], hcs, rfl⟩
    | addrSer | dataSer | shClk | shLatch | shMrN => exact ⟨by simp [Monitor.next, hok, hcs], hcs, hres⟩

theorem pulsesComplete_of_none_opened {es : List PinEvent} (h : es.any opensPulse = false) : PulsesComplete es := by
  induction es with
  | nil => exact fun _ hm => hm
  | cons e es ih =>
    obtain ⟨he, hes⟩ := Bool.or_eq_false_iff.1 h
    exact fun m hm => ih hes _ (next_closed he hm)

/-- The Hold of CS_PULSE is the T_CS_MIN that R137 asks for (R74). -/
theorem selectPulse_complete : PulsesComplete [.write .csN .low, .hold .csMin, .write .csN .high] := by
  rintro m ⟨hok, hcs, hres⟩
  exact ⟨by simp [Monitor.next, hok, hcs, Duration.ns], rfl, hres⟩

/-- The Hold of RESET is the T_RES_MIN that R138 asks for (R80). -/
theorem resetPulse_complete : PulsesComplete [.write .resN .low, .hold .resMin, .write .resN .high] := by
  rintro m ⟨hok, hcs, hres⟩
  exact ⟨by simp [Monitor.next, hok, hcs, Duration.ns], hcs, rfl⟩

/-- A register write opens its select pulse when the shift and the latch are over (R75, R76). -/
theorem registerWriteEvents_complete (a d : Byte) : PulsesComplete (registerWriteEvents a d) := by
  rw [registerWriteEvents_eq]
  exact pulsesComplete_append (pulsesComplete_of_none_opened rfl) selectPulse_complete

/-- INITIALIZE makes one pulse, that of RESET (R80, R81). -/
theorem initializeEvents_complete : PulsesComplete initializeEvents :=
  pulsesComplete_append (es := modeEvents) (pulsesComplete_of_none_opened rfl)
    (pulsesComplete_append resetPulse_complete
      (pulsesComplete_of_none_opened (es := .write .csN .high :: clearEvents) rfl))

theorem holds_open_none (es : List PinEvent) : (es.filter isHold).any opensPulse = false := by
  rw [List.any_eq_false]
  rintro (p | ⟨p, l⟩ | t) he
  · exact nofun
  · exact absurd (List.of_mem_filter he) nofun
  · exact nofun

/-- Complete pulses are recorded whole, or, unless under LIVE, nothing of them but their Holds (R66). -/
theorem recorded_complete {es : List PinEvent} (s : State) (h : PulsesComplete es) : PulsesComplete (recorded s es) := by
  unfold recorded
  split
  · exact h
  · exact pulsesComplete_of_none_opened (holds_open_none es)

/-! ### What is driven -/

theorem drivenBy_closed {s : State} {es : List PinEvent} (n : Nat) (hes : PulsesComplete es)
    (hs : PulsesClosed (monitor s.trace)) : PulsesClosed (monitor (drivenBy es n s).trace) := by
  show PulsesClosed (monitor (s.trace ++ recorded s es))
  rw [monitor_append]
  exact recorded_complete s hes _ hs

/-- Wherever complete pulses are broken off, what stands in TRACE is safe (R142). -/
theorem drivenBy_broken_off_ok {s : State} {es pre post : List PinEvent} {e : PinEvent} (n : Nat) (hes : PulsesComplete es)
    (hl : es = pre ++ e :: post) (hs : PulsesClosed (monitor s.trace)) :
    (monitor (drivenBy pre n s).trace).ok = true := by
  have hall := (drivenBy_closed n hes hs).ok
  rw [hl, ← drivenBy_drivenBy pre _ n n s, drivenBy, monitor_append] at hall
  exact ok_of_monitorFrom hall

/-! ### Every step -/

/-- The invariant without its part about the time before STARTUP: TRACE is safe, and while the block runs no pulse is open. -/
abbrev TraceSafe (s : State) : Prop :=
  (monitor s.trace).ok = true ∧ (running s = true → PulsesClosed (monitor s.trace))

theorem traceSafe_of_closed {t : State} (h : PulsesClosed (monitor t.trace)) : TraceSafe t := ⟨h.ok, fun _ => h⟩

/-- A fatal fault or a cut adds nothing to TRACE, and the block does not run any more (R121, R142). -/
theorem traceSafe_stopped {u : State} (why : Option Raised) (h : (monitor u.trace).ok = true) :
    TraceSafe (stopped why u) := by
  cases why with
  | none => exact ⟨h, fun hr => absurd hr (ne_true_of_eq_false (running_of_cut rfl))⟩
  | some r => exact ⟨h, nofun⟩

/-- INITIALIZE runs from an empty TRACE, a register write from closed pulses; no other effect of a step adds to TRACE. -/
theorem stepEffect_traceSafe {s t : State} (hcut : s.cut = false) (hfresh : notStarted s = true → s.trace = [])
    (hs : TraceSafe s) (h : StepEffect s t) : TraceSafe t := by
  obtain ⟨hok, hclosed⟩ := hs
  have fresh : notStarted s = true → PulsesClosed (monitor s.trace) := fun hn => hfresh hn ▸ monitor_nil_closed
  have due : WriteDue s → PulsesClosed (monitor s.trace) := fun hr => hclosed (running_of_writeDue hcut hr)
  have inLoop : s.ctrl = .accum ∨ s.ctrl = .emit → PulsesClosed (monitor s.trace) :=
    fun hc => hclosed (running_in_loop hcut hc)
  cases h with
  | startup b n _ _ hn _ _ e =>
    subst e
    exact traceSafe_of_closed
      (drivenBy_closed (s := { s with backend := b }) n initializeEvents_complete (fresh hn))
  | startupStops b _ _ _ why n hn hl _ _ e =>
    subst e
    exact traceSafe_stopped why
      (drivenBy_broken_off_ok (s := { s with backend := b }) n initializeEvents_complete hl (fresh hn))
  | write a d n i _ _ _ _ hr e =>
    have hr : WriteDue s := hr.imp (fun ⟨hc, hm, _⟩ => ⟨hc, hm⟩) (fun ⟨hc, k, hm, _⟩ => ⟨hc, k, hm⟩)
    subst e
    exact traceSafe_of_closed
      (drivenBy_closed (s := withOperands a d i s) n (registerWriteEvents_complete a d) (due hr))
  | writeStops a d _ _ _ why n i _ _ hr hl _ e =>
    subst e
    exact traceSafe_stopped why
      (drivenBy_broken_off_ok (s := withOperands a d i s) n (registerWriteEvents_complete a d) hl (due hr))
  | demoEnds k hc hm e =>
    have hclosed := due (.inr ⟨hc, k, hm⟩)
    rcases e with rfl | rfl <;> exact traceSafe_of_closed hclosed
  | wait hc _ e | endToken _ hc _ _ e | accept _ _ hc _ _ _ e | endOfStream _ hc _ e =>
    subst e
    exact traceSafe_of_closed (inLoop (.inl hc))
  | drainHead _ hc _ _ e | illegalSkipped _ _ _ hc _ e | dangling _ _ hc _ _ e | drainEnd _ hc _ _ e =>
    subst e
    exact traceSafe_of_closed (inLoop (.inr hc))
  | hardwareUnavailable _ e | writeBeforeInitialize _ _ e | overflow _ _ _ _ e | ioError _ _ _ e
  | frameRefused _ _ _ _ _ _ _ _ e | illegal _ _ _ _ _ _ e =>
    subst e
    exact ⟨hok, nofun⟩

end Sys2Proof.Machine

namespace Sys2Proof.Proofs

open Sys2Proof.Machine Sys2Proof.Safety

/-- Settles O52: the only pulses a step makes are the reset pulse of INITIALIZE and the select pulse of a register write, each
complete or broken off with the run; and after a step STARTUP is not to run any more. -/
theorem stepKeepsPulsesSafe : Obligations.StepKeepsPulsesSafe := by
  intro s t ⟨hfresh, hok, hclosed⟩ h
  have he := step_effect h
  have hs : TraceSafe s := ⟨hok, fun hr => let ⟨hcs, hres⟩ := hclosed hr; ⟨hok, hcs, hres⟩⟩
  obtain ⟨hok', hclosed'⟩ := stepEffect_traceSafe (uncut_of_step h) hfresh hs he
  exact ⟨fun hn => absurd hn (ne_true_of_eq_false (stepEffect_started he)), hok',
    fun hr => let ⟨_, hcs, hres⟩ := hclosed' hr; ⟨hcs, hres⟩⟩

end Sys2Proof.Proofs
end
